-- ==== Sys2Proof/Word.lean ====
section
/-! DEFINITION. The word types of the core (00_scope.md R9; 10_state.md R23, R24). -/

namespace Sys2Proof

/-- "Byte — unsigned 8-bit value" (R9 `BYTE_BITS`). -/
abbrev Byte := BitVec 8

/-- The width of a command word and of `STATUS` (R24, R26). -/
abbrev Word32 := BitVec 32

/-- The width of `ARG0`, `ARG1`, `RES0`, `RES1` and of every read-only counter register (R23, R27). -/
abbrev Word64 := BitVec 64

/-- `2^64 - 1`, the source's "return -1" (60_exceptions.md R306). -/
def ones64 : Word64 := BitVec.allOnes 64

end Sys2Proof
end

