-- ==== Sys2Proof/Syntax.lean ====
section
/-! DEFINITION. The eleven commands of the command set BSC-1 (30_encoding.md R100), one constructor per
row of spec/opcode_table.json. A constructor carries the operands the command WORD carries; `ARG0` and
`ARG1` are state (R97, R98). -/

namespace Sys2Proof

/-- A command of BSC-1 (R100). -/
inductive Instr where
  /-- `BSW.BIT b`, OP 0x01, format B: writer `append_bit(b)` (R131). -/
  | bswBit (b : Bool)
  /-- `BSW.BITS value, n`, OP 0x02, format N: writer `append_bits(ARG0, n)` (R133). `n` is the
  unsigned field `N`, 0 to 127. -/
  | bswBits (n : Nat)
  /-- `BSW.CODE bits, length`, OP 0x03, format A: writer `append_code(ARG0, ARG1)` (R135). -/
  | bswCode
  /-- `BSW.REL`, OP 0x04, format Z: writer `release()` (R137). -/
  | bswRel
  /-- `BSW.CNT`, OP 0x05, format Z: writer `byte_count()` (R139). -/
  | bswCnt
  /-- `BSR.OPEN base, size_in_bits`, OP 0x08, format A: reader construction (R150). -/
  | bsrOpen
  /-- `BSR.BIT`, OP 0x09, format Z: reader `read_bit()` (R152). -/
  | bsrBit
  /-- `BSR.BITS n`, OP 0x0A, format N: reader `read_bits(n)` (R154). -/
  | bsrBits (n : Nat)
  /-- `HUF.ENC base, size`, OP 0x10, format A: Huffman `encode(input)` (R165). -/
  | hufEnc
  /-- `LZW.ENC base, size`, OP 0x11, format A: LZW `encode(input)` (R200). -/
  | lzwEnc
  /-- `RICE.ENC base, size`, OP 0x12, format A: Rice `encode(input)` (R230). -/
  | riceEnc
  deriving DecidableEq, Repr

end Sys2Proof
end

