-- ==== Sys2Proof/WellFormed.lean ====
section
/-! DEFINITION. Which instruction terms a command word can carry (30_encoding.md R96, R97). -/

namespace Sys2Proof

/-- The field `N` is 7 bits wide, "unsigned 0..127" (R96). Values 65 to 127 ARE well-formed: they decode,
and the command's own check refuses them (R101). -/
def Instr.wellFormed : Instr → Bool
  | .bswBit _ => true
  | .bswBits n => decide (n < 128)
  | .bswCode => true
  | .bswRel => true
  | .bswCnt => true
  | .bsrOpen => true
  | .bsrBit => true
  | .bsrBits n => decide (n < 128)
  | .hufEnc => true
  | .lzwEnc => true
  | .riceEnc => true

end Sys2Proof
end

