-- ==== Sys2Proof/Decode.lean ====
section
/-! DEFINITION. The command decoder and the encoder (30_encoding.md Part A, R90 to R103). -/

namespace Sys2Proof

/-- Why a word is not a command (R99 step 2, R101). All of them are refused with the one cause
`ARG_ILLEGAL_CMD`. -/
inductive DecodeReject where
  /-- Bits 31:16 are not zero. -/
  | highBits
  /-- `OP` is not in R100. -/
  | unknownOp
  /-- A field the format requires to be zero is not zero (R97). -/
  | mustBeZero
  deriving DecidableEq, Repr

/-- `OP = cmd[7:0]` (R96). -/
def fieldOp (w : Word32) : Nat := w.toNat % 256
/-- `N = cmd[14:8]`, unsigned (R96, R98). -/
def fieldN (w : Word32) : Nat := w.toNat / 256 % 128
/-- `B = cmd[15]` (R96, R98). -/
def fieldB (w : Word32) : Bool := w.toNat.testBit 15
/-- `cmd[31:16]`, must be zero (R96). -/
def fieldHigh (w : Word32) : Nat := w.toNat / 65536

/-- Formats Z and A use no field of the word but `OP` (R97). -/
def formatZA (w : Word32) (i : Instr) : Except DecodeReject Instr :=
  if fieldN w = 0 ∧ fieldB w = false then .ok i else .error .mustBeZero

/-- Format B uses `B`; `N` must be zero (R97). -/
def formatB (w : Word32) (i : Bool → Instr) : Except DecodeReject Instr :=
  if fieldN w = 0 then .ok (i (fieldB w)) else .error .mustBeZero

/-- Format N uses `N`; `B` must be zero (R97). -/
def formatN (w : Word32) (i : Nat → Instr) : Except DecodeReject Instr :=
  if fieldB w = false then .ok (i (fieldN w)) else .error .mustBeZero

/-- The decoder, total on every 32-bit word: "every 32-bit word is either exactly one command of rule
R100 or refused" (R99). -/
def decode (w : Word32) : Except DecodeReject Instr :=
  if fieldHigh w ≠ 0 then .error .highBits
  else match fieldOp w with
    | 0x01 => formatB w .bswBit
    | 0x02 => formatN w .bswBits
    | 0x03 => formatZA w .bswCode
    | 0x04 => formatZA w .bswRel
    | 0x05 => formatZA w .bswCnt
    | 0x08 => formatZA w .bsrOpen
    | 0x09 => formatZA w .bsrBit
    | 0x0A => formatN w .bsrBits
    | 0x10 => formatZA w .hufEnc
    | 0x11 => formatZA w .lzwEnc
    | 0x12 => formatZA w .riceEnc
    | _ => .error .unknownOp

/-- A command word from its fields: `OP | N << 8 | B << 15`, bits 31:16 zero (R96, R103). -/
def commandWord (op n : Nat) (b : Bool) : Word32 :=
  BitVec.ofNat 32 (op + n * 256 + b.toNat * 32768)

/-- The command word of each command, from the table of R103. -/
def encode : Instr → Word32
  | .bswBit b => commandWord 0x01 0 b
  | .bswBits n => commandWord 0x02 n false
  | .bswCode => commandWord 0x03 0 false
  | .bswRel => commandWord 0x04 0 false
  | .bswCnt => commandWord 0x05 0 false
  | .bsrOpen => commandWord 0x08 0 false
  | .bsrBit => commandWord 0x09 0 false
  | .bsrBits n => commandWord 0x0A n false
  | .hufEnc => commandWord 0x10 0 false
  | .lzwEnc => commandWord 0x11 0 false
  | .riceEnc => commandWord 0x12 0 false

/-- The instruction the decoder reads from a command word whose low `nbits` bits are `w`'s, every bit above
them zero. A command is ONE 32-bit word written to `CMD` (R90), so no byte order enters. -/
def decodeTableWord (nbits w : Nat) : Option Instr :=
  match decode (BitVec.ofNat 32 (w % 2 ^ nbits)) with
  | .ok i => some i
  | .error _ => none

end Sys2Proof
end

