-- ==== Sys2Proof/Config.lean ====
section
/-! DEFINITION. What is fixed for one core (00_scope.md R9, R10, R11) and the two free values
(log entries 1 and 8). -/

namespace Sys2Proof

/-- The implementation parameters of R10 and R11 ("A model takes them as configuration fields"). A core
keeps its `Config` for ever: no command and no reset changes it (70_reset_and_hazards.md R341). -/
structure Config where
  /-- `INIT_BYTES` (R10): capacity of a freshly constructed writer, in bytes. -/
  initBytes : Nat
  /-- `GRANULARITY` (R10): the raw growth factor. -/
  granularity : Nat
  /-- `ADDR_BITS` (R11): width of a byte address of `MEM`. -/
  addrBits : Nat
  /-- `LEN_BITS` (R11): width of an input length. -/
  lenBits : Nat
  /-- `BUF_MAX_BYTES` (R11): the largest `bytes_allocated` the writer may reach. -/
  bufMaxBytes : Nat
  deriving DecidableEq, Repr

namespace Config

/-- The defaults of R10 and R11. -/
def default : Config where
  initBytes := 1024
  granularity := 2
  addrBits := 32
  lenBits := 32
  bufMaxBytes := 2 ^ 32

/-- The constraints of R10 and R11: `INIT_BYTES >= 1`; `1 <= ADDR_BITS <= 64`;
`19 <= LEN_BITS <= ADDR_BITS`; `INIT_BYTES <= BUF_MAX_BYTES < 2^61`. -/
abbrev Legal (c : Config) : Prop :=
  1 ≤ c.initBytes ∧ 1 ≤ c.addrBits ∧ c.addrBits ≤ 64 ∧ 19 ≤ c.lenBits ∧ c.lenBits ≤ c.addrBits ∧
    c.initBytes ≤ c.bufMaxBytes ∧ c.bufMaxBytes < 2 ^ 61

/-- FREE VALUE (log entry 1): `RES0` after a `BSR.BITS` that faults, "any 64-bit value; a model draws
it" (R311, R355 (a)). The argument is the number of draws made before. It has no body. -/
opaque freeRes0 : Nat → Word64

/-- FREE VALUE (log entry 8): what `CFG_GRAN` reads as in a core whose `GRANULARITY`, "any natural number" (R10), does not
fit the register's 64 bits (10_state.md R27). The argument is the parameter. It has no body. -/
opaque freeGranularity : Nat → Word64

end Config

/-- R9: "`append_bits(value, n)` and `read_bits(n)` require `n ≤ 64`". -/
def maxBitsPerOp : Nat := 64
/-- R9: a `HuffmanCode` length is `0..=64`. -/
def maxCodeLen : Nat := 64
/-- R9: leaves occupy pool indices 0 to 255. -/
def hufLeaves : Nat := 256
/-- R9: inner slots occupy pool indices 256 to 767. -/
def hufInnerSlots : Nat := 512
/-- R9: "256 leaves + 512 inner slots = 768". -/
def hufPool : Nat := 768
/-- R9: the value of the 16-bit `N` header field, "fixed 256". -/
def hufNField : Nat := 256
/-- R9: width of `N` and of `L` in the Huffman header. -/
def hufHdrFieldBits : Nat := 16
/-- R9: "New entries start at index 256". -/
def lzwFirstCode : Nat := 256
/-- R9: "the dictionary is capped at 4096 entries". -/
def lzwMaxEntries : Nat := 4096
/-- R9: "Code width starts at 9 bits". -/
def lzwStartBits : Nat := 9
/-- R9: "a ceiling of 12 bits". -/
def lzwMaxBits : Nat := 12
/-- R9: `k ∈ 0..=8`. -/
def riceKMax : Nat := 8
/-- R9: `k` is "encoded in the first 4 bits of the stream". -/
def riceKFieldBits : Nat := 4

/-- The constant of the `ID` register: ASCII "BSC1", command-set version 1 (10_state.md R27). -/
def idConstant : Word64 := 0x4253433100000001#64

end Sys2Proof
end

