-- ==== Sys2Proof/Machine/State.lean ====
section
/-! DEFINITION. Everything the spec gives the core (10_state.md), the host memory `MEM` (20_memory.md R60) and
the host's side of a run (10_state.md R30; 70_reset_and_hazards.md R342, R351), as plain data; and reset. -/

namespace Sys2Proof.Machine

/-- The host memory `MEM` (R60) as the cells that differ from what an unlisted address reads as
(log entry 3), addresses strictly rising. -/
abbrev Memory := List Host.Cell

/-- The cause codes of 60_exceptions.md R301, one constructor each. The three `STR_` codes after
`strUnexpectedEnd` are raised by the reference decoders only and never stand in `STATUS.CAUSE`. -/
inductive Cause where
  | none
  | argIllegalCmd
  | argCount
  | argSize
  | argNotEmpty
  | argFaulted
  | capCodeLen
  | capNodePool
  | capAlloc
  | strUnexpectedEnd
  | strMalformed
  | strNoMatch
  | strOvershoot
  deriving DecidableEq, Repr

/-- The fields of `STATUS` (R26). It is read-only to the host and its reserved bits read as zero, so the
32-bit word is computed (`Status.word`). -/
structure Status where
  /-- Bit 0: a command is running. -/
  busy : Bool
  /-- Bit 1: a fatal error has been reported; sticky. -/
  fault : Bool
  /-- Bit 2: the last command was refused. -/
  argErr : Bool
  /-- Bit 3: the last `read_bit` returned `None`. -/
  eos : Bool
  /-- Bits 15:8: why. -/
  cause : Cause
  deriving DecidableEq, Repr

/-- The writer `S.w` (R32). Counts are naturals (00_scope.md R16); that they fit their `CNT_BITS = 64` bits is
an invariant. -/
structure Writer where
  /-- `WBUF`: "a growable byte array owned by the writer". -/
  wbuf : List Byte
  /-- `bits_written`: "exact, no padding". -/
  bitsWritten : Nat
  /-- `bytes_allocated`: the size of `WBUF`. -/
  bytesAllocated : Nat
  deriving DecidableEq, Repr

/-- The reader `S.r` (R34): a borrowed slice and a position. -/
structure Reader where
  base : Nat
  sizeInBits : Nat
  bitsRead : Nat
  deriving DecidableEq, Repr

/-- One record `(bytes, bytes_allocated, bits_written)` of the release log (R31). -/
structure Release where
  bytes : List Byte
  bytesAllocated : Nat
  bitsWritten : Nat
  deriving DecidableEq, Repr

/-- `HuffmanCode` (R36): "`(bits: u64, length: 0..=64)`. Bit 0 is the first bit emitted." -/
structure HuffmanCode where
  bits : Word64
  length : Nat
  deriving DecidableEq, Repr

/-- A node of the Huffman pool (R37). `kind` and a leaf's `value` are fixed by the pool index
(`nodeIsLeaf`, `leafValue`) and are not stored a second time. `NIL` is `none` (R35). -/
structure HufNode where
  valid : Bool
  frequency : Nat
  left : Option Nat
  right : Option Nat
  code : HuffmanCode
  deriving DecidableEq, Repr

/-- The Huffman scratch `S.h` (R37, R38, R39). -/
structure HufScratch where
  /-- `pool`, 768 nodes. -/
  pool : List HufNode
  /-- `queue`, a set of pool indices (a list without repeats; its order is not used). -/
  queue : List Nat
  innerCount : Nat
  root : Option Nat
  maxLen : Nat
  /-- `L`, the width of each code-length field of the header. -/
  fieldWidth : Nat
  deriving DecidableEq, Repr

/-- A dictionary entry "`(prefix_code, suffix_byte)`" (R41). -/
structure LzwEntry where
  prefixCode : Nat
  suffixByte : Byte
  deriving DecidableEq, Repr

/-- The LZW scratch `S.z` (R41). `dict` lists the DEFINED entries only, in order of code: entry `e` is
the element number `e - 256`. -/
structure LzwScratch where
  dict : List LzwEntry
  nextCode : Nat
  width : Nat
  /-- The current match; `none` is `NIL`, "initially empty". -/
  w : Option Nat
  deriving DecidableEq, Repr

/-- The Rice scratch `S.c` (R43): the nine totals and the parameter. -/
structure RiceScratch where
  tot : List Nat
  k : Nat
  deriving DecidableEq, Repr

/-- The width of a host access to the register window. -/
inductive Width where
  | w8
  | w16
  | w32
  | w64
  deriving DecidableEq, Repr

/-- What the host and the platform can do to the core, one action a step: an access to the 256-byte register
window (R27), a write to the host's own memory between commands (20_memory.md R76), the reset input
(70_reset_and_hazards.md R340). -/
inductive HostAction where
  /-- A host write of `width` at byte offset `offset` of the window. -/
  | write (offset : Byte) (width : Width) (value : Word64)
  /-- A host read of `width` at byte offset `offset` of the window. -/
  | read (offset : Byte) (width : Width)
  /-- The host stores one byte of `MEM`. -/
  | storeMem (addr : Nat) (value : Byte)
  /-- The reset input is asserted. -/
  | reset
  deriving DecidableEq, Repr

/-- The machine: the architectural state `S` (R22), its two parameters (configuration and `MEM`), and the
model's own fields for the host's side of a run. -/
structure State where
  /-- The configuration (R10, R11, R22): no step changes it. -/
  cfg : Config
  /-- `STATUS` (R26). -/
  status : Status
  /-- `ARG0` (R23). -/
  arg0 : Word64
  /-- `ARG1` (R23). -/
  arg1 : Word64
  /-- `RES0` (R23). -/
  res0 : Word64
  /-- `RES1` (R23). -/
  res1 : Word64
  /-- The BitStream writer (R32). -/
  w : Writer
  /-- The BitStream reader (R34). -/
  r : Reader
  /-- The release log (R31), oldest record first. -/
  released : List Release
  /-- The Huffman scratch (R37 to R40): it lives only for the duration of an encode command. -/
  h : Option HufScratch
  /-- The LZW scratch (R41, R42): same lifetime. -/
  z : Option LzwScratch
  /-- The Rice scratch (R43): same lifetime. -/
  c : Option RiceScratch
  /-- The host memory `MEM` (R60). -/
  mem : Memory
  /-- MODEL'S OWN: what the host will do, first action first (log entry 5). -/
  pending : List HostAction
  /-- MODEL'S OWN: the value the host's last register read returned. -/
  readData : Word64
  /-- MODEL'S OWN: records handed over before a reset, on the host's side of the run (R342). -/
  delivered : List Release
  /-- MODEL'S OWN: how many free values have been drawn (log entry 1). -/
  draws : Nat
  deriving DecidableEq, Repr

/-- The reasons a step stops the MODEL (a latched fatal error of the core is no stop: it is a next state). -/
inductive Fault where
  /-- An access to an address outside `MEM` (`addr ≥ 2^ADDR_BITS`, R60, R62): raised by `BSR.BIT` and `BSR.BITS`
  when the slice reaches past the end of `MEM`, which no reachable reader does (R71, R155), and by the step for
  a host store there. Safe: the model stops. -/
  | noSuchAddress (addr : Nat)
  /-- A host write to `ARG0` or `ARG1` while `STATUS.BUSY = 1`: raised by the step. "What a core does when this is
  broken is not defined by this spec and cannot arise" (R345). Safe: the model stops. -/
  | hostWriteWhileBusy
  deriving DecidableEq, Repr

/-- The reasons an instruction has no meaning in the model. -/
inductive Refusal where
  /-- An instruction the model gives no meaning: raised by an arm of `exec` only (no arm does). Safe. -/
  | notModelled (mnemonic : String)
  deriving DecidableEq, Repr

/-- A freshly constructed empty writer: `INIT_BYTES` zero bytes (R46, R137). -/
def Writer.fresh (c : Config) : Writer where
  wbuf := List.replicate c.initBytes 0
  bitsWritten := 0
  bytesAllocated := c.initBytes

/-- A reader over an empty slice (R46). -/
def Reader.empty : Reader where
  base := 0
  sizeInBits := 0
  bitsRead := 0

/-- `STATUS = 0` (R46). -/
def Status.reset : Status where
  busy := false
  fault := false
  argErr := false
  eos := false
  cause := .none

/-- The machine of configuration `c` right after power-on (R46, R340), `MEM` with nothing listed, no host action
pending. -/
def State.resetWith (c : Config) : State where
  cfg := c
  status := Status.reset
  arg0 := 0
  arg1 := 0
  res0 := 0
  res1 := 0
  w := Writer.fresh c
  r := Reader.empty
  released := []
  h := none
  z := none
  c := none
  mem := []
  pending := []
  readData := 0
  delivered := []
  draws := 0

/-- The machine right after reset in the default configuration of R10 and R11. -/
def State.reset : State := State.resetWith Config.default

end Sys2Proof.Machine
end

