-- ==== Sys2Proof/Machine/Operands.lean ====
section
/-! DEFINITION. Operand forms: bit order of values (20_memory.md R67 to R69), the arithmetic helpers of 00_scope.md
R15, and the operand checks of 20_memory.md R71 and 60_exceptions.md R303. -/

namespace Sys2Proof.Machine

/-- `ceil8(x) = (x + 7) div 8` (R15). -/
def ceil8 (x : Nat) : Nat := (x + 7) / 8

/-- `bitlen(0) = 0`, `bitlen(x) = floor(log2(x)) + 1` for `x ≥ 1` (R15). -/
def bitlen (x : Nat) : Nat := if x = 0 then 0 else Nat.log2 x + 1

/-- A count or an address put into a 64-bit register. -/
def word64 (n : Nat) : Word64 := BitVec.ofNat 64 n

/-- The bits `append_bits(v, n)` appends, in order: bit 0 of `v` first (R68, R133). -/
def lsbBits (v n : Nat) : List Bool := (List.range n).map v.testBit

/-- The `k` bits of a Rice remainder in the order they are appended: bit `k - 1` first (R69, R236). -/
def msbBits (v k : Nat) : List Bool := (lsbBits v k).reverse

/-- Stream position `p` of a byte array: bit `p mod 8` of byte `p div 8` (R14, R67). -/
def bitAt (bytes : List Byte) (p : Nat) : Bool := (bytes.getD (p / 8) 0).getLsbD (p % 8)

/-- The number of bytes of `MEM`, `2^ADDR_BITS` (R60). -/
def memBytes (c : Config) : Nat := 2 ^ c.addrBits

/-- The range check of an encoder command: `1 ≤ ARG1 < 2^LEN_BITS` and `ARG0 + ARG1 ≤ 2^ADDR_BITS`, in the natural
numbers (R71, R303). -/
def inputRangeOk (c : Config) (base size : Nat) : Bool :=
  decide (1 ≤ size) && decide (size < 2 ^ c.lenBits) && decide (base + size ≤ memBytes c)

/-- The range check of `BSR.OPEN`: `ARG0 < 2^ADDR_BITS` and `ARG0 + ceil8(ARG1) ≤ 2^ADDR_BITS` (R71, R303). -/
def sliceRangeOk (c : Config) (base sizeInBits : Nat) : Bool :=
  decide (base < memBytes c) && decide (base + ceil8 sizeInBits ≤ memBytes c)

end Sys2Proof.Machine
end

