-- ==== Sys2Proof/Machine/Flags.lean ====
section
/-! DEFINITION. The flags: the cause codes and the `STATUS` word (10_state.md R26, 60_exceptions.md R301), and what the
three ends of a command do to `STATUS` (R305, R306, R310). -/

namespace Sys2Proof.Machine

/-- The cause code of R301, the value of `STATUS.CAUSE`. -/
def Cause.code : Cause → Byte
  | .none => 0x00#8
  | .argIllegalCmd => 0x10#8
  | .argCount => 0x11#8
  | .argSize => 0x12#8
  | .argNotEmpty => 0x13#8
  | .argFaulted => 0x14#8
  | .capCodeLen => 0x20#8
  | .capNodePool => 0x21#8
  | .capAlloc => 0x22#8
  | .strUnexpectedEnd => 0x30#8
  | .strMalformed => 0x31#8
  | .strNoMatch => 0x32#8
  | .strOvershoot => 0x33#8

/-- The 32-bit `STATUS` word (R26): `BUSY` bit 0, `FAULT` bit 1, `ARGERR` bit 2, `EOS` bit 3, `CAUSE` bits 15:8, every
other bit zero. -/
def Status.word (st : Status) : Word32 :=
  BitVec.ofNat 32 (st.busy.toNat + st.fault.toNat * 2 + st.argErr.toNat * 4 + st.eos.toNat * 8
    + st.cause.code.toNat * 256)

/-- The flag part of `complete(r0, r1, eos)` (R305); the command's end clears `BUSY` (R26). -/
def Status.completed (st : Status) (eos : Bool) : Status :=
  { st with busy := false, argErr := false, eos := eos, cause := .none }

/-- The flag part of `return ArgErr(cause)` (R306): `ARGERR` set, a fault's cause never overwritten, `EOS` and
`FAULT` unchanged; the command's end clears `BUSY` (R26). -/
def Status.refused (st : Status) (cause : Cause) : Status :=
  { st with busy := false, argErr := true, cause := if st.fault then st.cause else cause }

/-- The flag part of `raise Fault(cause)` (R310); the command's end clears `BUSY` (R26). -/
def Status.faulted (st : Status) (cause : Cause) : Status :=
  { st with busy := false, fault := true, argErr := false, eos := false, cause := cause }

end Sys2Proof.Machine
end

