-- ==== Sys2Proof/Machine/Ops.lean ====
section
/-! DEFINITION. The named operations the command meanings share: `MEM`, the writer's and the reader's primitives, the
three ends of a command (complete, refuse, fault), and the operand checks every encoder command makes. -/

namespace Sys2Proof.Machine

/-! ### Host memory -/

/-- What an address of `MEM` that nothing has written reads as (log entry 3). -/
def memDefault : Byte := 0#8

/-- `MemRead(a, 1)` (R62). -/
def Memory.read (m : Memory) (a : Nat) : Byte :=
  match m with
  | [] => memDefault
  | (k, v) :: rest => if k = a then v else Memory.read rest a

/-- Put a cell in front, unless it holds what an unlisted address reads as. -/
def Memory.cell (a : Nat) (v : Byte) (m : Memory) : Memory :=
  if v = memDefault then m else (a, v) :: m

/-- The host stores a byte of `MEM` (R76). The core itself never does (R63). -/
def Memory.write (m : Memory) (a : Nat) (v : Byte) : Memory :=
  match m with
  | [] => Memory.cell a v []
  | (k, x) :: rest =>
    if a < k then Memory.cell a v ((k, x) :: rest)
    else if a = k then Memory.cell a v rest
    else (k, x) :: Memory.write rest a v

/-- The canonical form: addresses strictly rising, no cell equal to what an unlisted address reads as. -/
abbrev Memory.wf (m : Memory) : Prop :=
  m.Pairwise (fun x y => x.1 < y.1) ∧ ∀ x ∈ m, x.2 ≠ memDefault

/-- The input of an encoder: `input[i] := MemRead(base + i, 1)` for `i` in `0 .. size` (R165, R70). -/
def Memory.bytes (m : Memory) (base size : Nat) : List Byte :=
  (List.range size).map (fun i => Memory.read m (base + i))

/-- `MEM` holding `bytes` at `base` and nothing else. -/
def Memory.ofBytes (base : Nat) (bytes : List Byte) : Memory :=
  match bytes with
  | [] => []
  | v :: rest => Memory.cell base v (Memory.ofBytes (base + 1) rest)

/-! ### The writer primitives (40_bitstream_writer.md) -/

/-- How an append ends: done, or stopped by `raise Fault(CAP_ALLOC)` with the writer as it then is (R132). -/
inductive Append where
  | done (w : Writer)
  | full (w : Writer)
  deriving DecidableEq, Repr

/-- The writer an append left, however it ended. -/
def Append.writer : Append → Writer
  | .done w => w
  | .full w => w

/-- The effective growth factor `g_eff = max(2, GRANULARITY)` (R10, R132). -/
def growthFactor (c : Config) : Nat := max 2 c.granularity

/-- `grow()` (R132): past `BUF_MAX_BYTES` it faults and changes nothing. -/
def Writer.grow (c : Config) (w : Writer) : Append :=
  if c.bufMaxBytes < w.bytesAllocated * growthFactor c then .full w
  else .done { w with
    wbuf := w.wbuf ++ List.replicate (w.bytesAllocated * growthFactor c - w.bytesAllocated) 0
    bytesAllocated := w.bytesAllocated * growthFactor c }

/-- The first half of `append_bit(b)` (R131): OR the bit into its byte and count it. -/
def Writer.putBit (b : Bool) (w : Writer) : Writer :=
  { w with
    wbuf := w.wbuf.modify (w.bitsWritten / 8)
      (fun byte => byte ||| BitVec.ofNat 8 (b.toNat <<< (w.bitsWritten % 8)))
    bitsWritten := w.bitsWritten + 1 }

/-- `append_bit(b)` (R131): growth is eager, in the append that fills the buffer (R132). -/
def Writer.appendBit (c : Config) (b : Bool) (w : Writer) : Append :=
  if (w.putBit b).bitsWritten = 8 * (w.putBit b).bytesAllocated then (w.putBit b).grow c
  else .done (w.putBit b)

/-- A sequence of `append_bit` calls; the first fault stops it (R133, R310). -/
def Writer.appendBits (c : Config) (bits : List Bool) (w : Writer) : Append :=
  match bits with
  | [] => .done w
  | b :: rest =>
    match w.appendBit c b with
    | .done w' => w'.appendBits c rest
    | .full w' => .full w'

/-! ### The reader primitives (41_bitstream_reader.md) -/

/-- Bit `p` of the slice: bit `p mod 8` of `MEM(base + p div 8)` (R70, R152). -/
def Reader.bitOf (m : Memory) (r : Reader) (p : Nat) : Bool :=
  (Memory.read m (r.base + p / 8)).getLsbD (p % 8)

/-- `read_bit()` (R152): `none` at the end of the slice. -/
def Reader.readBit (m : Memory) (r : Reader) : Option (Bool × Reader) :=
  if r.bitsRead < r.sizeInBits then
    some (r.bitOf m r.bitsRead, { r with bitsRead := r.bitsRead + 1 })
  else none

/-- The loop of `read_bits(n)` (R154) from pass `i` with the value `v` so far; `none` when the slice ends first, the
available bits consumed. -/
def Reader.readBitsFrom (m : Memory) (n i : Nat) (v : Word64) (r : Reader) : Option Word64 × Reader :=
  match n with
  | 0 => (some v, r)
  | n' + 1 =>
    match r.readBit m with
    | some (b, r') => r'.readBitsFrom m n' (i + 1) (v ||| (BitVec.ofNat 64 b.toNat <<< i))
    | none => (none, r)

/-- `read_bits(n)` (R154). -/
def Reader.readBits (m : Memory) (n : Nat) (r : Reader) : Option Word64 × Reader :=
  r.readBitsFrom m n 0 0

/-- The address of the last byte that reading up to `n` more bits touches, if it touches any; addresses ascend (R70),
so a read leaves `MEM` exactly when this one lies outside it. -/
def Reader.lastByte (n : Nat) (r : Reader) : Option Nat :=
  if r.bitsRead < r.sizeInBits ∧ 0 < n then
    some (r.base + (min (r.bitsRead + n) r.sizeInBits - 1) / 8)
  else none

/-! ### The three ends of a command (60_exceptions.md) -/

/-- `complete(r0, r1, eos)` (R305). -/
def State.complete (r0 r1 : Word64) (eos : Bool) (s : State) : State :=
  { s with res0 := r0, res1 := r1, status := s.status.completed eos }

/-- `return ArgErr(cause)` (R306). -/
def State.refuse (cause : Cause) (s : State) : State :=
  { s with res0 := ones64, res1 := 0, status := s.status.refused cause }

/-- `raise Fault(cause)` (R310), TAKING AN EXCEPTION: the fault latch, the cause and the partial results `r0`, `r1`
of R311. It saves nothing else and transfers control nowhere (R317); only reset returns from it (R318). -/
def State.raise (cause : Cause) (r0 r1 : Word64) (s : State) : State :=
  { s with res0 := r0, res1 := r1, status := s.status.faulted cause }

/-- The two counts every writer and encoder command reports, at its end (R130) and at a fault (R311). -/
def State.completeCounts (s : State) : State :=
  s.complete (word64 (ceil8 s.w.bitsWritten)) (word64 s.w.bitsWritten) false

/-- `raise Fault(cause)` inside a writer or encoder command (R310, R311). -/
def State.raiseCounts (cause : Cause) (s : State) : State :=
  s.raise cause (word64 (ceil8 s.w.bitsWritten)) (word64 s.w.bitsWritten)

/-- `raise Fault(STR_UNEXPECTED_END)` inside `BSR.BITS` (R311): `RES0` is the next free value, `RES1` the bits read. -/
def State.raiseUnexpectedEnd (s : State) : State :=
  { s.raise .strUnexpectedEnd (Config.freeRes0 s.draws) (word64 s.r.bitsRead) with draws := s.draws + 1 }

/-- The first test of the decode order (R99 (1), R312): a faulted core refuses every command with `ARG_FAULTED`. -/
def State.unlessFaulted (s : State) (o : Host.Outcome State Fault Refusal) : Host.Outcome State Fault Refusal :=
  if s.status.fault then .next (s.refuse .argFaulted) else o

/-- Append `bits` to the writer and end the command: `complete` with the counts, or `CAP_ALLOC` with the counts at the
moment of the fault (R130, R132, R311). -/
def State.appendAndEnd (bits : List Bool) (s : State) : State :=
  match s.w.appendBits s.cfg bits with
  | .done w => ({ s with w := w } : State).completeCounts
  | .full w => ({ s with w := w } : State).raiseCounts .capAlloc

/-- The checks of an encoder command, `ARG_SIZE` before `ARG_NOT_EMPTY` (R304), then its input (R165, R200, R230). -/
def State.encodeInput (s : State) (body : List Byte → State) : State :=
  if inputRangeOk s.cfg s.arg0.toNat s.arg1.toNat = false then s.refuse .argSize
  else if s.w.bitsWritten ≠ 0 then s.refuse .argNotEmpty
  else body (Memory.bytes s.mem s.arg0.toNat s.arg1.toNat)

/-- Run a reader command that reads up to `n` bits, unless the slice leaves `MEM` (the model's `noSuchAddress`; no
slice `BSR.OPEN` accepts does, R155). -/
def State.withSlice (n : Nat) (s : State) (t : State) : Host.Outcome State Fault Refusal :=
  match s.r.lastByte n with
  | some a => if a < memBytes s.cfg then .next t else .fault (.noSuchAddress a)
  | none => .next t

/-- The reset input (R340, R341): the core's state takes its reset values; the configuration and `MEM` are not
state; the records handed over stay on the host's side (R342). -/
def State.resetCore (s : State) : State :=
  { State.resetWith s.cfg with
    mem := s.mem
    pending := s.pending
    readData := s.readData
    delivered := s.delivered ++ s.released
    draws := s.draws }

/-- The error line `irq_err`, "equal to `STATUS.FAULT` at all times" (R313). -/
def State.irqErr (s : State) : Bool := s.status.fault

end Sys2Proof.Machine
end

