-- ==== Sys2Proof/Machine/Huffman.lean ====
section
/-! DEFINITION. The Huffman encoder (42_huffman_encoder.md): frequency sorter, tree builder, code generator, symbol
encoder, over the scratch `S.h`. -/

namespace Sys2Proof.Machine

/-- "tagged as leaf or inner", fixed by the index (R37). -/
def nodeIsLeaf (i : Nat) : Bool := decide (i < hufLeaves)

/-- A leaf's `value` is its index (R37, R166). -/
def leafValue (i : Nat) : Byte := BitVec.ofNat 8 i

/-- The empty code `(0, 0)` (R36). -/
def HuffmanCode.empty : HuffmanCode := ⟨0, 0⟩

/-- Append one bit to a code of length below 64 (R36). -/
def HuffmanCode.append (c : HuffmanCode) (b : Bool) : HuffmanCode :=
  ⟨c.bits ||| (BitVec.ofNat 64 b.toNat <<< c.length), c.length + 1⟩

/-- The bits `append_code(c)` appends (R107, R135). -/
def HuffmanCode.stream (c : HuffmanCode) : List Bool := lsbBits c.bits.toNat c.length

/-- A node as phase INIT leaves it (R166). -/
def HufNode.absent : HufNode := ⟨false, 0, none, none, HuffmanCode.empty⟩

/-- `pool[i]`. -/
def poolAt (pool : List HufNode) (i : Nat) : HufNode := pool.getD i HufNode.absent

/-- Phase INIT (R166). DESIGN CHOICE (log entry 13): R166 gives `S.h.L` no value and R39 lets it be 1 to 7; the model puts 0
there, which nothing reads before R178 writes it. -/
def hufInit : HufScratch :=
  ⟨List.replicate hufPool HufNode.absent, [], 0, none, 0, 0⟩

/-- The number of occurrences of byte `i` in the input, the final `frequency` of leaf `i` (R167). -/
def hufCountOf (input : List Byte) (i : Nat) : Nat := input.count (leafValue i)

/-- Phase COUNT (R167): "leaf `i` has `value = i`, `frequency = count(i)`, marked valid iff `count > 0`". -/
def hufCount (input : List Byte) (h : HufScratch) : HufScratch :=
  { h with pool := (List.range hufPool).map (fun i =>
      if nodeIsLeaf i then
        { poolAt h.pool i with
          frequency := hufCountOf input i, valid := decide (0 < hufCountOf input i) }
      else poolAt h.pool i) }

/-- Phase SORT (R169): the queue of all valid leaves. -/
def hufSort (h : HufScratch) : HufScratch :=
  { h with queue := (List.range hufLeaves).filter (fun i => (poolAt h.pool i).valid) }

/-- The extraction order (R170): `(frequency, index)` lexicographically. -/
def hufBefore (pool : List HufNode) (i j : Nat) : Bool :=
  decide ((poolAt pool i).frequency < (poolAt pool j).frequency) ||
    (decide ((poolAt pool i).frequency = (poolAt pool j).frequency) && decide (i < j))

/-- The element `extract_min()` returns (R170). -/
def hufMin (pool : List HufNode) (queue : List Nat) : Option Nat :=
  match queue with
  | [] => none
  | i :: rest =>
    match hufMin pool rest with
    | none => some i
    | some j => if hufBefore pool i j then some i else some j

/-- `extract_min()` (R170): the element and the queue without it. -/
def hufExtract (pool : List HufNode) (queue : List Nat) : Option (Nat × List Nat) :=
  (hufMin pool queue).map (fun i => (i, queue.erase i))

/-- The inner node the tree builder makes of `a` (left) and `b` (right) (R171). -/
def hufJoin (pool : List HufNode) (a b : Nat) : HufNode :=
  ⟨true, (poolAt pool a).frequency + (poolAt pool b).frequency, some a, some b, HuffmanCode.empty⟩

/-- One pass of the loop of phase BUILD (R171), with the check of R173. -/
def hufMerge (h : HufScratch) : Except Cause HufScratch :=
  match hufExtract h.pool h.queue with
  | none => .ok h
  | some (a, q1) =>
    match hufExtract h.pool q1 with
    | none => .ok h
    | some (b, q2) =>
      if h.innerCount = hufInnerSlots then .error .capNodePool
      else .ok { h with
        pool := h.pool.set (hufLeaves + h.innerCount) (hufJoin h.pool a b)
        innerCount := h.innerCount + 1
        queue := q2 ++ [hufLeaves + h.innerCount] }

/-- The loop of phase BUILD, at most `n` passes: each pass makes the queue one shorter (R173), so as many passes as
the queue is long are enough. -/
def hufMerges (n : Nat) (h : HufScratch) : Except Cause HufScratch :=
  match n with
  | 0 => .ok h
  | n' + 1 =>
    if 1 < h.queue.length then
      match hufMerge h with
      | .ok h' => hufMerges n' h'
      | .error c => .error c
    else .ok h

/-- Phase BUILD (R171): "The root is the final element." -/
def hufBuild (h : HufScratch) : Except Cause HufScratch :=
  match hufMerges h.queue.length h with
  | .ok h' => .ok { h' with root := h'.queue.head? }
  | .error c => .error c

/-- `assign(n, parent_code, bit)` (R175). `room` is `64 - parent_code.length`: it is 0 exactly when the node would
get a 65-bit code (R176). -/
def hufAssignNode (room : Nat) (pool : List HufNode) (n : Nat) (parent : HuffmanCode) (bit : Bool) :
    Except Cause (List HufNode) :=
  match room with
  | 0 => .error .capCodeLen
  | room' + 1 =>
    let code := parent.append bit
    let pool1 := pool.modify n (fun nd => { nd with code := code })
    if nodeIsLeaf n then .ok pool1
    else
      match (poolAt pool n).left, (poolAt pool n).right with
      | some l, some r =>
        match hufAssignNode room' pool1 l code false with
        | .ok pool2 => hufAssignNode room' pool2 r code true
        | .error c => .error c
      | _, _ => .ok pool1

/-- The code lengths of the valid leaves (R175). -/
def hufLengths (pool : List HufNode) : List Nat :=
  ((List.range hufLeaves).filter (fun i => (poolAt pool i).valid)).map
    (fun i => (poolAt pool i).code.length)

/-- Phase ASSIGN (R175): the root is treated as the left child of an empty-coded parent. -/
def hufAssign (h : HufScratch) : Except Cause HufScratch :=
  match h.root with
  | none => .ok h
  | some n =>
    match hufAssignNode maxCodeLen h.pool n HuffmanCode.empty false with
    | .ok pool => .ok { h with pool := pool, maxLen := (hufLengths pool).foldl max 0 }
    | .error c => .error c

/-- `L <- bitlen(max_len)` (R178). -/
def hufFieldWidth (h : HufScratch) : HufScratch := { h with fieldWidth := bitlen h.maxLen }

/-- Phases INIT to ASSIGN, in order (R165): nothing is appended before they have ended. -/
def hufTables (input : List Byte) : Except Cause HufScratch :=
  match hufBuild (hufSort (hufCount input hufInit)) with
  | .ok h =>
    match hufAssign h with
    | .ok h' => .ok (hufFieldWidth h')
    | .error c => .error c
  | .error c => .error c

/-- The header entry of one symbol (R111, R179): `l_s` in `L` bits, then the code. -/
def hufEntry (h : HufScratch) (i : Nat) : List Bool :=
  lsbBits (poolAt h.pool i).code.length h.fieldWidth ++ (poolAt h.pool i).code.stream

/-- Phase HEADER (R179): `N`, `L`, 256 entries. -/
def hufHeader (h : HufScratch) : List Bool :=
  lsbBits hufNField hufHdrFieldBits ++ lsbBits h.fieldWidth hufHdrFieldBits ++
    (List.range hufLeaves).flatMap (hufEntry h)

/-- Phase PAD (R112, R180) after `n` bits: the writer was empty (R165), so `n` is `bits_written`. -/
def hufPad (n : Nat) : List Bool := List.replicate ((8 - n % 8) % 8) false

/-- Phase PAYLOAD (R113, R181). -/
def hufPayload (h : HufScratch) (input : List Byte) : List Bool :=
  input.flatMap (fun v => (poolAt h.pool v.toNat).code.stream)

/-- The Huffman stream (R108). -/
def hufStream (h : HufScratch) (input : List Byte) : List Bool :=
  hufHeader h ++ hufPad (hufHeader h).length ++ hufPayload h input

/-- "Huffman node pools live only for the duration of an encode call" (R40; log entry 2). -/
def State.dropHuf (s : State) : State := { s with h := none }

/-- The phases of `HUF.ENC` (R165): a fault of the tables comes before any bit is appended (R176). -/
def State.hufRun (s : State) (input : List Byte) : State :=
  match hufTables input with
  | .ok h => ({ s with h := some h } : State).appendAndEnd (hufStream h input)
  | .error c => s.raiseCounts c

/-- `HUF.ENC base, size` (R165). -/
def execHufEnc (s : State) : Host.Outcome State Fault Refusal :=
  s.unlessFaulted (.next (s.encodeInput (fun input => (s.hufRun input).dropHuf)))

end Sys2Proof.Machine
end

