-- ==== Sys2Proof/Machine/Lzw.lean ====
section
/-! DEFINITION. The LZW encoder (43_lzw_encoder.md): dictionary lookup, code-width manager, packet encoder, over the
scratch `S.z`. -/

namespace Sys2Proof.Machine

/-- One emitted code with the width current at that moment (R206, R115). -/
structure LzwEmission where
  code : Nat
  width : Nat
  deriving DecidableEq, Repr

/-- `append_bits(code, width)` (R206). -/
def LzwEmission.stream (e : LzwEmission) : List Bool := lsbBits e.code e.width

/-- `init()` (R201). -/
def lzwInit : LzwScratch := ⟨[], lzwFirstCode, lzwStartBits, none⟩

/-- `find(w, c)` (R202); entry `e` of the dictionary is element `e - 256` of `dict`. -/
def lzwFind (z : LzwScratch) (c : Byte) : Option Nat :=
  match z.w with
  | none => some c.toNat
  | some w => (z.dict.findIdx? (fun e => decide (e = ⟨w, c⟩))).map (fun i => lzwFirstCode + i)

/-- `width_step()` (R207). -/
def lzwWidthStep (z : LzwScratch) : LzwScratch :=
  if z.nextCode = 2 ^ z.width ∧ z.width < lzwMaxBits then { z with width := z.width + 1 } else z

/-- `add(w, c)` (R205). -/
def lzwAdd (w : Nat) (c : Byte) (z : LzwScratch) : LzwScratch :=
  lzwWidthStep { z with dict := z.dict ++ [⟨w, c⟩], nextCode := z.nextCode + 1 }

/-- `reset_dict()` (R208). -/
def lzwResetDict (z : LzwScratch) : LzwScratch :=
  { z with dict := [], nextCode := lzwFirstCode, width := lzwStartBits }

/-- After an emission: the reset takes the place of the insertion when the dictionary is full (R200, R208). -/
def lzwInsert (w : Nat) (c : Byte) (z : LzwScratch) : LzwScratch :=
  if z.nextCode = lzwMaxEntries then lzwResetDict z else lzwAdd w c z

/-- `emit(w)` (R206); `w` is never `NIL` where the command emits. -/
def lzwEmit (z : LzwScratch) : List LzwEmission :=
  match z.w with
  | some w => [⟨w, z.width⟩]
  | none => []

/-- One pass of the loop of R200 over the input byte `c`: what it emits and the scratch after it. -/
def lzwByte (c : Byte) (z : LzwScratch) : List LzwEmission × LzwScratch :=
  match lzwFind z c with
  | some e => ([], { z with w := some e })
  | none => (lzwEmit z, { lzwInsert (z.w.getD 0) c z with w := some c.toNat })

/-- The loop of R200 over the input, in order. -/
def lzwBytes (input : List Byte) (z : LzwScratch) : List LzwEmission × LzwScratch :=
  match input with
  | [] => ([], z)
  | c :: rest =>
    let first := lzwByte c z
    let later := lzwBytes rest first.2
    (first.1 ++ later.1, later.2)

/-- All codes of the stream: those of the loop, then "the code for the final `w`" (R200, R209). -/
def lzwEmissions (input : List Byte) : List LzwEmission :=
  (lzwBytes input lzwInit).1 ++ lzwEmit (lzwBytes input lzwInit).2

/-- The LZW stream (R115). -/
def lzwStream (input : List Byte) : List Bool := (lzwEmissions input).flatMap LzwEmission.stream

/-- `S.z` has the lifetime of `S.h` (R42; log entry 2). -/
def State.dropLzw (s : State) : State := { s with z := none }

/-- The run of `LZW.ENC` on its input (R200). -/
def State.lzwRun (s : State) (input : List Byte) : State :=
  ({ s with z := some (lzwBytes input lzwInit).2 } : State).appendAndEnd (lzwStream input)

/-- `LZW.ENC base, size` (R200). -/
def execLzwEnc (s : State) : Host.Outcome State Fault Refusal :=
  s.unlessFaulted (.next (s.encodeInput (fun input => (s.lzwRun input).dropLzw)))

end Sys2Proof.Machine
end

