-- ==== Sys2Proof/Machine/Reader.lean ====
section
/-! DEFINITION. The BitStream reader commands (41_bitstream_reader.md). -/

namespace Sys2Proof.Machine

/-- `BSR.OPEN base, size_in_bits` (R150). -/
def execBsrOpen (s : State) : Host.Outcome State Fault Refusal :=
  s.unlessFaulted (.next
    (if sliceRangeOk s.cfg s.arg0.toNat s.arg1.toNat = false then s.refuse .argSize
     else ({ s with r := ⟨s.arg0.toNat, s.arg1.toNat, 0⟩ } : State).complete 0 0 false))

/-- The end of `BSR.BIT` (R152): the bit, or `EOS` at the end of the slice. -/
def State.readBitEnd (s : State) : State :=
  match s.r.readBit s.mem with
  | some (b, r) => ({ s with r := r } : State).complete (word64 b.toNat) (word64 r.bitsRead) false
  | none => s.complete 0 (word64 s.r.bitsRead) true

/-- `BSR.BIT` (R152). -/
def execBsrBit (s : State) : Host.Outcome State Fault Refusal :=
  s.unlessFaulted (s.withSlice 1 s.readBitEnd)

/-- The end of `BSR.BITS n` (R154): the value, or the fault `STR_UNEXPECTED_END` with the available bits consumed. -/
def State.readBitsEnd (n : Nat) (s : State) : State :=
  match s.r.readBits s.mem n with
  | (some v, r) => ({ s with r := r } : State).complete v (word64 r.bitsRead) false
  | (none, r) => ({ s with r := r } : State).raiseUnexpectedEnd

/-- `BSR.BITS n` (R154). -/
def execBsrBits (n : Nat) (s : State) : Host.Outcome State Fault Refusal :=
  s.unlessFaulted
    (if maxBitsPerOp < n then .next (s.refuse .argCount) else s.withSlice n (s.readBitsEnd n))

end Sys2Proof.Machine
end

