-- ==== Sys2Proof/Machine/Rice.lean ====
section
/-! DEFINITION. The Rice encoder (44_rice_encoder.md): parameter search and unary-quotient plus k-bit-remainder coder,
over the scratch `S.c`. -/

namespace Sys2Proof.Machine

/-- "Code length for one byte: `q + 1 + k` bits" (R232). -/
def riceCost (k : Nat) (v : Byte) : Nat := v.toNat / 2 ^ k + 1 + k

/-- `tot[k]` after the first half of phase SEARCH (R231, R232). -/
def riceTotal (input : List Byte) (k : Nat) : Nat := (input.map (riceCost k)).sum

/-- The nine totals (R232). -/
def riceTotals (input : List Byte) : List Nat := (List.range (riceKMax + 1)).map (riceTotal input)

/-- The second half of phase SEARCH (R234): "the smallest `k'` in `0..=8` such that `tot[k'] ≤ tot[j]` for every `j`
in `0..=8`". -/
def riceSelect (tot : List Nat) : Nat :=
  ((List.range (riceKMax + 1)).find? (fun k =>
    (List.range (riceKMax + 1)).all (fun j => decide (tot.getD k 0 ≤ tot.getD j 0)))).getD 0

/-- Phases INIT and SEARCH (R231, R232, R234). -/
def riceSearch (input : List Byte) : RiceScratch :=
  ⟨riceTotals input, riceSelect (riceTotals input)⟩

/-- The code of one byte (R118, R236): `q` ones, a zero, the `k` bits of `r` most significant first. -/
def riceCode (k : Nat) (v : Byte) : List Bool :=
  List.replicate (v.toNat / 2 ^ k) true ++ [false] ++ msbBits (v.toNat % 2 ^ k) k

/-- The Rice stream (R117): phase PREFIX (R235), then phase CODE (R236). -/
def riceStream (c : RiceScratch) (input : List Byte) : List Bool :=
  lsbBits c.k riceKFieldBits ++ input.flatMap (riceCode c.k)

/-- `S.c` has the lifetime of `S.h` (R43; log entry 2). -/
def State.dropRice (s : State) : State := { s with c := none }

/-- The phases of `RICE.ENC` on its input (R230). -/
def State.riceRun (s : State) (input : List Byte) : State :=
  ({ s with c := some (riceSearch input) } : State).appendAndEnd (riceStream (riceSearch input) input)

/-- `RICE.ENC base, size` (R230). -/
def execRiceEnc (s : State) : Host.Outcome State Fault Refusal :=
  s.unlessFaulted (.next (s.encodeInput (fun input => (s.riceRun input).dropRice)))

end Sys2Proof.Machine
end

