-- ==== Sys2Proof/Machine/Writer.lean ====
section
/-! DEFINITION. The BitStream writer commands (40_bitstream_writer.md). -/

namespace Sys2Proof.Machine

/-- `BSW.BIT b` (R131). -/
def execBswBit (b : Bool) (s : State) : Host.Outcome State Fault Refusal :=
  s.unlessFaulted (.next (s.appendAndEnd [b]))

/-- `BSW.BITS value, n` (R133): `ARG0` is the value; `n > 64` is refused with `ARG_COUNT`. -/
def execBswBits (n : Nat) (s : State) : Host.Outcome State Fault Refusal :=
  s.unlessFaulted (.next
    (if maxBitsPerOp < n then s.refuse .argCount else s.appendAndEnd (lsbBits s.arg0.toNat n)))

/-- `BSW.CODE bits, length` (R135): `ARG1` is the length, taken whole (R98). -/
def execBswCode (s : State) : Host.Outcome State Fault Refusal :=
  s.unlessFaulted (.next
    (if maxCodeLen < s.arg1.toNat then s.refuse .argCount
     else s.appendAndEnd (lsbBits s.arg0.toNat s.arg1.toNat)))

/-- `release()` (R137): log the buffer, start a fresh writer, report the counts of the released buffer. -/
def State.releaseEnd (s : State) : State :=
  ({ s with
      released := s.released ++ [⟨s.w.wbuf, s.w.bytesAllocated, s.w.bitsWritten⟩]
      w := Writer.fresh s.cfg } : State).complete
    (word64 (ceil8 s.w.bitsWritten)) (word64 s.w.bitsWritten) false

/-- `BSW.REL` (R137). -/
def execBswRel (s : State) : Host.Outcome State Fault Refusal :=
  s.unlessFaulted (.next s.releaseEnd)

/-- `BSW.CNT` (R139). -/
def execBswCnt (s : State) : Host.Outcome State Fault Refusal :=
  s.unlessFaulted (.next s.completeCounts)

end Sys2Proof.Machine
end

