-- ==== Sys2Proof/Machine/Dispatch.lean ====
section
/-! DEFINITION. The dispatch of a decoded command to its meaning (30_encoding.md R100). -/

namespace Sys2Proof.Machine

/-- The meaning of each command of R100. -/
def exec (i : Instr) (s : State) : Host.Outcome State Fault Refusal :=
  match i with
  | .bswBit b => Sys2Proof.Machine.execBswBit b s
  | .bswBits n => Sys2Proof.Machine.execBswBits n s
  | .bswCode => Sys2Proof.Machine.execBswCode s
  | .bswRel => Sys2Proof.Machine.execBswRel s
  | .bswCnt => Sys2Proof.Machine.execBswCnt s
  | .bsrOpen => Sys2Proof.Machine.execBsrOpen s
  | .bsrBit => Sys2Proof.Machine.execBsrBit s
  | .bsrBits n => Sys2Proof.Machine.execBsrBits n s
  | .hufEnc => Sys2Proof.Machine.execHufEnc s
  | .lzwEnc => Sys2Proof.Machine.execLzwEnc s
  | .riceEnc => Sys2Proof.Machine.execRiceEnc s

end Sys2Proof.Machine
end

