-- ==== Sys2Proof/Machine/HostBus.lean ====
section
/-! DEFINITION. The host's side of the core: the register window (10_state.md R27), issuing a command (R30, 30_encoding.md
R99), and one host action (70_reset_and_hazards.md R345, R351). The core holds no program and fetches nothing (R25): what a
program counter does elsewhere, the host's next action does here. -/

namespace Sys2Proof.Machine

/-- `CFG_GRAN` (R27): the raw `GRANULARITY`; of one that does not fit 64 bits the spec does not say what it reads as (log
entry 8). -/
def granularityWord (c : Config) : Word64 :=
  if c.granularity < 2 ^ 64 then word64 c.granularity else Config.freeGranularity c.granularity

/-- A host read of the register window (R27): a register read whole, at its own width and offset, gives its value;
"any other access … returns zero on read". No read has a side effect. -/
def State.readWindow (s : State) (offset : Byte) (width : Width) : Word64 :=
  match offset.toNat, width with
  | 0x04, .w32 => s.status.word.setWidth 64
  | 0x08, .w64 => s.arg0
  | 0x10, .w64 => s.arg1
  | 0x18, .w64 => s.res0
  | 0x20, .w64 => s.res1
  | 0x28, .w64 => word64 s.w.bitsWritten
  | 0x30, .w64 => word64 s.w.bytesAllocated
  | 0x38, .w64 => word64 s.r.base
  | 0x40, .w64 => word64 s.r.sizeInBits
  | 0x48, .w64 => word64 s.r.bitsRead
  | 0x50, .w64 => word64 s.cfg.initBytes
  | 0x58, .w64 => granularityWord s.cfg
  | 0x60, .w64 => idConstant
  | _, _ => 0

/-- A written command word is judged (R99): faulted, then illegal, then the command itself. `s` is the state with the
command started (`State.started`). -/
def State.runWord (s : State) (w : Word32) : Host.Outcome State Fault Refusal :=
  match decode w with
  | .ok i => exec i s
  | .error _ => s.unlessFaulted (.next (s.refuse .argIllegalCmd))

/-- The start of a command: the host's action is taken and `BUSY` is set (R26). -/
def State.started (s : State) (rest : List HostAction) : State :=
  { s with pending := rest, status := { s.status with busy := true } }

/-- A host write of `CMD` (R24): it issues the command; while `BUSY = 1` the write is stalled (it stays pending). -/
def State.writeCmd (s : State) (rest : List HostAction) (w : Word32) : Host.Outcome State Fault Refusal :=
  if s.status.busy then .next s else (s.started rest).runWord w

/-- A host write of `ARG0` or `ARG1`: `t` is the state with the register written. Not while `BUSY = 1` (R345). -/
def State.writeArg (s t : State) : Host.Outcome State Fault Refusal :=
  if s.status.busy then .fault .hostWriteWhileBusy else .next t

/-- A host write of the register window (R27, R28): `CMD`, `ARG0` and `ARG1` only, whole, at their own width; every
other write is ignored. -/
def State.writeWindow (s : State) (rest : List HostAction) (offset : Byte) (width : Width) (v : Word64) :
    Host.Outcome State Fault Refusal :=
  match offset.toNat, width with
  | 0x00, .w32 => s.writeCmd rest (v.setWidth 32)
  | 0x08, .w64 => s.writeArg { s with pending := rest, arg0 := v }
  | 0x10, .w64 => s.writeArg { s with pending := rest, arg1 := v }
  | _, _ => .next { s with pending := rest }

/-- A host store of one byte of `MEM` (R60, R76). -/
def State.hostStore (s : State) (rest : List HostAction) (a : Nat) (v : Byte) : Host.Outcome State Fault Refusal :=
  if a < memBytes s.cfg then .next { s with pending := rest, mem := Memory.write s.mem a v }
  else .fault (.noSuchAddress a)

/-- One host action, the actions `rest` still to come. -/
def State.takeAction (s : State) (a : HostAction) (rest : List HostAction) : Host.Outcome State Fault Refusal :=
  match a with
  | .write offset width v => s.writeWindow rest offset width v
  | .read offset width => .next { s with pending := rest, readData := s.readWindow offset width }
  | .storeMem addr v => s.hostStore rest addr v
  | .reset => .next ({ s with pending := rest } : State).resetCore

/-- One step: the host's next action; with none pending nothing changes ("with no command issued, `S` does not
change", R25). -/
def State.hostStep (s : State) : Host.Outcome State Fault Refusal :=
  match s.pending with
  | [] => .next s
  | a :: rest => s.takeAction a rest

/-- The host writes the command word `w` to `CMD` as its next action. -/
def State.withCommand (s : State) (w : Word32) : State :=
  { s with pending := .write 0x00#8 .w32 (w.setWidth 64) :: s.pending }

end Sys2Proof.Machine
end

