-- ==== Sys2Proof/Machine/Step.lean ====
section
/-! DEFINITION. One step of the machine: one host action, a whole command when it is a write of `CMD` (10_state.md R21,
R30; 70_reset_and_hazards.md R351). -/

namespace Sys2Proof.Machine

/-- One step (R21: "A model's step relation has one step per command"). -/
def step (s : State) : Host.Outcome State Fault Refusal := s.hostStep

/-- `s` with the command word whose low `nbits` bits are `w`'s written to `CMD` as the host's next action, so that the
very next step runs it (log entry 5). -/
def State.withFetchWord (s : State) (nbits w : Nat) : State :=
  s.withCommand (BitVec.ofNat 32 (w % 2 ^ nbits))

end Sys2Proof.Machine
end

