-- ==== Sys2Proof/Machine/Assembler.lean ====
section
/-! DEFINITION. Assembler lines and pseudo-commands as host actions (30_encoding.md R103, R104). -/

namespace Sys2Proof.Machine

/-- A host write of `ARG0`. -/
def writeArg0 (v : Word64) : HostAction := .write 0x08#8 .w64 v
/-- A host write of `ARG1`. -/
def writeArg1 (v : Word64) : HostAction := .write 0x10#8 .w64 v
/-- A host write of `CMD`. -/
def writeCommand (i : Instr) : HostAction := .write 0x00#8 .w32 ((encode i).setWidth 64)

/-- `BSW.BIT b` (R103). -/
def asmBswBit (b : Bool) : List HostAction := [writeCommand (.bswBit b)]
/-- `BSW.BITS value, n` (R103). -/
def asmBswBits (value : Word64) (n : Nat) : List HostAction := [writeArg0 value, writeCommand (.bswBits n)]
/-- `BSW.CODE bits, length` (R103). -/
def asmBswCode (bits length : Word64) : List HostAction :=
  [writeArg0 bits, writeArg1 length, writeCommand .bswCode]
/-- `BSW.REL` (R103). -/
def asmBswRel : List HostAction := [writeCommand .bswRel]
/-- `BSW.CNT` (R103). -/
def asmBswCnt : List HostAction := [writeCommand .bswCnt]
/-- `BSR.OPEN base, size_in_bits` (R103). -/
def asmBsrOpen (base sizeInBits : Word64) : List HostAction :=
  [writeArg0 base, writeArg1 sizeInBits, writeCommand .bsrOpen]
/-- `BSR.BIT` (R103). -/
def asmBsrBit : List HostAction := [writeCommand .bsrBit]
/-- `BSR.BITS n` (R103). -/
def asmBsrBits (n : Nat) : List HostAction := [writeCommand (.bsrBits n)]
/-- `HUF.ENC base, size` (R103). -/
def asmHufEnc (base size : Word64) : List HostAction := [writeArg0 base, writeArg1 size, writeCommand .hufEnc]
/-- `LZW.ENC base, size` (R103). -/
def asmLzwEnc (base size : Word64) : List HostAction := [writeArg0 base, writeArg1 size, writeCommand .lzwEnc]
/-- `RICE.ENC base, size` (R103). -/
def asmRiceEnc (base size : Word64) : List HostAction := [writeArg0 base, writeArg1 size, writeCommand .riceEnc]

/-- `EASY.HUF base, size` (R104). -/
def easyHuf (base size : Word64) : List HostAction := asmHufEnc base size ++ asmBswRel
/-- `EASY.LZW base, size` (R104). -/
def easyLzw (base size : Word64) : List HostAction := asmLzwEnc base size ++ asmBswRel
/-- `EASY.RICE base, size` (R104). -/
def easyRice (base size : Word64) : List HostAction := asmRiceEnc base size ++ asmBswRel

end Sys2Proof.Machine
end

