-- ==== Sys2Proof/Machine/RefDecoders.lean ====
section
/-! DEFINITION. The reference decoders (45_reference_decoders.md): pure functions outside the hardware block (00_scope.md
R5), over a private reader. No step calls them; the round-trip property R275 is stated with them. -/

namespace Sys2Proof.Machine

/-- The outcomes of R251. -/
inductive RefOutcome where
  | ok (out : List Byte)
  | truncated (out : List Byte)
  | argErr
  | fault (cause : Cause) (out : List Byte)
  deriving DecidableEq, Repr

/-- An outcome and how many bits the private reader had consumed. -/
structure RefResult where
  outcome : RefOutcome
  bitsRead : Nat
  deriving DecidableEq, Repr

/-- A part of a decoder: a value and the reader after it, or the fault it ends with. -/
inductive RefPart (α : Type) where
  | ok (value : α) (r : Reader)
  | bad (cause : Cause) (r : Reader)

/-- One part after another. -/
def RefPart.andThen {α β : Type} (p : RefPart α) (f : α → Reader → RefPart β) : RefPart β :=
  match p with
  | .ok v r => f v r
  | .bad c r => .bad c r

/-- The `argerr` conditions of R251, else the decoder on a private reader over `bytes` (R250). -/
def refDecode (bytes : List Byte) (bitCount cap : Nat) (body : Memory → Reader → RefResult) : RefResult :=
  if cap = 0 ∨ bytes = [] ∨ bytes.length < ceil8 bitCount then ⟨.argErr, 0⟩
  else body (Memory.ofBytes 0 bytes) ⟨0, bitCount, 0⟩

/-- `read_bits(n)`; running out is `STR_UNEXPECTED_END` (R253). -/
def refReadBits (m : Memory) (n : Nat) (r : Reader) : RefPart Word64 :=
  match r.readBits m n with
  | (some v, r') => .ok v r'
  | (none, r') => .bad .strUnexpectedEnd r'

/-! ### Huffman (R252 to R259) -/

/-- `count` header entries (R253). -/
def refHufEntries (m : Memory) (width count : Nat) (r : Reader) : RefPart (List HuffmanCode) :=
  match count with
  | 0 => .ok [] r
  | n + 1 =>
    (refReadBits m width r).andThen fun l r1 =>
      if maxCodeLen < l.toNat then .bad .strMalformed r1
      else (refReadBits m l.toNat r1).andThen fun bits r2 =>
        (refHufEntries m width n r2).andThen fun rest r3 => .ok (⟨bits, l.toNat⟩ :: rest) r3

/-- The header (R253) and the padding (R254). -/
def refHufHeader (m : Memory) (r : Reader) : RefPart (List HuffmanCode) :=
  (refReadBits m hufHdrFieldBits r).andThen fun n r1 =>
    if n.toNat ≠ hufNField then .bad .strMalformed r1
    else (refReadBits m hufHdrFieldBits r1).andThen fun l r2 =>
      if l.toNat < 1 ∨ 7 < l.toNat then .bad .strMalformed r2
      else (refHufEntries m l.toNat hufLeaves r2).andThen fun table r3 =>
        (refReadBits m ((8 - r3.bitsRead % 8) % 8) r3).andThen fun _ r4 => .ok table r4

/-- The lowest symbol whose code has positive length and equals the accumulator (R255, R256). -/
def refHufMatch (table : List HuffmanCode) (acc : HuffmanCode) : Option Byte :=
  (table.findIdx? (fun c => decide (0 < c.length) && decide (c = acc))).map (BitVec.ofNat 8)

/-- The end of the payload (R258). -/
def refHufEnd (cap : Nat) (out : List Byte) (r : Reader) : RefResult :=
  ⟨if out.length = cap ∧ r.bitsRead < r.sizeInBits then .truncated out else .ok out, r.bitsRead⟩

/-- The payload loop (R255, R257), at most `n` passes; each pass consumes a bit. -/
def refHufPayload (m : Memory) (table : List HuffmanCode) (cap n : Nat) (acc : HuffmanCode)
    (out : List Byte) (r : Reader) : RefResult :=
  match n with
  | 0 => refHufEnd cap out r
  | n' + 1 =>
    if cap ≤ out.length then refHufEnd cap out r
    else
      match r.readBit m with
      | none => refHufEnd cap out r
      | some (b, r') =>
        let acc' := acc.append b
        match refHufMatch table acc' with
        | some v => refHufPayload m table cap n' HuffmanCode.empty (out ++ [v]) r'
        | none =>
          if acc'.length = maxCodeLen then ⟨.fault .strNoMatch out, r'.bitsRead⟩
          else refHufPayload m table cap n' acc' out r'

/-- `huff_decode(bytes, bit_count, cap)` (R252). -/
def huffDecode (bytes : List Byte) (bitCount cap : Nat) : RefResult :=
  refDecode bytes bitCount cap fun m r =>
    match refHufHeader m r with
    | .ok table r' => refHufPayload m table cap (bitCount + 1) HuffmanCode.empty [] r'
    | .bad c r' => ⟨.fault c [], r'.bitsRead⟩

/-- The header alone (R259): the code table the stream describes. -/
def huffDecodeHeader (bytes : List Byte) (bitCount : Nat) : Option (List HuffmanCode) :=
  match refHufHeader (Memory.ofBytes 0 bytes) ⟨0, bitCount, 0⟩ with
  | .ok table _ => some table
  | .bad _ _ => none

/-! ### LZW (R260 to R266) -/

/-- `string(code)` (10_state.md R41), the walk along `prefix_code` bounded by `fuel`. -/
def lzwStringFrom (dict : List LzwEntry) (fuel code : Nat) : List Byte :=
  match fuel with
  | 0 => []
  | fuel' + 1 =>
    if code < lzwFirstCode then [BitVec.ofNat 8 code]
    else
      match dict[code - lzwFirstCode]? with
      | none => []
      | some e => lzwStringFrom dict fuel' e.prefixCode ++ [e.suffixByte]

/-- `string(code)` (R41): every defined entry's `prefix_code` is below the entry (R203), so a walk passes each of the
`dict.length` entries at most once. -/
def lzwString (dict : List LzwEntry) (code : Nat) : List Byte := lzwStringFrom dict (dict.length + 1) code

/-- `decode_string(code)` (R262, R263); `none` is `STR_MALFORMED`. The state is an `LzwScratch` whose `w` is `prev`
(R260). -/
def refLzwString (z : LzwScratch) (code : Nat) : Option (List Byte) :=
  match z.w with
  | none => if code < lzwFirstCode then some [BitVec.ofNat 8 code] else none
  | some prev =>
    if code < z.nextCode then some (lzwString z.dict code)
    else if code = z.nextCode then
      some (lzwString z.dict prev ++ [(lzwString z.dict prev).headD 0])
    else none

/-- After a decoded string: insertion, reset mirror, width step (R261, R264, R265). -/
def refLzwAfter (z : LzwScratch) (code : Nat) (first : Byte) : LzwScratch :=
  match z.w with
  | none => { z with w := some code }
  | some prev =>
    if z.nextCode + 1 = lzwMaxEntries then lzwInit
    else
      { z with
        dict := z.dict ++ [⟨prev, first⟩]
        nextCode := z.nextCode + 1
        width := if z.nextCode + 1 = 2 ^ z.width - 1 ∧ z.width < lzwMaxBits then z.width + 1 else z.width
        w := some code }

/-- The main loop (R261, R266), at most `n` passes; each pass consumes at least a bit. -/
def refLzwLoop (m : Memory) (cap n : Nat) (z : LzwScratch) (out : List Byte) (r : Reader) : RefResult :=
  match n with
  | 0 => ⟨.ok out, r.bitsRead⟩
  | n' + 1 =>
    if r.bitsRead < r.sizeInBits ∧ out.length < cap then
      if r.sizeInBits - r.bitsRead < z.width then ⟨.fault .strOvershoot out, r.bitsRead⟩
      else
        match refReadBits m z.width r with
        | .bad c r' => ⟨.fault c out, r'.bitsRead⟩
        | .ok code r' =>
          match refLzwString z code.toNat with
          | none => ⟨.fault .strMalformed out, r'.bitsRead⟩
          | some s =>
            refLzwLoop m cap n' (refLzwAfter z code.toNat (s.headD 0)) (out ++ s.take (cap - out.length)) r'
    else ⟨.ok out, r.bitsRead⟩

/-- `lzw_decode(bytes, bit_count, cap)` (R260). -/
def lzwDecode (bytes : List Byte) (bitCount cap : Nat) : RefResult :=
  refDecode bytes bitCount cap fun m r => refLzwLoop m cap (bitCount + 1) lzwInit [] r

/-! ### Rice (R270 to R274) -/

/-- The unary quotient (R272): `left` more ones are allowed before the quotient passes 255. -/
def refRiceUnary (m : Memory) (left q : Nat) (r : Reader) : RefPart Nat :=
  match left with
  | 0 => .bad .strMalformed r
  | left' + 1 =>
    match r.readBit m with
    | none => .bad .strUnexpectedEnd r
    | some (false, r') => .ok q r'
    | some (true, r') => refRiceUnary m left' (q + 1) r'

/-- The remainder (R272), most significant bit first, into positions `k - 1 .. 0`. -/
def refRiceRemainder (m : Memory) (k acc : Nat) (r : Reader) : RefPart Nat :=
  match k with
  | 0 => .ok acc r
  | k' + 1 =>
    match r.readBit m with
    | none => .bad .strUnexpectedEnd r
    | some (b, r') => refRiceRemainder m k' (acc ||| (b.toNat <<< k')) r'

/-- One value (R272). -/
def refRiceByte (m : Memory) (k : Nat) (r : Reader) : RefPart Byte :=
  (refRiceUnary m 256 0 r).andThen fun q r1 =>
    (refRiceRemainder m k 0 r1).andThen fun rem r2 =>
      if 255 < (q <<< k ||| rem) then .bad .strMalformed r2
      else .ok (BitVec.ofNat 8 (q <<< k ||| rem)) r2

/-- The loop (R272, R273): `left` bytes still to produce. -/
def refRiceLoop (m : Memory) (k left : Nat) (out : List Byte) (r : Reader) : RefResult :=
  match left with
  | 0 => ⟨.ok out, r.bitsRead⟩
  | left' + 1 =>
    match refRiceByte m k r with
    | .ok v r' => refRiceLoop m k left' (out ++ [v]) r'
    | .bad c r' => ⟨.fault c out, r'.bitsRead⟩

/-- `rice_decode(bytes, bit_count, cap)` (R270, R271). -/
def riceDecode (bytes : List Byte) (bitCount cap : Nat) : RefResult :=
  refDecode bytes bitCount cap fun m r =>
    match refReadBits m riceKFieldBits r with
    | .bad c r' => ⟨.fault c [], r'.bitsRead⟩
    | .ok k r' =>
      if riceKMax < k.toNat then ⟨.fault .strMalformed [], r'.bitsRead⟩
      else refRiceLoop m k.toNat cap [] r'

end Sys2Proof.Machine
end

