-- ==== Sys2Proof/Machine/RoundTrip.lean ====
section
/-! DEFINITION. Runs of host actions (70_reset_and_hazards.md R351) and the round-trip property of the three codecs
(45_reference_decoders.md R275). -/

namespace Sys2Proof.Machine

/-- A run (R351): the host does the actions one after the other, each a step, and stops when the machine does. -/
def runActions (actions : List HostAction) (s : State) : Host.Outcome State Fault Refusal :=
  match actions with
  | [] => .next s
  | a :: rest =>
    match step { s with pending := [a] } with
    | .next t => runActions rest t
    | .fault f => .fault f
    | .refused r => .refused r

/-- The three codecs of the CORE (R275). -/
inductive Codec where
  | huffman
  | lzw
  | rice
  deriving DecidableEq, Repr

/-- The encoder command of a codec. -/
def Codec.command : Codec → Instr
  | .huffman => .hufEnc
  | .lzw => .lzwEnc
  | .rice => .riceEnc

/-- The encoder command `X.ENC base, size` of a codec as host actions (30_encoding.md R103). -/
def Codec.encodeLine (k : Codec) (base size : Word64) : List HostAction :=
  match k with
  | .huffman => asmHufEnc base size
  | .lzw => asmLzwEnc base size
  | .rice => asmRiceEnc base size

/-- The reference decoder `x_decode(bytes, bit_count, cap)` of a codec (R250). -/
def Codec.decode (k : Codec) (bytes : List Byte) (bitCount cap : Nat) : RefOutcome :=
  match k with
  | .huffman => (huffDecode bytes bitCount cap).outcome
  | .lzw => (lzwDecode bytes bitCount cap).outcome
  | .rice => (riceDecode bytes bitCount cap).outcome

/-- The meaningful bytes of a released record (20_memory.md R65). -/
def Release.stream (x : Release) : List Byte := x.bytes.take (ceil8 x.bitsWritten)

/-- A command has ended without fault or refusal (60_exceptions.md R305). -/
def State.accepted (s : State) : Prop := s.status.fault = false ∧ s.status.argErr = false

/-- R275 for one codec and one input: after the reset of the machine `s`, the command sequence `X.ENC base, size` ;
`BSW.REL` ends without fault or refusal, and the one released record decodes to the input. -/
def RoundTrip (k : Codec) (s : State) (base size : Word64) : Prop :=
  ∃ t u x, runActions (k.encodeLine base size) s.resetCore = .next t ∧ t.accepted ∧
    runActions asmBswRel t = .next u ∧ u.accepted ∧ u.released = [x] ∧
    k.decode x.stream x.bitsWritten size.toNat = .ok (Memory.bytes s.mem base.toNat size.toNat)

end Sys2Proof.Machine
end

