-- ==== Sys2Proof/Safety.lean ====
section
/-! DEFINITION. What claims use: the invariants the spec gives between commands (10_state.md R33, 41_bitstream_reader.md
R155, 70_reset_and_hazards.md R356), how a command can end (60_exceptions.md R305, R306, R310), and when a run has succeeded
(R342, R351). -/

namespace Sys2Proof.Machine

/-! ### Invariants -/

/-- The buffer part of R33, for the writer's own buffer and for a released one: (a) the buffer is `allocated` bytes long
and holds the bits written; (b) every stream position of it at or after `bits_written` holds 0. -/
abbrev BufferInv (bytes : List Byte) (allocated bits : Nat) : Prop :=
  bytes.length = allocated ∧ bits ≤ 8 * allocated ∧
    ∀ p < 8 * allocated, bits ≤ p → bitAt bytes p = false

/-- The writer invariants of R33 (a), (b), (d), with the bounds `bytes_allocated` keeps (R10, R132): at least 1, at most
`BUF_MAX_BYTES`. (c) is about appended bits and is stated of the append commands. -/
abbrev WriterInv (s : State) : Prop :=
  BufferInv s.w.wbuf s.w.bytesAllocated s.w.bitsWritten ∧
    1 ≤ s.w.bytesAllocated ∧ s.w.bytesAllocated ≤ s.cfg.bufMaxBytes ∧
    (s.status.fault = false → s.w.bitsWritten < 8 * s.w.bytesAllocated)

/-- The reader invariant of R155, with the range `BSR.OPEN` checked (R71) and the 64 bits of `size_in_bits` (R34). -/
abbrev ReaderInv (s : State) : Prop :=
  s.r.bitsRead ≤ s.r.sizeInBits ∧ s.r.sizeInBits < 2 ^ 64 ∧ s.r.base < memBytes s.cfg ∧
    s.r.base + ceil8 s.r.sizeInBits ≤ memBytes s.cfg

/-- The `STATUS` invariants of R356 and R301: `BUSY = 0`; a fault's cause is one of 0x20, 0x21, 0x22, 0x30; a refusal's
cause, with no fault, is one of 0x10 to 0x13; with neither, the cause is 0x00. -/
abbrev StatusInv (st : Status) : Prop :=
  st.busy = false ∧
    (st.fault = true → st.cause = .capCodeLen ∨ st.cause = .capNodePool ∨ st.cause = .capAlloc ∨
      st.cause = .strUnexpectedEnd) ∧
    (st.fault = false → st.argErr = true → st.cause = .argIllegalCmd ∨ st.cause = .argCount ∨
      st.cause = .argSize ∨ st.cause = .argNotEmpty) ∧
    (st.fault = false → st.argErr = false → st.cause = .none)

/-- The encoders' scratch lives only during a command (R40, R42, R43). -/
abbrev ScratchInv (s : State) : Prop := s.h = none ∧ s.z = none ∧ s.c = none

/-- `MEM` is in canonical form and has no cell outside its `2^ADDR_BITS` addresses (R60). -/
abbrev MemInv (s : State) : Prop := Memory.wf s.mem ∧ ∀ x ∈ s.mem, x.1 < memBytes s.cfg

/-- Every record handed over satisfies R65: it is `bytes_allocated` bytes long and zero past its bits. -/
abbrev LogInv (log : List Release) : Prop :=
  ∀ x ∈ log, BufferInv x.bytes x.bytesAllocated x.bitsWritten

/-- The invariant of the machine between commands. -/
abbrev Inv (s : State) : Prop :=
  s.cfg.Legal ∧ WriterInv s ∧ ReaderInv s ∧ StatusInv s.status ∧ ScratchInv s ∧ MemInv s ∧
    LogInv s.released ∧ LogInv s.delivered

/-! ### The premises and the ends of a command -/

/-- A core that accepts commands and whose writer is as R33 says. -/
abbrev CanAppend (s : State) : Prop := s.cfg.Legal ∧ WriterInv s ∧ s.status.fault = false

/-- An encoder command that is neither refused for its range nor for a writer that holds bits (R303, R304). -/
abbrev CanEncode (s : State) : Prop :=
  CanAppend s ∧ ScratchInv s ∧ s.w.bitsWritten = 0 ∧
    1 ≤ s.arg1.toNat ∧ s.arg1.toNat < 2 ^ s.cfg.lenBits ∧ s.arg0.toNat + s.arg1.toNat ≤ 2 ^ s.cfg.addrBits

/-- The input of an encoder command (R61): byte `i` is `MEM(ARG0 + i)`. -/
def State.input (s : State) : List Byte := Memory.bytes s.mem s.arg0.toNat s.arg1.toNat

/-- The bits of `w'` are those of `w` followed by `bits`: nothing before them changed and every later position is 0
(R33 (b), (c), R140). -/
def Extends (w w' : Writer) (bits : List Bool) : Prop :=
  w'.bitsWritten = w.bitsWritten + bits.length ∧
    ∀ p, bitAt w'.wbuf p = if p < w.bitsWritten then bitAt w.wbuf p else bits.getD (p - w.bitsWritten) false

/-- `n` more bits can be appended to the writer without `CAP_ALLOC`: after some number `j` of growths within
`BUF_MAX_BYTES` the buffer is still not full (R132: growth is eager and multiplies `bytes_allocated`). -/
def RoomFor (s : State) (n : Nat) : Prop :=
  ∃ j, s.w.bytesAllocated * max 2 s.cfg.granularity ^ j ≤ s.cfg.bufMaxBytes ∧
    s.w.bitsWritten + n < 8 * (s.w.bytesAllocated * max 2 s.cfg.granularity ^ j)

/-- `STATUS` after `complete(r0, r1, eos)` (R305). -/
def completedStatus (eos : Bool) : Status := ⟨false, false, false, eos, .none⟩

/-- `STATUS` after `raise Fault(cause)` (R310). -/
def faultedStatus (cause : Cause) : Status := ⟨false, true, false, false, cause⟩

/-- `t` is `s` after `return ArgErr(cause)` (R306): `RES0` all ones, `RES1` zero, `ARGERR` set, the cause unless there is
a fault's; `EOS` and `FAULT` unchanged and nothing else in `S` changed. -/
def Refused (s : State) (cause : Cause) (t : State) : Prop :=
  t = { s with
    res0 := 0xFFFFFFFFFFFFFFFF#64
    res1 := 0#64
    status := ⟨false, s.status.fault, true, s.status.eos, if s.status.fault then s.status.cause else cause⟩ }

/-- `RES0` and `RES1` report the byte count and the bit count of `n` bits (R119, R130). -/
def Counts (t : State) (n : Nat) : Prop := t.res0.toNat = (n + 7) / 8 ∧ t.res1.toNat = n

/-- FRAME of a writer or encoder command: only the writer, `RES0`, `RES1` and `STATUS` may differ. -/
def OnlyWriter (s t : State) : Prop :=
  t = { s with w := t.w, res0 := t.res0, res1 := t.res1, status := t.status }

/-- FRAME of a reader command: only the reader's position, `RES0`, `RES1` and `STATUS` may differ. -/
def OnlyPosition (s t : State) : Prop :=
  t = { s with
    r := ⟨s.r.base, s.r.sizeInBits, t.r.bitsRead⟩, res0 := t.res0, res1 := t.res1, status := t.status }

/-- An append command completed: `bits` are appended, the counts reported, nothing else changed (R130). -/
def AppendCompletes (s : State) (bits : List Bool) (t : State) : Prop :=
  Extends s.w t.w bits ∧ Counts t (s.w.bitsWritten + bits.length) ∧ t.status = completedStatus false ∧
    OnlyWriter s t

/-- An append command stopped by `CAP_ALLOC` (R132, R311, R316): the bits up to and including the one that filled the
buffer are appended, growth would pass `BUF_MAX_BYTES`, the counts at that moment are reported. -/
def AppendFaults (s : State) (bits : List Bool) (t : State) : Prop :=
  (∃ m, 1 ≤ m ∧ m ≤ bits.length ∧ Extends s.w t.w (bits.take m)) ∧
    t.w.bitsWritten = 8 * t.w.bytesAllocated ∧
    s.cfg.bufMaxBytes < t.w.bytesAllocated * max 2 s.cfg.granularity ∧
    Counts t t.w.bitsWritten ∧ t.status = faultedStatus .capAlloc ∧ OnlyWriter s t

/-! ### Runs -/

/-- "A run has *succeeded* when its final `STATUS.FAULT = 0`" (R351). -/
def Succeeded (s : State) : Prop := s.status.fault = false

/-- The output of a run: the records set aside at each reset, then the log at the end (R342). -/
def State.output (s : State) : List Release := s.delivered ++ s.released

end Sys2Proof.Machine
end

