-- ==== Sys2Proof/Certificates/Slice0/Obligations.lean ====
section
/-! DEFINITION. The statements for the provers. Each docstring names the rules it formalises; a clause that rests on a
choice of the model names its log entry. In all of them a step is one host action, `pending` the actions to come, and a write of
`CMD` carries the word in its low 32 bits: the model's form of the host's side (log entries 5 and 10). -/

open Sys2Proof Sys2Proof.Machine

/-! ### Encoding -/

/-- Command words written out from the table of R103 decode to the commands they stand for. -/
def Obligations.TableWordsDecode : Prop :=
  decode 0x00000001#32 = .ok (.bswBit false) ∧ decode 0x00008001#32 = .ok (.bswBit true) ∧
    decode 0x00001002#32 = .ok (.bswBits 16) ∧ decode 0x00000003#32 = .ok .bswCode ∧
    decode 0x00000004#32 = .ok .bswRel ∧ decode 0x00000005#32 = .ok .bswCnt ∧
    decode 0x00000008#32 = .ok .bsrOpen ∧ decode 0x00000009#32 = .ok .bsrBit ∧
    decode 0x0000410A#32 = .ok (.bsrBits 65) ∧ decode 0x00000010#32 = .ok .hufEnc ∧
    decode 0x00000011#32 = .ok .lzwEnc ∧ decode 0x00000012#32 = .ok .riceEnc

/-- R96, R97, R103: decoding the word of any well-formed command gives the command back, at every value of its fields. -/
def Obligations.DecodeOfEncode : Prop :=
  ∀ i : Instr, i.wellFormed = true → decode (encode i) = .ok i

/-- R99: every 32-bit word is the word of exactly one command, the one it decodes to, or it is refused. -/
def Obligations.EveryWordIsOneCommandOrRefused : Prop :=
  ∀ w : Word32,
    (∃ i, i.wellFormed = true ∧ encode i = w ∧ decode w = .ok i ∧
      ∀ j, j.wellFormed = true → encode j = w → j = i) ∨
    ((∃ e, decode w = .error e) ∧ ∀ i, i.wellFormed = true → encode i ≠ w)

/-- The illegal words of R101, by R96, R97 and R100: bits 31:16 not zero, `OP` not in the table, or a field its format
requires to be zero not zero. -/
def IllegalWord (w : Word32) : Prop :=
  w.toNat / 65536 ≠ 0 ∨
  w.toNat % 256 ∉ [0x01, 0x02, 0x03, 0x04, 0x05, 0x08, 0x09, 0x0A, 0x10, 0x11, 0x12] ∨
  (w.toNat % 256 ∉ [0x02, 0x0A] ∧ w.toNat / 256 % 128 ≠ 0) ∨
  (w.toNat % 256 ≠ 0x01 ∧ w.toNat / 32768 % 2 ≠ 0)

/-- R101: an illegal word written to `CMD` of an unfaulted idle core is refused with `ARG_ILLEGAL_CMD` and changes nothing
but `STATUS`, `RES0`, `RES1` (and the host's action is taken); every other word is a command; a format-N word with `N` of 65 to
127 is one, and is refused with `ARG_COUNT`. -/
def Obligations.IllegalWordsAreRefused : Prop :=
  ∀ (s : State) (v : Word64) (rest : List HostAction),
    s.pending = .write 0x00#8 .w32 v :: rest → s.status.busy = false → s.status.fault = false →
    (IllegalWord (v.setWidth 32) →
      ∃ t, step s = .next t ∧ Refused { s with pending := rest } .argIllegalCmd t) ∧
    (¬ IllegalWord (v.setWidth 32) → ∃ i, i.wellFormed = true ∧ decode (v.setWidth 32) = .ok i) ∧
    (∀ n, 64 < n → n < 128 →
      v.setWidth 32 = BitVec.ofNat 32 (0x02 + n * 256) ∨ v.setWidth 32 = BitVec.ofNat 32 (0x0A + n * 256) →
      ∃ t, step s = .next t ∧ Refused { s with pending := rest } .argCount t)

/-! ### The host's side -/

/-- R24, R30, R99: when the host writes a word that decodes to `i` to `CMD` of an idle core, the step is `exec i` on the
state with the action taken and `BUSY` set. -/
def Obligations.StepRunsDecodedCommand : Prop :=
  ∀ (s : State) (v : Word64) (rest : List HostAction) (i : Instr),
    s.pending = .write 0x00#8 .w32 v :: rest → s.status.busy = false → decode (v.setWidth 32) = .ok i →
    step s = exec i { s with pending := rest, status := { s.status with busy := true } }

/-- R312, R99 (1): while `FAULT = 1` every word written to `CMD`, illegal ones too, is refused with `RES0` all ones,
`RES1 = 0`, `ARGERR = 1`; the fault, its cause and everything else stay. -/
def Obligations.FaultedCoreRefusesEveryWord : Prop :=
  ∀ (s : State) (v : Word64) (rest : List HostAction),
    s.pending = .write 0x00#8 .w32 v :: rest → s.status.busy = false → s.status.fault = true →
    step s = .next { s with
      pending := rest
      res0 := 0xFFFFFFFFFFFFFFFF#64
      res1 := 0#64
      status := ⟨false, true, true, s.status.eos, s.status.cause⟩ }

/-- R25: with no host action the machine does not change. -/
def Obligations.IdleCoreDoesNotChange : Prop :=
  ∀ s : State, s.pending = [] → step s = .next s

/-- R24: while `BUSY = 1`, a state no run reaches, a write of `CMD` is stalled. That a write of `ARG0` or `ARG1` then ends in
`hostWriteWhileBusy` is the model's choice (log entry 6, DESIGN CHOICE): R345 forbids the write and does not define what happens. -/
def Obligations.BusyCoreStallsCommandWrites : Prop :=
  ∀ (s : State) (v : Word64) (rest : List HostAction), s.status.busy = true →
    (s.pending = .write 0x00#8 .w32 v :: rest → step s = .next s) ∧
    (s.pending = .write 0x08#8 .w64 v :: rest ∨ s.pending = .write 0x10#8 .w64 v :: rest →
      step s = .fault .hostWriteWhileBusy)

/-- R27, R28: a host write at any offset and width but `CMD`, `ARG0`, `ARG1` at their own is ignored; on an idle core a
write of `ARG0` or `ARG1` changes that register and nothing else, in a faulted core too. -/
def Obligations.HostWritesReachOnlyCmdAndArgs : Prop :=
  ∀ (s : State) (off : Byte) (width : Width) (v : Word64) (rest : List HostAction),
    s.pending = .write off width v :: rest → s.status.busy = false →
    (off = 0x08#8 → width = .w64 → step s = .next { s with pending := rest, arg0 := v }) ∧
    (off = 0x10#8 → width = .w64 → step s = .next { s with pending := rest, arg1 := v }) ∧
    (¬ (off = 0x00#8 ∧ width = .w32) → ¬ (off = 0x08#8 ∧ width = .w64) → ¬ (off = 0x10#8 ∧ width = .w64) →
      step s = .next { s with pending := rest })

/-- R27: what a host read of the register window returns, at every offset and width; it changes nothing of the core. That the
32-bit `STATUS` fills the 64 bits of `readData` with zeros is the model's reading (log entry 10, DEDUCED). Nothing is said of
`CFG_GRAN` where `GRANULARITY` does not fit 64 bits, a free value (log entry 8). -/
def Obligations.HostReadsFollowTheRegisterMap : Prop :=
  ∀ (s : State) (off : Byte) (width : Width) (rest : List HostAction),
    s.pending = .read off width :: rest →
    ∃ v, step s = .next { s with pending := rest, readData := v } ∧
      (off = 0x04#8 → width = .w32 → v = s.status.word.setWidth 64) ∧
      (off = 0x08#8 → width = .w64 → v = s.arg0) ∧ (off = 0x10#8 → width = .w64 → v = s.arg1) ∧
      (off = 0x18#8 → width = .w64 → v = s.res0) ∧ (off = 0x20#8 → width = .w64 → v = s.res1) ∧
      (off = 0x28#8 → width = .w64 → v = BitVec.ofNat 64 s.w.bitsWritten) ∧
      (off = 0x30#8 → width = .w64 → v = BitVec.ofNat 64 s.w.bytesAllocated) ∧
      (off = 0x38#8 → width = .w64 → v = BitVec.ofNat 64 s.r.base) ∧
      (off = 0x40#8 → width = .w64 → v = BitVec.ofNat 64 s.r.sizeInBits) ∧
      (off = 0x48#8 → width = .w64 → v = BitVec.ofNat 64 s.r.bitsRead) ∧
      (off = 0x50#8 → width = .w64 → v = BitVec.ofNat 64 s.cfg.initBytes) ∧
      (off = 0x58#8 → width = .w64 → s.cfg.granularity < 2 ^ 64 → v.toNat = s.cfg.granularity) ∧
      (off = 0x60#8 → width = .w64 → v = 0x4253433100000001#64) ∧
      (¬ (off = 0x04#8 ∧ width = .w32) →
        ¬ (off ∈ [0x08#8, 0x10#8, 0x18#8, 0x20#8, 0x28#8, 0x30#8, 0x38#8, 0x40#8, 0x48#8, 0x50#8, 0x58#8, 0x60#8] ∧
          width = .w64) → v = 0#64)

/-- R60, R76: a host store to an address of `MEM` changes that byte and no other, and nothing of the core. Two clauses are the
model's, not the spec's. That `MEM` keeps its canonical form is about the model's representation of it. That a host store at or
above `2 ^ ADDR_BITS`, an address `MEM` does not have, ends in `noSuchAddress` is the model's choice (log entry 4, DESIGN CHOICE):
R60 says what addresses there are, and no rule says what such a store does. -/
def Obligations.HostStoreChangesOneByte : Prop :=
  ∀ (s : State) (a : Nat) (v : Byte) (rest : List HostAction),
    s.pending = .storeMem a v :: rest → MemInv s →
    (a < 2 ^ s.cfg.addrBits → ∃ t, step s = .next t ∧ t = { s with pending := rest, mem := t.mem } ∧ MemInv t ∧
      Memory.read t.mem a = v ∧ ∀ b, b ≠ a → Memory.read t.mem b = Memory.read s.mem b) ∧
    (2 ^ s.cfg.addrBits ≤ a → step s = .fault (.noSuchAddress a))

/-- R340, R341, R342: the reset input, in any state, faulted or busy too, puts every piece of state at its reset value; the
configuration and `MEM` stay, and the records already handed over stay with the host. R46 leaves the scratch unspecified: that it
is absent is the model's reading (log entry 2, DEDUCED). What becomes of `output`, `pending`, `readData` and `draws`, the model's
own, is the model's choice (log entry 5, DESIGN CHOICE). -/
def Obligations.ResetPutsEveryPieceAtItsValue : Prop :=
  ∀ (s : State) (rest : List HostAction), s.pending = .reset :: rest →
    ∃ t, step s = .next t ∧ t.status.word = 0#32 ∧ t.irqErr = false ∧
      t.arg0 = 0#64 ∧ t.arg1 = 0#64 ∧ t.res0 = 0#64 ∧ t.res1 = 0#64 ∧
      t.w.wbuf = List.replicate s.cfg.initBytes 0#8 ∧ t.w.bytesAllocated = s.cfg.initBytes ∧ t.w.bitsWritten = 0 ∧
      t.r.base = 0 ∧ t.r.sizeInBits = 0 ∧ t.r.bitsRead = 0 ∧ t.released = [] ∧
      t.h = none ∧ t.z = none ∧ t.c = none ∧
      t.cfg = s.cfg ∧ t.mem = s.mem ∧ t.output = s.output ∧ t.pending = rest ∧ t.readData = s.readData ∧
      t.draws = s.draws

/-- R312, R318, R26: in a faulted machine any step but a reset keeps `FAULT` and its cause, and the error line up. -/
def Obligations.OnlyResetClearsAFault : Prop :=
  ∀ s t : State, s.status.fault = true → step s = .next t → (∀ rest, s.pending ≠ .reset :: rest) →
    t.status.fault = true ∧ t.status.cause = s.status.cause ∧ t.irqErr = true

/-- R26, R301: every bit of the `STATUS` word, and the cause codes. -/
def Obligations.StatusWordHasTheStatedLayout : Prop :=
  (∀ st : Status, ∀ i < 32, st.word.getLsbD i =
    if i = 0 then st.busy else if i = 1 then st.fault else if i = 2 then st.argErr else if i = 3 then st.eos
    else if 8 ≤ i ∧ i < 16 then st.cause.code.getLsbD (i - 8) else false) ∧
  Cause.none.code = 0x00#8 ∧ Cause.argIllegalCmd.code = 0x10#8 ∧ Cause.argCount.code = 0x11#8 ∧
  Cause.argSize.code = 0x12#8 ∧ Cause.argNotEmpty.code = 0x13#8 ∧ Cause.argFaulted.code = 0x14#8 ∧
  Cause.capCodeLen.code = 0x20#8 ∧ Cause.capNodePool.code = 0x21#8 ∧ Cause.capAlloc.code = 0x22#8 ∧
  Cause.strUnexpectedEnd.code = 0x30#8

/-! ### The writer -/

/-- R131, R132, R130: `BSW.BIT b` on a writer with room completes: one bit appended, the counts reported, nothing else
changed; the buffer grows by the factor exactly when this bit fills it. -/
def Obligations.BswBitAppendsOneBit : Prop :=
  ∀ (b : Bool) (s : State), CanAppend s → RoomFor s 1 →
    ∃ t, exec (.bswBit b) s = .next t ∧ AppendCompletes s [b] t ∧
      t.w.wbuf.length = t.w.bytesAllocated ∧
      t.w.bytesAllocated =
        if s.w.bitsWritten + 1 = 8 * s.w.bytesAllocated then s.w.bytesAllocated * max 2 s.cfg.granularity
        else s.w.bytesAllocated

/-- R133, R68, R130: `BSW.BITS value, n` with `n ≤ 64` on a writer with room completes: bits 0 to `n - 1` of `ARG0` appended in
that order, the counts reported, nothing else changed. -/
def Obligations.BswBitsAppendsLowBitsFirst : Prop :=
  ∀ (n : Nat) (s : State), CanAppend s → n ≤ 64 → RoomFor s n →
    ∃ t, exec (.bswBits n) s = .next t ∧ AppendCompletes s ((List.range n).map s.arg0.getLsbD) t

/-- R135, R98, R130: `BSW.CODE` with `ARG1 ≤ 64` on a writer with room completes: bits 0 to `ARG1 - 1` of `ARG0` appended in
that order, the counts reported, nothing else changed. -/
def Obligations.BswCodeAppendsTheCode : Prop :=
  ∀ s : State, CanAppend s → s.arg1.toNat ≤ 64 → RoomFor s s.arg1.toNat →
    ∃ t, exec .bswCode s = .next t ∧ AppendCompletes s ((List.range s.arg1.toNat).map s.arg0.getLsbD) t

/-- R304, R133, R135, R154, R306: a bit count above 64 is refused with `ARG_COUNT` and changes nothing but `STATUS`, `RES0`,
`RES1`. -/
def Obligations.CountsAbove64AreRefused : Prop :=
  ∀ s : State, s.status.fault = false →
    (∀ n, 64 < n → ∃ t, exec (.bswBits n) s = .next t ∧ Refused s .argCount t) ∧
    (∀ n, 64 < n → ∃ t, exec (.bsrBits n) s = .next t ∧ Refused s .argCount t) ∧
    (64 < s.arg1.toNat → ∃ t, exec .bswCode s = .next t ∧ Refused s .argCount t)

/-- R132, R310, R311, R316: an append command that has no room ends in `CAP_ALLOC` with the bit that filled the buffer
appended. -/
def Obligations.AppendPastTheLimitFaults : Prop :=
  ∀ s : State, CanAppend s →
    (∀ b, ¬ RoomFor s 1 → ∃ t, exec (.bswBit b) s = .next t ∧ AppendFaults s [b] t) ∧
    (∀ n, n ≤ 64 → ¬ RoomFor s n →
      ∃ t, exec (.bswBits n) s = .next t ∧ AppendFaults s ((List.range n).map s.arg0.getLsbD) t) ∧
    (s.arg1.toNat ≤ 64 → ¬ RoomFor s s.arg1.toNat →
      ∃ t, exec .bswCode s = .next t ∧ AppendFaults s ((List.range s.arg1.toNat).map s.arg0.getLsbD) t)

/-- The three encoder commands. -/
def IsEncoder (i : Instr) : Prop := i = .hufEnc ∨ i = .lzwEnc ∨ i = .riceEnc

/-- The commands that append to the writer (R301). -/
def Appends (i : Instr) : Prop :=
  (∃ b, i = .bswBit b) ∨ (∃ n, i = .bswBits n) ∨ i = .bswCode ∨ IsEncoder i

/-- R132: after any append command, of the writer or of an encoder, has completed, `bytes_allocated` is the old one times the least power
of the growth factor at which the bits do not fill the buffer, and the buffer has that length. -/
def Obligations.BufferSizeIsTheLeastPowerThatFits : Prop :=
  ∀ (i : Instr) (s t : State), CanAppend s → Appends i → exec i s = .next t →
    t.status.fault = false → t.status.argErr = false →
    t.w.wbuf.length = t.w.bytesAllocated ∧
    ∃ j, t.w.bytesAllocated = s.w.bytesAllocated * max 2 s.cfg.granularity ^ j ∧
      t.w.bitsWritten < 8 * t.w.bytesAllocated ∧
      ∀ k < j, 8 * (s.w.bytesAllocated * max 2 s.cfg.granularity ^ k) ≤ t.w.bitsWritten

/-- R137, R31: `BSW.REL` appends the record of the whole buffer to the log, leaves a freshly constructed writer, reports the
counts of the released buffer, and changes nothing else. -/
def Obligations.BswRelDeliversTheBuffer : Prop :=
  ∀ s : State, CanAppend s →
    ∃ t, exec .bswRel s = .next t ∧
      t.released = s.released ++ [⟨s.w.wbuf, s.w.bytesAllocated, s.w.bitsWritten⟩] ∧
      t.w.wbuf = List.replicate s.cfg.initBytes 0#8 ∧ t.w.bytesAllocated = s.cfg.initBytes ∧ t.w.bitsWritten = 0 ∧
      Counts t s.w.bitsWritten ∧ t.status = completedStatus false ∧
      t = { s with released := t.released, w := t.w, res0 := t.res0, res1 := t.res1, status := t.status }

/-- R139: `BSW.CNT` reports the byte count and the bit count and changes nothing in the writer, nor anything else. -/
def Obligations.BswCntReportsTheCounts : Prop :=
  ∀ s : State, CanAppend s →
    ∃ t, exec .bswCnt s = .next t ∧ Counts t s.w.bitsWritten ∧ t.status = completedStatus false ∧
      t = { s with res0 := t.res0, res1 := t.res1, status := t.status }

/-- R134: `append_bits(v, n)` then `append_bits(u, m)` leaves the same writer as the `n + m` single appends in order, and, when
`n + m ≤ 64`, as `append_bits(trunc_n(v) | (u << n), n + m)`; a fault on the way included. -/
def Obligations.AppendingTwiceIsAppendingOnce : Prop :=
  ∀ (c : Config) (w : Writer) (v u n m : Nat),
    ((match w.appendBits c (lsbBits v n) with
      | .done w' => w'.appendBits c (lsbBits u m)
      | .full w' => .full w') =
      w.appendBits c ((List.range n).map v.testBit ++ (List.range m).map u.testBit)) ∧
    (n + m ≤ 64 →
      (match w.appendBits c (lsbBits v n) with
        | .done w' => w'.appendBits c (lsbBits u m)
        | .full w' => .full w') =
        w.appendBits c (lsbBits (v % 2 ^ n ||| u <<< n) (n + m)))

/-! ### The reader -/

/-- R150, R303: `BSR.OPEN` with a slice inside `MEM` sets the reader and changes nothing else; with any other slice it is
refused with `ARG_SIZE`. -/
def Obligations.BsrOpenSetsTheSlice : Prop :=
  ∀ s : State, s.status.fault = false →
    (s.arg0.toNat < 2 ^ s.cfg.addrBits → s.arg0.toNat + (s.arg1.toNat + 7) / 8 ≤ 2 ^ s.cfg.addrBits →
      exec .bsrOpen s = .next { s with
        r := ⟨s.arg0.toNat, s.arg1.toNat, 0⟩, res0 := 0#64, res1 := 0#64, status := completedStatus false }) ∧
    (2 ^ s.cfg.addrBits ≤ s.arg0.toNat ∨ 2 ^ s.cfg.addrBits < s.arg0.toNat + (s.arg1.toNat + 7) / 8 →
      ∃ t, exec .bsrOpen s = .next t ∧ Refused s .argSize t)

/-- R152, R67, R70: `BSR.BIT` returns bit `p mod 8` of `MEM(base + p div 8)` and advances by one while bits are left; at the end
it sets `EOS`, returns 0 and leaves the reader as it was. Nothing else changes. -/
def Obligations.BsrBitReadsTheNextBit : Prop :=
  ∀ s : State, ReaderInv s → s.status.fault = false →
    (s.r.bitsRead < s.r.sizeInBits →
      ∃ t, exec .bsrBit s = .next t ∧ t.r.bitsRead = s.r.bitsRead + 1 ∧
        t.res0.toNat = (Memory.read s.mem (s.r.base + s.r.bitsRead / 8)).toNat / 2 ^ (s.r.bitsRead % 8) % 2 ∧
        t.res1.toNat = s.r.bitsRead + 1 ∧ t.status = completedStatus false ∧ OnlyPosition s t) ∧
    (s.r.bitsRead = s.r.sizeInBits →
      ∃ t, exec .bsrBit s = .next t ∧ t.r.bitsRead = s.r.bitsRead ∧ t.res0 = 0#64 ∧
        t.res1.toNat = s.r.bitsRead ∧ t.status = completedStatus true ∧ OnlyPosition s t)

/-- R154, R68: `BSR.BITS n` with `n ≤ 64` and at least `n` bits left completes: the first bit read is bit 0 of the result, bits `n`
and above are 0, the position advances by `n`, nothing else changes. -/
def Obligations.BsrBitsReadsLowBitsFirst : Prop :=
  ∀ (n : Nat) (s : State), ReaderInv s → s.status.fault = false → n ≤ 64 → s.r.bitsRead + n ≤ s.r.sizeInBits →
    ∃ t, exec (.bsrBits n) s = .next t ∧ t.r.bitsRead = s.r.bitsRead + n ∧
      (∀ i < 64, t.res0.getLsbD i = (decide (i < n) &&
        (Memory.read s.mem (s.r.base + (s.r.bitsRead + i) / 8)).getLsbD ((s.r.bitsRead + i) % 8))) ∧
      t.res1.toNat = s.r.bitsRead + n ∧ t.status = completedStatus false ∧ OnlyPosition s t

/-- R154, R310, R311: `BSR.BITS n` with `n ≤ 64` and fewer than `n` bits left faults with `STR_UNEXPECTED_END`, the available bits
consumed, `RES1 = bits_read = size_in_bits`. Nothing is said of `RES0`, a free value (log entry 1; `draws` counts it). -/
def Obligations.BsrBitsPastTheEndFaults : Prop :=
  ∀ (n : Nat) (s : State), ReaderInv s → s.status.fault = false → n ≤ 64 → s.r.sizeInBits < s.r.bitsRead + n →
    ∃ t, exec (.bsrBits n) s = .next t ∧ t.r.bitsRead = s.r.sizeInBits ∧ t.res1.toNat = s.r.sizeInBits ∧
      t.status = faultedStatus .strUnexpectedEnd ∧ OnlyPosition { s with draws := t.draws } t

/-- In a state no run reaches (R155), where a read would leave `MEM`, `BSR.BIT` and `BSR.BITS` stop the model by name. The stop is
the model's choice (log entry 4, DESIGN CHOICE): no rule says what happens there. -/
def Obligations.ReadsOutsideMemStop : Prop :=
  ∀ (s : State) (n a : Nat), s.status.fault = false → n ≤ 64 → 2 ^ s.cfg.addrBits ≤ a →
    (s.r.lastByte n = some a → exec (.bsrBits n) s = .fault (.noSuchAddress a)) ∧
    (s.r.lastByte 1 = some a → exec .bsrBit s = .fault (.noSuchAddress a))

/-- The results of `n` calls of `read_bit()` in a row. -/
def readTimes (m : Memory) : Nat → Reader → List (Option Bool)
  | 0, _ => []
  | n + 1, r =>
    match r.readBit m with
    | some (b, r') => some b :: readTimes m n r'
    | none => none :: readTimes m n r

/-- R156: the bits appended to an empty writer, its first `ceil8(n)` bytes placed in `MEM` at `a` and a reader opened on `n` bits
there, are what `n` calls of `read_bit()` return, in order, and the next call returns `None`. -/
def Obligations.WriterAndReaderAreInverse : Prop :=
  ∀ (c : Config) (bits : List Bool) (w : Writer) (m : Memory) (a : Nat),
    c.Legal → (Writer.fresh c).appendBits c bits = .done w →
    (∀ i < (bits.length + 7) / 8, Memory.read m (a + i) = w.wbuf.getD i 0#8) →
    readTimes m (bits.length + 1) ⟨a, bits.length, 0⟩ = bits.map some ++ [none]

/-! ### The encoders: checks, completion, faults -/

/-- R303, R304, R315: an encoder command whose size is 0 or too large, or whose range passes the end of `MEM`, is refused with
`ARG_SIZE`, whatever the writer holds; with a good range and a writer that holds bits it is refused with `ARG_NOT_EMPTY`. -/
def Obligations.EncodersRefuseBadInput : Prop :=
  ∀ (i : Instr) (s : State), IsEncoder i → s.status.fault = false →
    (¬ (1 ≤ s.arg1.toNat ∧ s.arg1.toNat < 2 ^ s.cfg.lenBits ∧ s.arg0.toNat + s.arg1.toNat ≤ 2 ^ s.cfg.addrBits) →
      ∃ t, exec i s = .next t ∧ Refused s .argSize t) ∧
    (1 ≤ s.arg1.toNat → s.arg1.toNat < 2 ^ s.cfg.lenBits → s.arg0.toNat + s.arg1.toNat ≤ 2 ^ s.cfg.addrBits →
      s.w.bitsWritten ≠ 0 → ∃ t, exec i s = .next t ∧ Refused s .argNotEmpty t)

/-- R108, R109, R111, R112, R113, R165, R182: `HUF.ENC` on an input whose codes are at most 64 bits long, with room for its
stream, completes: in the writer are `N = 256` and `L` in 16 bits each, for each of the 256 symbols its code length in `L` bits
and its code, 0 to 7 zero bits up to a byte boundary, and the codes of the input bytes in order, every field low bit first; the
counts are reported, nothing else changed. -/
def Obligations.HufEncWritesItsStream : Prop :=
  ∀ (s : State) (h : HufScratch), CanEncode s → hufTables s.input = .ok h →
    RoomFor s (hufStream h s.input).length →
    ∃ t pad, exec .hufEnc s = .next t ∧ pad < 8 ∧
      (32 + 256 * h.fieldWidth + ((List.range 256).map (fun i => (poolAt h.pool i).code.length)).sum + pad) % 8 = 0 ∧
      AppendCompletes s
        ((List.range 16).map (256).testBit ++ (List.range 16).map h.fieldWidth.testBit ++
          (List.range 256).flatMap (fun i =>
            (List.range h.fieldWidth).map (poolAt h.pool i).code.length.testBit ++
              (List.range (poolAt h.pool i).code.length).map (poolAt h.pool i).code.bits.getLsbD) ++
          List.replicate pad false ++
          s.input.flatMap (fun v => (List.range (poolAt h.pool v.toNat).code.length).map
            (poolAt h.pool v.toNat).code.bits.getLsbD)) t

/-- R115, R200, R206, R211: `LZW.ENC` with room for its stream completes: in the writer are the emitted codes in order, each low bit first
in the width current when it was emitted, at most one code per input byte and 12 bits per code; the counts are reported, nothing
else changed. -/
def Obligations.LzwEncWritesItsStream : Prop :=
  ∀ s : State, CanEncode s → RoomFor s (lzwStream s.input).length →
    ∃ t, exec .lzwEnc s = .next t ∧
      AppendCompletes s
        ((lzwEmissions s.input).flatMap (fun e => (List.range e.width).map e.code.testBit)) t ∧
      t.w.bitsWritten ≤ 12 * s.arg1.toNat

/-- R117, R118, R230, R234, R236, R238: `RICE.ENC` with room for `4 + tot[k]` bits, `k` the chosen parameter, completes: in the writer are the
4-bit prefix `k`, low bit first, and for each input byte `q = v >> k` ones, a zero, and the `k` bits of `v mod 2^k` most
significant first, where `k` is the smallest minimiser of the total; `bit_count = 4 + tot[k] ≤ 4 + 9 · size`; the counts are
reported, nothing else changed. -/
def Obligations.RiceEncWritesItsStream : Prop :=
  ∀ (s : State) (k : Nat), CanEncode s → (riceSearch s.input).k = k → RoomFor s (4 + riceTotal s.input k) →
    ∃ t, exec .riceEnc s = .next t ∧ k ≤ 8 ∧
      (∀ j ≤ 8, riceTotal s.input k ≤ riceTotal s.input j) ∧ (∀ j < k, riceTotal s.input k < riceTotal s.input j) ∧
      AppendCompletes s ((List.range 4).map k.testBit ++ s.input.flatMap (fun v =>
        List.replicate (v.toNat / 2 ^ k) true ++ [false] ++
          (List.range k).map (fun j => (v.toNat % 2 ^ k).testBit (k - 1 - j)))) t ∧
      t.w.bitsWritten = 4 + riceTotal s.input k ∧ t.w.bitsWritten ≤ 4 + 9 * s.arg1.toNat

/-- R132, R182, R211, R238, R311: an encoder command with no room for its stream ends in `CAP_ALLOC` with the bits up to the one that
filled the buffer appended. -/
def Obligations.EncodersPastTheLimitFault : Prop :=
  ∀ s : State, CanEncode s →
    (∀ h, hufTables s.input = .ok h → ¬ RoomFor s (hufStream h s.input).length →
      ∃ t, exec .hufEnc s = .next t ∧ AppendFaults s (hufStream h s.input) t) ∧
    (¬ RoomFor s (lzwStream s.input).length →
      ∃ t, exec .lzwEnc s = .next t ∧ AppendFaults s (lzwStream s.input) t) ∧
    (¬ RoomFor s (riceStream (riceSearch s.input) s.input).length →
      ∃ t, exec .riceEnc s = .next t ∧ AppendFaults s (riceStream (riceSearch s.input) s.input) t)

/-- R165, R176, R182, R315, R316: how `HUF.ENC` ends once its checks have passed. Its tables are built first. If they are built, it
completes or ends in `CAP_ALLOC`, as the room is. If they fault, it is with `CAP_NODE_POOL` or `CAP_CODE_LEN`, before any bit is
appended: the writer is untouched and the counts are 0. -/
def Obligations.HufEncEndsInOneOfThreeWays : Prop :=
  ∀ s : State, CanEncode s → ∃ t, exec .hufEnc s = .next t ∧
    ((∃ h, hufTables s.input = .ok h ∧ RoomFor s (hufStream h s.input).length ∧
        AppendCompletes s (hufStream h s.input) t) ∨
      (∃ h, hufTables s.input = .ok h ∧ ¬ RoomFor s (hufStream h s.input).length ∧
        AppendFaults s (hufStream h s.input) t) ∨
      (∃ k, hufTables s.input = .error k ∧ (k = .capNodePool ∨ k = .capCodeLen) ∧ t.w = s.w ∧
        t.res0 = 0#64 ∧ t.res1 = 0#64 ∧ t.status = faultedStatus k ∧ OnlyWriter s t))

/-- R61, R75, R355: what an encoder command writes depends on the writer it found, the configuration and the input bytes only: two
cores that agree on these end with the same writer, results and `STATUS`, whatever the rest of `MEM` and the addresses are. -/
def Obligations.EncodersDependOnlyOnTheInput : Prop :=
  ∀ (i : Instr) (s s' t t' : State), IsEncoder i → CanEncode s → CanEncode s' →
    s.cfg = s'.cfg → s.w = s'.w → s.input = s'.input →
    exec i s = .next t → exec i s' = .next t' →
    t.w = t'.w ∧ t.res0 = t'.res0 ∧ t.res1 = t'.res1 ∧ t.status = t'.status

/-- R104: `BSW.REL` after an encoder command that did not fault delivers its stream: the record is the encoder's buffer and its
counts, `RES0` and `RES1` are the encoder's, and the writer is empty again. -/
def Obligations.ReleaseDeliversTheEncodedStream : Prop :=
  ∀ (i : Instr) (s t : State), IsEncoder i → CanEncode s → exec i s = .next t → t.status.fault = false →
    ∃ u, exec .bswRel t = .next u ∧
      u.released = s.released ++ [⟨t.w.wbuf, t.w.bytesAllocated, t.w.bitsWritten⟩] ∧
      u.res0 = t.res0 ∧ u.res1 = t.res1 ∧ u.w.bitsWritten = 0 ∧ u.status = completedStatus false

/-! ### The Huffman encoder -/

/-- R167, R168, R170, R171, R174: after the tables are built, leaf `i` carries the number of occurrences of byte `i` and is valid exactly when
it occurs; inner node `j` is valid exactly when it was allocated, and then it has two valid children of lower index, the left one,
extracted first, before the right one in the order of `(frequency, index)`, and carries the sum of their frequencies; the root
carries the number of input bytes. -/
def Obligations.HufNodesCarryTheInputCounts : Prop :=
  ∀ (input : List Byte) (h : HufScratch), input ≠ [] → hufTables input = .ok h →
    (∀ i < 256, (poolAt h.pool i).frequency = input.count (BitVec.ofNat 8 i) ∧
      ((poolAt h.pool i).valid = true ↔ BitVec.ofNat 8 i ∈ input)) ∧
    (∀ j < 512, (poolAt h.pool (256 + j)).valid = true ↔ j < h.innerCount) ∧
    (∀ j < h.innerCount, ∃ l r, (poolAt h.pool (256 + j)).left = some l ∧ (poolAt h.pool (256 + j)).right = some r ∧
      l < 256 + j ∧ r < 256 + j ∧ (poolAt h.pool l).valid = true ∧ (poolAt h.pool r).valid = true ∧
      ((poolAt h.pool l).frequency < (poolAt h.pool r).frequency ∨
        ((poolAt h.pool l).frequency = (poolAt h.pool r).frequency ∧ l < r)) ∧
      (poolAt h.pool (256 + j)).frequency = (poolAt h.pool l).frequency + (poolAt h.pool r).frequency) ∧
    ∃ n, h.root = some n ∧ (poolAt h.pool n).valid = true ∧ (poolAt h.pool n).frequency = input.length

/-- R170: `extract_min()` takes out of a queue the index whose pair `(frequency, index)` is smallest in lexicographic order, and
nothing else; of an empty queue it takes nothing. -/
def Obligations.HufExtractTakesTheSmallestPair : Prop :=
  ∀ (pool : List HufNode) (queue : List Nat),
    (queue = [] → hufExtract pool queue = none) ∧
    (queue ≠ [] → ∃ i, hufExtract pool queue = some (i, queue.erase i) ∧ i ∈ queue ∧
      ∀ j ∈ queue, (poolAt pool i).frequency < (poolAt pool j).frequency ∨
        ((poolAt pool i).frequency = (poolAt pool j).frequency ∧ i ≤ j))

/-- R173: `CAP_NODE_POOL` cannot be raised; with `m ≥ 1` distinct bytes exactly `m - 1` inner nodes are allocated, at most 255. -/
def Obligations.HufNodePoolIsNeverExhausted : Prop :=
  ∀ input : List Byte, hufTables input ≠ .error .capNodePool ∧
    ∀ h, hufTables input = .ok h → input ≠ [] →
      h.innerCount + 1 = ((List.range 256).filter (fun i => decide (BitVec.ofNat 8 i ∈ input))).length ∧
      h.innerCount ≤ 255

/-- R175, R177: the root's code is `(0, 1)`; a left child's code is its parent's with a 0 appended, a right child's with a 1. The codes
of the bytes that occur have 1 to 64 bits, start with a 0, and none is a beginning of another; a byte that does not occur has the
empty code; one distinct byte has the code `(0, 1)`; with more than one every code has at least 2 bits. -/
def Obligations.HufCodesArePrefixFree : Prop :=
  ∀ (input : List Byte) (h : HufScratch), hufTables input = .ok h →
    (∀ n, h.root = some n → (poolAt h.pool n).code = ⟨0#64, 1⟩) ∧
    (∀ j < h.innerCount, ∀ l r, (poolAt h.pool (256 + j)).left = some l → (poolAt h.pool (256 + j)).right = some r →
      (poolAt h.pool l).code =
        ⟨(poolAt h.pool (256 + j)).code.bits, (poolAt h.pool (256 + j)).code.length + 1⟩ ∧
      (poolAt h.pool r).code =
        ⟨(poolAt h.pool (256 + j)).code.bits ||| (1#64 <<< (poolAt h.pool (256 + j)).code.length),
          (poolAt h.pool (256 + j)).code.length + 1⟩) ∧
    (∀ v ∈ input, 1 ≤ (poolAt h.pool v.toNat).code.length ∧ (poolAt h.pool v.toNat).code.length ≤ 64 ∧
      (poolAt h.pool v.toNat).code.bits.getLsbD 0 = false) ∧
    (∀ v ∈ input, ∀ u ∈ input, v ≠ u →
      ¬ (poolAt h.pool v.toNat).code.stream <+: (poolAt h.pool u.toNat).code.stream) ∧
    (∀ v : Byte, v ∉ input → (poolAt h.pool v.toNat).code = ⟨0#64, 0⟩) ∧
    (∀ v ∈ input, (∀ u ∈ input, u = v) → (poolAt h.pool v.toNat).code = ⟨0#64, 1⟩) ∧
    (∀ v ∈ input, ∀ u ∈ input, v ≠ u → 2 ≤ (poolAt h.pool v.toNat).code.length)

/-- R110, R178: `L = bitlen(max_len)` where `max_len` is the largest code length of the bytes that occur; `L` is in `1..=7`, and every
code length fits in `L` bits. -/
def Obligations.HufFieldWidthHoldsEveryLength : Prop :=
  ∀ (input : List Byte) (h : HufScratch), input ≠ [] → hufTables input = .ok h →
    (∀ v ∈ input, (poolAt h.pool v.toNat).code.length ≤ h.maxLen) ∧
    (∃ v ∈ input, (poolAt h.pool v.toNat).code.length = h.maxLen) ∧
    h.fieldWidth = Nat.log2 h.maxLen + 1 ∧ 1 ≤ h.fieldWidth ∧ h.fieldWidth ≤ 7 ∧
    ∀ i < 256, (poolAt h.pool i).code.length < 2 ^ h.fieldWidth

/-- R112, R114: the header is `32 + 256·L + Σ l_s` bits long, 0 to 7 padding bits bring it to a byte boundary, and the stream is
header, padding and the codes of the input bytes. -/
def Obligations.HufStreamLengthIsAsStated : Prop :=
  ∀ (h : HufScratch) (input : List Byte),
    (hufHeader h).length =
      32 + 256 * h.fieldWidth + ((List.range 256).map (fun i => (poolAt h.pool i).code.length)).sum ∧
    ∃ pad < 8, ((hufHeader h).length + pad) % 8 = 0 ∧
      (hufStream h input).length = (hufHeader h).length + pad +
        (input.map (fun v => (poolAt h.pool v.toNat).code.length)).sum

/-- There is a node `d` child links below node `n`. -/
def HasNodeAtDepth (pool : List HufNode) : Nat → Nat → Prop
  | 0, _ => True
  | d + 1, n => 256 ≤ n ∧ ∃ l r, (poolAt pool n).left = some l ∧ (poolAt pool n).right = some r ∧
      (HasNodeAtDepth pool d l ∨ HasNodeAtDepth pool d r)

/-- R175, R176: the code generator faults, with `CAP_CODE_LEN`, exactly when some node, leaf or inner, lies at depth 64 or more below the
root and so would get a 65-bit code. -/
def Obligations.HufCodeLengthFaultIsADeepNode : Prop :=
  ∀ (h : HufScratch) (n : Nat), h.root = some n →
    (hufAssign h = .error .capCodeLen ↔ HasNodeAtDepth h.pool 64 n)

/-- R173, R176, 93_implementation_defined.md G1: the tables are built for every input of fewer than `Fib(66)` bytes, so `CAP_CODE_LEN`
cannot be raised when `LEN_BITS ≤ 44`. (The spec supplies the bound from general knowledge.) -/
def Obligations.HufTablesAreBuiltBelowFib66Bytes : Prop :=
  ∀ input : List Byte, input.length < 27777890035288 → ∃ h, hufTables input = .ok h

/-! ### The LZW encoder -/

/-- R203, R210: after any input the scratch satisfies the invariants of R210, and no entry is defined twice. -/
def Obligations.LzwScratchInvariants : Prop :=
  ∀ (input : List Byte) (z : LzwScratch), (lzwBytes input lzwInit).2 = z →
    256 ≤ z.nextCode ∧ z.nextCode ≤ 4096 ∧ z.width = min 12 (Nat.log2 z.nextCode + 1) ∧
    z.dict.length + 256 = z.nextCode ∧ (∀ w, z.w = some w → w < z.nextCode) ∧ (z.w = none ↔ input = []) ∧
    (∀ (i : Nat) (e : LzwEntry), z.dict[i]? = some e → e.prefixCode < 256 + i) ∧ z.dict.Nodup

/-- R116: emission `j` of a dictionary cycle has width `min(12, bitlen(255 + j))`, and a cycle is 3841 emissions (here `k` counts
the emissions of the stream from 0). -/
def Obligations.LzwWidthSchedule : Prop :=
  ∀ (input : List Byte) (k : Nat) (e : LzwEmission), (lzwEmissions input)[k]? = some e →
    e.width = min 12 (Nat.log2 (256 + k % 3841) + 1)

/-- R206, R211: a stream has at least one code and at most one per input byte, and every code fits in its width. -/
def Obligations.LzwCodesFitTheirWidths : Prop :=
  ∀ input : List Byte, input ≠ [] →
    1 ≤ (lzwEmissions input).length ∧ (lzwEmissions input).length ≤ input.length ∧
    ∀ e ∈ lzwEmissions input, e.code < 2 ^ e.width ∧ 9 ≤ e.width ∧ e.width ≤ 12

/-! ### The Rice encoder -/

/-- R234, R241: the parameter is the smallest `k` in `0..=8` that minimises `Σ (v >> k) + 1 + k` over the input; it is never 8. -/
def Obligations.RiceParameterIsTheSmallestMinimiser : Prop :=
  ∀ input : List Byte,
    (∀ j ≤ 8, (input.map (fun v => v.toNat / 2 ^ (riceSearch input).k + 1 + (riceSearch input).k)).sum ≤
      (input.map (fun v => v.toNat / 2 ^ j + 1 + j)).sum) ∧
    (∀ j < (riceSearch input).k,
      (input.map (fun v => v.toNat / 2 ^ (riceSearch input).k + 1 + (riceSearch input).k)).sum <
      (input.map (fun v => v.toNat / 2 ^ j + 1 + j)).sum) ∧
    (riceSearch input).k ≤ 7

/-! ### Round trips (R275), with the reference decoders -/

/-- The premises of R275 on a machine `s` about to be reset: a legal configuration, and an input range an encoder accepts. -/
def GoodInput (s : State) (base size : Word64) : Prop :=
  s.cfg.Legal ∧ 1 ≤ size.toNat ∧ size.toNat < 2 ^ s.cfg.lenBits ∧ base.toNat + size.toNat ≤ 2 ^ s.cfg.addrBits

/-- R275, R274 (Rice): the stream `RICE.ENC` leaves decodes to the input, with every bit consumed; with a smaller capacity, to its
beginning. And from reset, `RICE.ENC` ; `BSW.REL` with room for the stream round-trips. -/
def Obligations.RiceRoundTrip : Prop :=
  (∀ s : State, CanEncode s → RoomFor s (4 + riceTotal s.input (riceSearch s.input).k) →
    ∃ t, exec .riceEnc s = .next t ∧ t.status.fault = false ∧
      (riceDecode (t.w.wbuf.take ((t.w.bitsWritten + 7) / 8)) t.w.bitsWritten s.arg1.toNat =
        ⟨.ok s.input, t.w.bitsWritten⟩) ∧
      ∀ cap, 1 ≤ cap → cap < s.arg1.toNat →
        (riceDecode (t.w.wbuf.take ((t.w.bitsWritten + 7) / 8)) t.w.bitsWritten cap).outcome =
          .ok (s.input.take cap)) ∧
  ∀ (s : State) (base size : Word64) (input : List Byte), GoodInput s base size →
    Memory.bytes s.mem base.toNat size.toNat = input →
    RoomFor s.resetCore (4 + riceTotal input (riceSearch input).k) → RoundTrip .rice s base size

/-- R275, R266 (LZW): the stream `LZW.ENC` leaves decodes, with any capacity of at least the input length, to the input, with every
bit consumed. And from reset, `LZW.ENC` ; `BSW.REL` with room for the stream round-trips. -/
def Obligations.LzwRoundTrip : Prop :=
  (∀ s : State, CanEncode s → RoomFor s (lzwStream s.input).length →
    ∃ t, exec .lzwEnc s = .next t ∧ t.status.fault = false ∧
      ∀ cap, s.arg1.toNat ≤ cap →
        lzwDecode (t.w.wbuf.take ((t.w.bitsWritten + 7) / 8)) t.w.bitsWritten cap =
          ⟨.ok s.input, t.w.bitsWritten⟩) ∧
  ∀ (s : State) (base size : Word64) (input : List Byte), GoodInput s base size →
    Memory.bytes s.mem base.toNat size.toNat = input →
    RoomFor s.resetCore (lzwStream input).length → RoundTrip .lzw s base size

/-- R275, R258 (Huffman): the stream `HUF.ENC` leaves decodes to the input, and with a capacity below the input length to
`truncated` with its beginning. And from reset, `HUF.ENC` ; `BSW.REL` with room for the stream round-trips. The premise that the
tables are built is R176's limit, no code longer than 64 bits. -/
def Obligations.HuffmanRoundTrip : Prop :=
  (∀ (s : State) (h : HufScratch), CanEncode s → hufTables s.input = .ok h →
    RoomFor s (hufStream h s.input).length →
    ∃ t, exec .hufEnc s = .next t ∧ t.status.fault = false ∧
      ∀ cap, 1 ≤ cap →
        (huffDecode (t.w.wbuf.take ((t.w.bitsWritten + 7) / 8)) t.w.bitsWritten cap).outcome =
          if cap < s.arg1.toNat then .truncated (s.input.take cap) else .ok s.input) ∧
  ∀ (s : State) (base size : Word64) (input : List Byte) (h : HufScratch), GoodInput s base size →
    Memory.bytes s.mem base.toNat size.toNat = input → hufTables input = .ok h →
    RoomFor s.resetCore (hufStream h input).length → RoundTrip .huffman s base size

/-- R259: decoding the header alone gives a table whose entry `i` is the encoder's code of byte `i`, for every byte, present or
absent. -/
def Obligations.HuffmanHeaderRoundTrip : Prop :=
  ∀ (s : State) (h : HufScratch), CanEncode s → hufTables s.input = .ok h →
    RoomFor s (hufStream h s.input).length →
    ∃ t, exec .hufEnc s = .next t ∧
      huffDecodeHeader (t.w.wbuf.take ((t.w.bitsWritten + 7) / 8)) t.w.bitsWritten =
        some ((List.range 256).map (fun i => (poolAt h.pool i).code))

/-! ### The whole machine -/

/-- R33, R155, R356, R46: after reset, in every legal configuration, the invariants between commands hold and the log of
released records is empty. Of the clauses of `Inv`, that no scratch is held is the model's reading (log entry 2, DEDUCED); the
canonical form of `MEM` and what is said of `delivered` are about the model's own data (log entries 3 and 5). -/
def Obligations.ResetHasTheInvariants : Prop :=
  ∀ c : Config, c.Legal → Inv (State.resetWith c) ∧ (State.resetWith c).released = []

/-- R33, R65, R155, R356: every step from a state that has the invariants leaves a state that has them, whatever the host does.
The clauses of `Inv` that are the model's are those ResetHasTheInvariants names. -/
def Obligations.StepKeepsTheInvariants : Prop :=
  ∀ s t : State, Inv s → step s = .next t → Inv t

/-- R63, R23, R346, R341: no command changes `MEM`, `ARG0`, `ARG1`, the configuration, or anything of the host's side. -/
def Obligations.CommandsKeepMemArgsAndConfig : Prop :=
  ∀ (i : Instr) (s t : State), exec i s = .next t →
    t.mem = s.mem ∧ t.arg0 = s.arg0 ∧ t.arg1 = s.arg1 ∧ t.cfg = s.cfg ∧ t.pending = s.pending ∧
    t.readData = s.readData ∧ t.delivered = s.delivered

/-- The reader commands. -/
def IsReader (i : Instr) : Prop := i = .bsrOpen ∨ i = .bsrBit ∨ ∃ n, i = .bsrBits n

/-- R349: writer and encoder commands neither change nor read `S.r`; reader commands neither change nor read `S.w` or
`S.released`. (Not reading: on a state that differs there only, the command does the same to everything else.) -/
def Obligations.ReaderAndWriterAreIndependent : Prop :=
  (∀ (i : Instr) (s : State) (r : Reader), ¬ IsReader i →
    ∃ t, exec i s = .next t ∧ t.r = s.r ∧ exec i { s with r := r } = .next { t with r := r }) ∧
  (∀ (i : Instr) (s t : State) (w : Writer) (log : List Release), IsReader i → exec i s = .next t →
    t.w = s.w ∧ t.released = s.released ∧
    exec i { s with w := w, released := log } = .next { t with w := w, released := log })

/-- R31, R65, R355: the log only grows, by one record, and only `BSW.REL` makes it grow; no other command changes it. -/
def Obligations.OnlyReleaseWritesTheLog : Prop :=
  ∀ (i : Instr) (s t : State), exec i s = .next t →
    t.released = s.released ∨
    (i = .bswRel ∧ t.released = s.released ++ [⟨s.w.wbuf, s.w.bytesAllocated, s.w.bitsWritten⟩])

/-- R301: which command can raise which fault: `CAP_ALLOC` the commands that append, `CAP_CODE_LEN` and `CAP_NODE_POOL` only
`HUF.ENC`, `STR_UNEXPECTED_END` only `BSR.BITS`. -/
def Obligations.FaultsComeFromTheirCommands : Prop :=
  ∀ (i : Instr) (s t : State), exec i s = .next t → s.status.fault = false → t.status.fault = true →
    (t.status.cause = .capAlloc ∧ ((∃ b, i = .bswBit b) ∨ (∃ n, i = .bswBits n) ∨ i = .bswCode ∨ IsEncoder i)) ∨
    ((t.status.cause = .capCodeLen ∨ t.status.cause = .capNodePool) ∧ i = .hufEnc) ∨
    (t.status.cause = .strUnexpectedEnd ∧ ∃ n, i = .bsrBits n)

/-- R26, R305, R306: after a command `EOS` is 1 only if the command was a `BSR.BIT` that found no bit left, or was refused with `EOS`
already 1. -/
def Obligations.EosComesOnlyFromBsrBit : Prop :=
  ∀ (i : Instr) (s t : State), exec i s = .next t → t.status.eos = true →
    (i = .bsrBit ∧ s.r.sizeInBits ≤ s.r.bitsRead) ∨ (t.status.argErr = true ∧ s.status.eos = true)
end

