-- ==== Sys2Proof/Laws/State.lean ====
section
/-! SUPPORT. One lemma per field of `State` and of `STATUS` per update, true by unfolding, so that no later proof unfolds a
record update. -/

namespace Sys2Proof.Machine

/-! ### `complete` -/

@[simp] theorem complete_cfg (s : State) (r0 r1 : Word64) (e : Bool) :
    (s.complete r0 r1 e).cfg = s.cfg := rfl
@[simp] theorem complete_status (s : State) (r0 r1 : Word64) (e : Bool) :
    (s.complete r0 r1 e).status = s.status.completed e := rfl
@[simp] theorem complete_arg0 (s : State) (r0 r1 : Word64) (e : Bool) :
    (s.complete r0 r1 e).arg0 = s.arg0 := rfl
@[simp] theorem complete_arg1 (s : State) (r0 r1 : Word64) (e : Bool) :
    (s.complete r0 r1 e).arg1 = s.arg1 := rfl
@[simp] theorem complete_res0 (s : State) (r0 r1 : Word64) (e : Bool) :
    (s.complete r0 r1 e).res0 = r0 := rfl
@[simp] theorem complete_res1 (s : State) (r0 r1 : Word64) (e : Bool) :
    (s.complete r0 r1 e).res1 = r1 := rfl
@[simp] theorem complete_w (s : State) (r0 r1 : Word64) (e : Bool) :
    (s.complete r0 r1 e).w = s.w := rfl
@[simp] theorem complete_r (s : State) (r0 r1 : Word64) (e : Bool) :
    (s.complete r0 r1 e).r = s.r := rfl
@[simp] theorem complete_released (s : State) (r0 r1 : Word64) (e : Bool) :
    (s.complete r0 r1 e).released = s.released := rfl
@[simp] theorem complete_h (s : State) (r0 r1 : Word64) (e : Bool) :
    (s.complete r0 r1 e).h = s.h := rfl
@[simp] theorem complete_z (s : State) (r0 r1 : Word64) (e : Bool) :
    (s.complete r0 r1 e).z = s.z := rfl
@[simp] theorem complete_c (s : State) (r0 r1 : Word64) (e : Bool) :
    (s.complete r0 r1 e).c = s.c := rfl
@[simp] theorem complete_mem (s : State) (r0 r1 : Word64) (e : Bool) :
    (s.complete r0 r1 e).mem = s.mem := rfl
@[simp] theorem complete_pending (s : State) (r0 r1 : Word64) (e : Bool) :
    (s.complete r0 r1 e).pending = s.pending := rfl
@[simp] theorem complete_readData (s : State) (r0 r1 : Word64) (e : Bool) :
    (s.complete r0 r1 e).readData = s.readData := rfl
@[simp] theorem complete_delivered (s : State) (r0 r1 : Word64) (e : Bool) :
    (s.complete r0 r1 e).delivered = s.delivered := rfl
@[simp] theorem complete_draws (s : State) (r0 r1 : Word64) (e : Bool) :
    (s.complete r0 r1 e).draws = s.draws := rfl

/-! ### `refuse` -/

@[simp] theorem refuse_cfg (s : State) (k : Cause) :
    (s.refuse k).cfg = s.cfg := rfl
@[simp] theorem refuse_status (s : State) (k : Cause) :
    (s.refuse k).status = s.status.refused k := rfl
@[simp] theorem refuse_arg0 (s : State) (k : Cause) :
    (s.refuse k).arg0 = s.arg0 := rfl
@[simp] theorem refuse_arg1 (s : State) (k : Cause) :
    (s.refuse k).arg1 = s.arg1 := rfl
@[simp] theorem refuse_res0 (s : State) (k : Cause) :
    (s.refuse k).res0 = ones64 := rfl
@[simp] theorem refuse_res1 (s : State) (k : Cause) :
    (s.refuse k).res1 = 0 := rfl
@[simp] theorem refuse_w (s : State) (k : Cause) :
    (s.refuse k).w = s.w := rfl
@[simp] theorem refuse_r (s : State) (k : Cause) :
    (s.refuse k).r = s.r := rfl
@[simp] theorem refuse_released (s : State) (k : Cause) :
    (s.refuse k).released = s.released := rfl
@[simp] theorem refuse_h (s : State) (k : Cause) :
    (s.refuse k).h = s.h := rfl
@[simp] theorem refuse_z (s : State) (k : Cause) :
    (s.refuse k).z = s.z := rfl
@[simp] theorem refuse_c (s : State) (k : Cause) :
    (s.refuse k).c = s.c := rfl
@[simp] theorem refuse_mem (s : State) (k : Cause) :
    (s.refuse k).mem = s.mem := rfl
@[simp] theorem refuse_pending (s : State) (k : Cause) :
    (s.refuse k).pending = s.pending := rfl
@[simp] theorem refuse_readData (s : State) (k : Cause) :
    (s.refuse k).readData = s.readData := rfl
@[simp] theorem refuse_delivered (s : State) (k : Cause) :
    (s.refuse k).delivered = s.delivered := rfl
@[simp] theorem refuse_draws (s : State) (k : Cause) :
    (s.refuse k).draws = s.draws := rfl

/-! ### `raise` -/

@[simp] theorem raise_cfg (s : State) (k : Cause) (r0 r1 : Word64) :
    (s.raise k r0 r1).cfg = s.cfg := rfl
@[simp] theorem raise_status (s : State) (k : Cause) (r0 r1 : Word64) :
    (s.raise k r0 r1).status = s.status.faulted k := rfl
@[simp] theorem raise_arg0 (s : State) (k : Cause) (r0 r1 : Word64) :
    (s.raise k r0 r1).arg0 = s.arg0 := rfl
@[simp] theorem raise_arg1 (s : State) (k : Cause) (r0 r1 : Word64) :
    (s.raise k r0 r1).arg1 = s.arg1 := rfl
@[simp] theorem raise_res0 (s : State) (k : Cause) (r0 r1 : Word64) :
    (s.raise k r0 r1).res0 = r0 := rfl
@[simp] theorem raise_res1 (s : State) (k : Cause) (r0 r1 : Word64) :
    (s.raise k r0 r1).res1 = r1 := rfl
@[simp] theorem raise_w (s : State) (k : Cause) (r0 r1 : Word64) :
    (s.raise k r0 r1).w = s.w := rfl
@[simp] theorem raise_r (s : State) (k : Cause) (r0 r1 : Word64) :
    (s.raise k r0 r1).r = s.r := rfl
@[simp] theorem raise_released (s : State) (k : Cause) (r0 r1 : Word64) :
    (s.raise k r0 r1).released = s.released := rfl
@[simp] theorem raise_h (s : State) (k : Cause) (r0 r1 : Word64) :
    (s.raise k r0 r1).h = s.h := rfl
@[simp] theorem raise_z (s : State) (k : Cause) (r0 r1 : Word64) :
    (s.raise k r0 r1).z = s.z := rfl
@[simp] theorem raise_c (s : State) (k : Cause) (r0 r1 : Word64) :
    (s.raise k r0 r1).c = s.c := rfl
@[simp] theorem raise_mem (s : State) (k : Cause) (r0 r1 : Word64) :
    (s.raise k r0 r1).mem = s.mem := rfl
@[simp] theorem raise_pending (s : State) (k : Cause) (r0 r1 : Word64) :
    (s.raise k r0 r1).pending = s.pending := rfl
@[simp] theorem raise_readData (s : State) (k : Cause) (r0 r1 : Word64) :
    (s.raise k r0 r1).readData = s.readData := rfl
@[simp] theorem raise_delivered (s : State) (k : Cause) (r0 r1 : Word64) :
    (s.raise k r0 r1).delivered = s.delivered := rfl
@[simp] theorem raise_draws (s : State) (k : Cause) (r0 r1 : Word64) :
    (s.raise k r0 r1).draws = s.draws := rfl

/-! ### `raiseUnexpectedEnd` -/

@[simp] theorem raiseUnexpectedEnd_cfg (s : State) :
    (s.raiseUnexpectedEnd).cfg = s.cfg := rfl
@[simp] theorem raiseUnexpectedEnd_status (s : State) :
    (s.raiseUnexpectedEnd).status = s.status.faulted .strUnexpectedEnd := rfl
@[simp] theorem raiseUnexpectedEnd_arg0 (s : State) :
    (s.raiseUnexpectedEnd).arg0 = s.arg0 := rfl
@[simp] theorem raiseUnexpectedEnd_arg1 (s : State) :
    (s.raiseUnexpectedEnd).arg1 = s.arg1 := rfl
@[simp] theorem raiseUnexpectedEnd_res0 (s : State) :
    (s.raiseUnexpectedEnd).res0 = Config.freeRes0 s.draws := rfl
@[simp] theorem raiseUnexpectedEnd_res1 (s : State) :
    (s.raiseUnexpectedEnd).res1 = word64 s.r.bitsRead := rfl
@[simp] theorem raiseUnexpectedEnd_w (s : State) :
    (s.raiseUnexpectedEnd).w = s.w := rfl
@[simp] theorem raiseUnexpectedEnd_r (s : State) :
    (s.raiseUnexpectedEnd).r = s.r := rfl
@[simp] theorem raiseUnexpectedEnd_released (s : State) :
    (s.raiseUnexpectedEnd).released = s.released := rfl
@[simp] theorem raiseUnexpectedEnd_h (s : State) :
    (s.raiseUnexpectedEnd).h = s.h := rfl
@[simp] theorem raiseUnexpectedEnd_z (s : State) :
    (s.raiseUnexpectedEnd).z = s.z := rfl
@[simp] theorem raiseUnexpectedEnd_c (s : State) :
    (s.raiseUnexpectedEnd).c = s.c := rfl
@[simp] theorem raiseUnexpectedEnd_mem (s : State) :
    (s.raiseUnexpectedEnd).mem = s.mem := rfl
@[simp] theorem raiseUnexpectedEnd_pending (s : State) :
    (s.raiseUnexpectedEnd).pending = s.pending := rfl
@[simp] theorem raiseUnexpectedEnd_readData (s : State) :
    (s.raiseUnexpectedEnd).readData = s.readData := rfl
@[simp] theorem raiseUnexpectedEnd_delivered (s : State) :
    (s.raiseUnexpectedEnd).delivered = s.delivered := rfl
@[simp] theorem raiseUnexpectedEnd_draws (s : State) :
    (s.raiseUnexpectedEnd).draws = s.draws + 1 := rfl

/-! ### `dropHuf` -/

@[simp] theorem dropHuf_cfg (s : State) :
    (s.dropHuf).cfg = s.cfg := rfl
@[simp] theorem dropHuf_status (s : State) :
    (s.dropHuf).status = s.status := rfl
@[simp] theorem dropHuf_arg0 (s : State) :
    (s.dropHuf).arg0 = s.arg0 := rfl
@[simp] theorem dropHuf_arg1 (s : State) :
    (s.dropHuf).arg1 = s.arg1 := rfl
@[simp] theorem dropHuf_res0 (s : State) :
    (s.dropHuf).res0 = s.res0 := rfl
@[simp] theorem dropHuf_res1 (s : State) :
    (s.dropHuf).res1 = s.res1 := rfl
@[simp] theorem dropHuf_w (s : State) :
    (s.dropHuf).w = s.w := rfl
@[simp] theorem dropHuf_r (s : State) :
    (s.dropHuf).r = s.r := rfl
@[simp] theorem dropHuf_released (s : State) :
    (s.dropHuf).released = s.released := rfl
@[simp] theorem dropHuf_h (s : State) :
    (s.dropHuf).h = none := rfl
@[simp] theorem dropHuf_z (s : State) :
    (s.dropHuf).z = s.z := rfl
@[simp] theorem dropHuf_c (s : State) :
    (s.dropHuf).c = s.c := rfl
@[simp] theorem dropHuf_mem (s : State) :
    (s.dropHuf).mem = s.mem := rfl
@[simp] theorem dropHuf_pending (s : State) :
    (s.dropHuf).pending = s.pending := rfl
@[simp] theorem dropHuf_readData (s : State) :
    (s.dropHuf).readData = s.readData := rfl
@[simp] theorem dropHuf_delivered (s : State) :
    (s.dropHuf).delivered = s.delivered := rfl
@[simp] theorem dropHuf_draws (s : State) :
    (s.dropHuf).draws = s.draws := rfl

/-! ### `dropLzw` -/

@[simp] theorem dropLzw_cfg (s : State) :
    (s.dropLzw).cfg = s.cfg := rfl
@[simp] theorem dropLzw_status (s : State) :
    (s.dropLzw).status = s.status := rfl
@[simp] theorem dropLzw_arg0 (s : State) :
    (s.dropLzw).arg0 = s.arg0 := rfl
@[simp] theorem dropLzw_arg1 (s : State) :
    (s.dropLzw).arg1 = s.arg1 := rfl
@[simp] theorem dropLzw_res0 (s : State) :
    (s.dropLzw).res0 = s.res0 := rfl
@[simp] theorem dropLzw_res1 (s : State) :
    (s.dropLzw).res1 = s.res1 := rfl
@[simp] theorem dropLzw_w (s : State) :
    (s.dropLzw).w = s.w := rfl
@[simp] theorem dropLzw_r (s : State) :
    (s.dropLzw).r = s.r := rfl
@[simp] theorem dropLzw_released (s : State) :
    (s.dropLzw).released = s.released := rfl
@[simp] theorem dropLzw_h (s : State) :
    (s.dropLzw).h = s.h := rfl
@[simp] theorem dropLzw_z (s : State) :
    (s.dropLzw).z = none := rfl
@[simp] theorem dropLzw_c (s : State) :
    (s.dropLzw).c = s.c := rfl
@[simp] theorem dropLzw_mem (s : State) :
    (s.dropLzw).mem = s.mem := rfl
@[simp] theorem dropLzw_pending (s : State) :
    (s.dropLzw).pending = s.pending := rfl
@[simp] theorem dropLzw_readData (s : State) :
    (s.dropLzw).readData = s.readData := rfl
@[simp] theorem dropLzw_delivered (s : State) :
    (s.dropLzw).delivered = s.delivered := rfl
@[simp] theorem dropLzw_draws (s : State) :
    (s.dropLzw).draws = s.draws := rfl

/-! ### `dropRice` -/

@[simp] theorem dropRice_cfg (s : State) :
    (s.dropRice).cfg = s.cfg := rfl
@[simp] theorem dropRice_status (s : State) :
    (s.dropRice).status = s.status := rfl
@[simp] theorem dropRice_arg0 (s : State) :
    (s.dropRice).arg0 = s.arg0 := rfl
@[simp] theorem dropRice_arg1 (s : State) :
    (s.dropRice).arg1 = s.arg1 := rfl
@[simp] theorem dropRice_res0 (s : State) :
    (s.dropRice).res0 = s.res0 := rfl
@[simp] theorem dropRice_res1 (s : State) :
    (s.dropRice).res1 = s.res1 := rfl
@[simp] theorem dropRice_w (s : State) :
    (s.dropRice).w = s.w := rfl
@[simp] theorem dropRice_r (s : State) :
    (s.dropRice).r = s.r := rfl
@[simp] theorem dropRice_released (s : State) :
    (s.dropRice).released = s.released := rfl
@[simp] theorem dropRice_h (s : State) :
    (s.dropRice).h = s.h := rfl
@[simp] theorem dropRice_z (s : State) :
    (s.dropRice).z = s.z := rfl
@[simp] theorem dropRice_c (s : State) :
    (s.dropRice).c = none := rfl
@[simp] theorem dropRice_mem (s : State) :
    (s.dropRice).mem = s.mem := rfl
@[simp] theorem dropRice_pending (s : State) :
    (s.dropRice).pending = s.pending := rfl
@[simp] theorem dropRice_readData (s : State) :
    (s.dropRice).readData = s.readData := rfl
@[simp] theorem dropRice_delivered (s : State) :
    (s.dropRice).delivered = s.delivered := rfl
@[simp] theorem dropRice_draws (s : State) :
    (s.dropRice).draws = s.draws := rfl

/-! ### `started` -/

@[simp] theorem started_cfg (s : State) (rest : List HostAction) :
    (s.started rest).cfg = s.cfg := rfl
@[simp] theorem started_status (s : State) (rest : List HostAction) :
    (s.started rest).status = { s.status with busy := true } := rfl
@[simp] theorem started_arg0 (s : State) (rest : List HostAction) :
    (s.started rest).arg0 = s.arg0 := rfl
@[simp] theorem started_arg1 (s : State) (rest : List HostAction) :
    (s.started rest).arg1 = s.arg1 := rfl
@[simp] theorem started_res0 (s : State) (rest : List HostAction) :
    (s.started rest).res0 = s.res0 := rfl
@[simp] theorem started_res1 (s : State) (rest : List HostAction) :
    (s.started rest).res1 = s.res1 := rfl
@[simp] theorem started_w (s : State) (rest : List HostAction) :
    (s.started rest).w = s.w := rfl
@[simp] theorem started_r (s : State) (rest : List HostAction) :
    (s.started rest).r = s.r := rfl
@[simp] theorem started_released (s : State) (rest : List HostAction) :
    (s.started rest).released = s.released := rfl
@[simp] theorem started_h (s : State) (rest : List HostAction) :
    (s.started rest).h = s.h := rfl
@[simp] theorem started_z (s : State) (rest : List HostAction) :
    (s.started rest).z = s.z := rfl
@[simp] theorem started_c (s : State) (rest : List HostAction) :
    (s.started rest).c = s.c := rfl
@[simp] theorem started_mem (s : State) (rest : List HostAction) :
    (s.started rest).mem = s.mem := rfl
@[simp] theorem started_pending (s : State) (rest : List HostAction) :
    (s.started rest).pending = rest := rfl
@[simp] theorem started_readData (s : State) (rest : List HostAction) :
    (s.started rest).readData = s.readData := rfl
@[simp] theorem started_delivered (s : State) (rest : List HostAction) :
    (s.started rest).delivered = s.delivered := rfl
@[simp] theorem started_draws (s : State) (rest : List HostAction) :
    (s.started rest).draws = s.draws := rfl

/-! ### `withCommand` -/

@[simp] theorem withCommand_cfg (s : State) (w : Word32) :
    (s.withCommand w).cfg = s.cfg := rfl
@[simp] theorem withCommand_status (s : State) (w : Word32) :
    (s.withCommand w).status = s.status := rfl
@[simp] theorem withCommand_arg0 (s : State) (w : Word32) :
    (s.withCommand w).arg0 = s.arg0 := rfl
@[simp] theorem withCommand_arg1 (s : State) (w : Word32) :
    (s.withCommand w).arg1 = s.arg1 := rfl
@[simp] theorem withCommand_res0 (s : State) (w : Word32) :
    (s.withCommand w).res0 = s.res0 := rfl
@[simp] theorem withCommand_res1 (s : State) (w : Word32) :
    (s.withCommand w).res1 = s.res1 := rfl
@[simp] theorem withCommand_w (s : State) (w : Word32) :
    (s.withCommand w).w = s.w := rfl
@[simp] theorem withCommand_r (s : State) (w : Word32) :
    (s.withCommand w).r = s.r := rfl
@[simp] theorem withCommand_released (s : State) (w : Word32) :
    (s.withCommand w).released = s.released := rfl
@[simp] theorem withCommand_h (s : State) (w : Word32) :
    (s.withCommand w).h = s.h := rfl
@[simp] theorem withCommand_z (s : State) (w : Word32) :
    (s.withCommand w).z = s.z := rfl
@[simp] theorem withCommand_c (s : State) (w : Word32) :
    (s.withCommand w).c = s.c := rfl
@[simp] theorem withCommand_mem (s : State) (w : Word32) :
    (s.withCommand w).mem = s.mem := rfl
@[simp] theorem withCommand_pending (s : State) (w : Word32) :
    (s.withCommand w).pending = .write 0x00#8 .w32 (w.setWidth 64) :: s.pending := rfl
@[simp] theorem withCommand_readData (s : State) (w : Word32) :
    (s.withCommand w).readData = s.readData := rfl
@[simp] theorem withCommand_delivered (s : State) (w : Word32) :
    (s.withCommand w).delivered = s.delivered := rfl
@[simp] theorem withCommand_draws (s : State) (w : Word32) :
    (s.withCommand w).draws = s.draws := rfl

/-! ### `resetCore` -/

@[simp] theorem resetCore_cfg (s : State) :
    (s.resetCore).cfg = s.cfg := rfl
@[simp] theorem resetCore_status (s : State) :
    (s.resetCore).status = Status.reset := rfl
@[simp] theorem resetCore_arg0 (s : State) :
    (s.resetCore).arg0 = 0 := rfl
@[simp] theorem resetCore_arg1 (s : State) :
    (s.resetCore).arg1 = 0 := rfl
@[simp] theorem resetCore_res0 (s : State) :
    (s.resetCore).res0 = 0 := rfl
@[simp] theorem resetCore_res1 (s : State) :
    (s.resetCore).res1 = 0 := rfl
@[simp] theorem resetCore_w (s : State) :
    (s.resetCore).w = Writer.fresh s.cfg := rfl
@[simp] theorem resetCore_r (s : State) :
    (s.resetCore).r = Reader.empty := rfl
@[simp] theorem resetCore_released (s : State) :
    (s.resetCore).released = [] := rfl
@[simp] theorem resetCore_h (s : State) :
    (s.resetCore).h = none := rfl
@[simp] theorem resetCore_z (s : State) :
    (s.resetCore).z = none := rfl
@[simp] theorem resetCore_c (s : State) :
    (s.resetCore).c = none := rfl
@[simp] theorem resetCore_mem (s : State) :
    (s.resetCore).mem = s.mem := rfl
@[simp] theorem resetCore_pending (s : State) :
    (s.resetCore).pending = s.pending := rfl
@[simp] theorem resetCore_readData (s : State) :
    (s.resetCore).readData = s.readData := rfl
@[simp] theorem resetCore_delivered (s : State) :
    (s.resetCore).delivered = s.delivered ++ s.released := rfl
@[simp] theorem resetCore_draws (s : State) :
    (s.resetCore).draws = s.draws := rfl

/-! ### `STATUS` -/


@[simp] theorem Status_completed_busy (st : Status) (e : Bool) :
    (st.completed e).busy = false := rfl
@[simp] theorem Status_completed_fault (st : Status) (e : Bool) :
    (st.completed e).fault = st.fault := rfl
@[simp] theorem Status_completed_argErr (st : Status) (e : Bool) :
    (st.completed e).argErr = false := rfl
@[simp] theorem Status_completed_eos (st : Status) (e : Bool) :
    (st.completed e).eos = e := rfl
@[simp] theorem Status_completed_cause (st : Status) (e : Bool) :
    (st.completed e).cause = .none := rfl

@[simp] theorem Status_refused_busy (st : Status) (k : Cause) :
    (st.refused k).busy = false := rfl
@[simp] theorem Status_refused_fault (st : Status) (k : Cause) :
    (st.refused k).fault = st.fault := rfl
@[simp] theorem Status_refused_argErr (st : Status) (k : Cause) :
    (st.refused k).argErr = true := rfl
@[simp] theorem Status_refused_eos (st : Status) (k : Cause) :
    (st.refused k).eos = st.eos := rfl
@[simp] theorem Status_refused_cause (st : Status) (k : Cause) :
    (st.refused k).cause = if st.fault then st.cause else k := rfl

@[simp] theorem Status_faulted_busy (st : Status) (k : Cause) :
    (st.faulted k).busy = false := rfl
@[simp] theorem Status_faulted_fault (st : Status) (k : Cause) :
    (st.faulted k).fault = true := rfl
@[simp] theorem Status_faulted_argErr (st : Status) (k : Cause) :
    (st.faulted k).argErr = false := rfl
@[simp] theorem Status_faulted_eos (st : Status) (k : Cause) :
    (st.faulted k).eos = false := rfl
@[simp] theorem Status_faulted_cause (st : Status) (k : Cause) :
    (st.faulted k).cause = k := rfl

/-! ### The two counts -/

@[simp] theorem completeCounts_eq (s : State) :
    s.completeCounts = s.complete (word64 (ceil8 s.w.bitsWritten)) (word64 s.w.bitsWritten) false := rfl

@[simp] theorem raiseCounts_eq (k : Cause) (s : State) :
    s.raiseCounts k = s.raise k (word64 (ceil8 s.w.bitsWritten)) (word64 s.w.bitsWritten) := rfl

end Sys2Proof.Machine
end

