-- ==== Sys2Proof/Laws/Memory.lean ====
section
/-! SUPPORT. The laws of `MEM`: reads after a write, and that every memory operation keeps the canonical form. -/

namespace Sys2Proof.Machine

@[simp] theorem read_nil (a : Nat) : Memory.read [] a = memDefault := rfl

@[simp] theorem read_cons (k : Nat) (v : Byte) (m : Memory) (a : Nat) :
    Memory.read ((k, v) :: m) a = if k = a then v else Memory.read m a := rfl

theorem wf_nil : Memory.wf [] := by simp [Memory.wf]

theorem wf_cons {k : Nat} {v : Byte} {m : Memory} :
    Memory.wf ((k, v) :: m) ↔ (∀ x ∈ m, k < x.1) ∧ v ≠ memDefault ∧ Memory.wf m := by
  simp [Memory.wf, List.pairwise_cons]; tauto

/-- The machine right after reset has `MEM` in canonical form. -/
theorem reset_wf (c : Config) : Memory.wf (State.resetWith c).mem := wf_nil

/-- An address below every listed one is unlisted. -/
theorem read_of_lt {m : Memory} {a : Nat} (h : ∀ x ∈ m, a < x.1) : Memory.read m a = memDefault := by
  induction m with
  | nil => rfl
  | cons x m ih =>
    obtain ⟨k, v⟩ := x
    have hk : a < k := h (k, v) (by simp)
    rw [read_cons, if_neg (by omega)]
    exact ih fun x hx => h x (by simp [hx])

/-- An address no cell lists reads as the default. -/
theorem read_of_not_mem {m : Memory} {a : Nat} (h : ∀ x ∈ m, x.1 ≠ a) : Memory.read m a = memDefault := by
  induction m with
  | nil => rfl
  | cons x m ih =>
    obtain ⟨k, v⟩ := x
    rw [read_cons, if_neg (h (k, v) (by simp))]
    exact ih fun x hx => h x (by simp [hx])

theorem cell_mem {a : Nat} {v : Byte} {m : Memory} {x : Host.Cell} (h : x ∈ Memory.cell a v m) :
    x = (a, v) ∨ x ∈ m := by
  unfold Memory.cell at h
  split at h
  · exact .inr h
  · simpa using h

theorem wf_cell {a : Nat} {v : Byte} {m : Memory} (hm : Memory.wf m) (h : ∀ x ∈ m, a < x.1) :
    Memory.wf (Memory.cell a v m) := by
  unfold Memory.cell
  split
  · exact hm
  · exact wf_cons.2 ⟨h, ‹_›, hm⟩

theorem read_cell {a : Nat} {v : Byte} {m : Memory} (h : ∀ x ∈ m, a < x.1) (b : Nat) :
    Memory.read (Memory.cell a v m) b = if b = a then v else Memory.read m b := by
  unfold Memory.cell
  split
  · next hv =>
    split
    · next hb => rw [hb, read_of_lt h, hv]
    · rfl
  · rw [read_cons]
    by_cases hb : b = a
    · simp [hb]
    · rw [if_neg (by omega), if_neg hb]

/-- A write lists no address but the old ones and its own. -/
theorem write_mem {m : Memory} {a : Nat} {v : Byte} {x : Host.Cell} (h : x ∈ Memory.write m a v) :
    x = (a, v) ∨ x ∈ m := by
  induction m with
  | nil => exact cell_mem h
  | cons y m ih =>
    obtain ⟨k, w⟩ := y
    unfold Memory.write at h
    split at h
    · exact cell_mem h
    · split at h
      · rcases cell_mem h with h | h
        · exact .inl h
        · exact .inr (by simp [h])
      · rcases List.mem_cons.1 h with h | h
        · exact .inr (by simp [h])
        · rcases ih h with h | h
          · exact .inl h
          · exact .inr (by simp [h])

/-- A write keeps the canonical form. -/
theorem write_wf {m : Memory} (hm : Memory.wf m) (a : Nat) (v : Byte) : Memory.wf (Memory.write m a v) := by
  induction m with
  | nil => exact wf_cell wf_nil (by simp)
  | cons y m ih =>
    obtain ⟨k, w⟩ := y
    obtain ⟨hlt, hw, hm'⟩ := wf_cons.1 hm
    unfold Memory.write
    split
    · next ha =>
      refine wf_cell hm fun x hx => ?_
      rcases List.mem_cons.1 hx with rfl | hx
      · exact ha
      · exact Nat.lt_trans ha (hlt x hx)
    · split
      · next ha => exact wf_cell hm' (ha ▸ hlt)
      · refine wf_cons.2 ⟨fun x hx => ?_, hw, ih hm'⟩
        rcases write_mem hx with rfl | hx
        · simp only; omega
        · exact hlt x hx

/-- Read after write: the address written reads as the value, every other address as before. -/
theorem read_write {m : Memory} (hm : Memory.wf m) (a : Nat) (v : Byte) (b : Nat) :
    Memory.read (Memory.write m a v) b = if b = a then v else Memory.read m b := by
  induction m with
  | nil => exact read_cell (by simp) b
  | cons y m ih =>
    obtain ⟨k, w⟩ := y
    obtain ⟨hlt, hw, hm'⟩ := wf_cons.1 hm
    unfold Memory.write
    split
    · next ha =>
      refine read_cell (fun x hx => ?_) b
      rcases List.mem_cons.1 hx with rfl | hx
      · exact ha
      · exact Nat.lt_trans ha (hlt x hx)
    · split
      · next ha =>
        subst ha
        rw [read_cell hlt b, read_cons]
        split
        · rfl
        · rw [if_neg (by omega)]
      · rw [read_cons, read_cons, ih hm']
        by_cases hb : b = a
        · rw [if_pos hb, if_neg (by omega), if_pos hb]
        · rw [if_neg hb, if_neg hb]

theorem ofBytes_lt {base : Nat} {bytes : List Byte} {x : Host.Cell} (h : x ∈ Memory.ofBytes base bytes) :
    base ≤ x.1 ∧ x.1 < base + bytes.length := by
  induction bytes generalizing base with
  | nil => simp [Memory.ofBytes] at h
  | cons v rest ih =>
    rcases cell_mem h with rfl | h
    · simp
    · have := ih h
      simp only [List.length_cons]; omega

/-- `MEM` built from a byte string is in canonical form. -/
theorem ofBytes_wf (base : Nat) (bytes : List Byte) : Memory.wf (Memory.ofBytes base bytes) := by
  induction bytes generalizing base with
  | nil => exact wf_nil
  | cons v rest ih =>
    exact wf_cell (ih _) fun x hx => by have := ofBytes_lt hx; omega

/-- `MEM` built from a byte string reads as that string. -/
theorem read_ofBytes (base : Nat) (bytes : List Byte) (i : Nat) :
    Memory.read (Memory.ofBytes base bytes) (base + i) = bytes.getD i memDefault := by
  induction bytes generalizing base i with
  | nil => simp [Memory.ofBytes]
  | cons v rest ih =>
    rw [Memory.ofBytes, read_cell fun x hx => by have := ofBytes_lt hx; omega]
    cases i with
    | zero => simp
    | succ i =>
      rw [if_neg (by omega), show base + (i + 1) = base + 1 + i by omega, ih]
      simp

/-- The input of an encoder has the length the host gave. -/
@[simp] theorem bytes_length (m : Memory) (base size : Nat) : (Memory.bytes m base size).length = size := by
  simp [Memory.bytes]

/-- `input[i]` is `MEM(base + i)` (R70). -/
theorem bytes_getD {m : Memory} {base size i : Nat} (h : i < size) :
    (Memory.bytes m base size).getD i 0 = Memory.read m (base + i) := by
  simp [Memory.bytes, List.getD, h]

end Sys2Proof.Machine
end

