-- ==== Sys2Proof/Laws/Writer.lean ====
section
/-! SUPPORT. Everything the writer's primitives can do, said once: bit by bit, for one bit, for a sequence of bits, and
when growth stops them (40_bitstream_writer.md R131, R132). -/

namespace Sys2Proof.Machine

/-! ### Bits of values -/

@[simp] theorem lsbBits_length (v n : Nat) : (lsbBits v n).length = n := by simp [lsbBits]

theorem lsbBits_getD (v n i : Nat) : (lsbBits v n).getD i false = (decide (i < n) && v.testBit i) := by
  by_cases h : i < n <;> simp [lsbBits, List.getD, h]

@[simp] theorem msbBits_length (v n : Nat) : (msbBits v n).length = n := by simp [msbBits]

@[simp] theorem lsbBits_zero (v : Nat) : lsbBits v 0 = [] := rfl

/-- `ceil8` is the number of bytes that hold the bits. -/
theorem ceil8_le_iff (n b : Nat) : ceil8 n ≤ b ↔ n ≤ 8 * b := by
  unfold ceil8; omega

/-! ### Stream positions of a byte array -/

theorem bitAt_of_ge {bytes : List Byte} {p : Nat} (h : 8 * bytes.length ≤ p) : bitAt bytes p = false := by
  have : bytes.length ≤ p / 8 := by omega
  simp [bitAt, List.getD, List.getElem?_eq_none this]

theorem bitAt_append_zeros (bytes : List Byte) (n p : Nat) :
    bitAt (bytes ++ List.replicate n 0) p = bitAt bytes p := by
  unfold bitAt
  by_cases h : p / 8 < bytes.length
  · rw [List.getD_eq_getElem?_getD, List.getElem?_append_left h, ← List.getD_eq_getElem?_getD]
  · have h' : bytes.length ≤ p / 8 := by omega
    rw [List.getD_eq_getElem?_getD, List.getElem?_append_right h', List.getD_eq_getElem?_getD,
      List.getElem?_eq_none h']
    by_cases h2 : p / 8 - bytes.length < n <;> simp [h2]

theorem bitAt_replicate_zero (n p : Nat) : bitAt (List.replicate n 0) p = false := by
  simp [bitAt]

/-- A prefix of the bytes has the same bits. -/
theorem bitAt_take {bytes : List Byte} {n p : Nat} (h : p < 8 * n) : bitAt (bytes.take n) p = bitAt bytes p := by
  have : p / 8 < n := by omega
  simp [bitAt, List.getD, this]

theorem getLsbD_bitMask (b : Bool) (i j : Nat) (hi : i < 8) (hj : j < 8) :
    (BitVec.ofNat 8 (b.toNat <<< i)).getLsbD j = (decide (j = i) && b) := by
  cases b <;> interval_cases i <;> interval_cases j <;> rfl

theorem putBit_bitAt {w : Writer} {b : Bool} (hlen : w.bitsWritten < 8 * w.wbuf.length)
    (hz : bitAt w.wbuf w.bitsWritten = false) (p : Nat) :
    bitAt (w.putBit b).wbuf p = if p = w.bitsWritten then b else bitAt w.wbuf p := by
  have hq : w.bitsWritten / 8 < w.wbuf.length := by omega
  unfold bitAt Writer.putBit at *
  simp only [List.getD_eq_getElem?_getD, List.getElem?_modify, Option.map_eq_map] at *
  by_cases hp : w.bitsWritten / 8 = p / 8
  · have hmod : p ≠ w.bitsWritten → ¬ p % 8 = w.bitsWritten % 8 := by omega
    rw [← hp] at *
    simp only [if_true, List.getElem?_eq_getElem hq, Option.map_some, Option.getD_some] at *
    rw [BitVec.getLsbD_or, getLsbD_bitMask _ _ _ (Nat.mod_lt _ (by omega)) (Nat.mod_lt _ (by omega))]
    by_cases hpp : p = w.bitsWritten
    · subst hpp; simp [hz]
    · rw [if_neg hpp]
      simp [hmod hpp]
  · rw [if_neg (by rintro rfl; exact hp rfl)]
    simp [hp]

@[simp] theorem putBit_length (b : Bool) (w : Writer) : (w.putBit b).wbuf.length = w.wbuf.length := by
  simp [Writer.putBit]

@[simp] theorem putBit_bitsWritten (b : Bool) (w : Writer) : (w.putBit b).bitsWritten = w.bitsWritten + 1 := rfl

@[simp] theorem putBit_bytesAllocated (b : Bool) (w : Writer) :
    (w.putBit b).bytesAllocated = w.bytesAllocated := rfl

/-! ### A writer that can take a bit -/

/-- The writer invariants of R33 with no fault (d), and the bounds of `bytes_allocated`. -/
def Writer.Ready (c : Config) (w : Writer) : Prop :=
  BufferInv w.wbuf w.bytesAllocated w.bitsWritten ∧ w.bitsWritten < 8 * w.bytesAllocated ∧
    1 ≤ w.bytesAllocated ∧ w.bytesAllocated ≤ c.bufMaxBytes

/-- Positions past the buffer read 0 too, so the zeros of R33 (b) go on for ever. -/
theorem bufferInv_zero {bytes : List Byte} {a n p : Nat} (h : BufferInv bytes a n) (hp : n ≤ p) :
    bitAt bytes p = false := by
  by_cases hlt : p < 8 * a
  · exact h.2.2 p hlt hp
  · exact bitAt_of_ge (by rw [h.1]; omega)

theorem writerInv_ready {s : State} (h : WriterInv s) (hf : s.status.fault = false) : s.w.Ready s.cfg :=
  ⟨h.1, h.2.2.2 hf, h.2.1, h.2.2.1⟩

theorem two_le_growthFactor (c : Config) : 2 ≤ growthFactor c := Nat.le_max_left ..

theorem extends_nil {c : Config} {w : Writer} (h : w.Ready c) : Extends w w [] := by
  refine ⟨by simp, fun p => ?_⟩
  split
  · rfl
  · simpa using bufferInv_zero h.1 (by omega)

theorem extends_cons {w w' w'' : Writer} {b : Bool} {rest : List Bool} (h : Extends w w' [b])
    (h' : Extends w' w'' rest) : Extends w w'' (b :: rest) := by
  obtain ⟨h1, h2⟩ := h
  obtain ⟨h1', h2'⟩ := h'
  simp only [List.length_cons, List.length_nil] at h1
  refine ⟨by rw [h1', h1, List.length_cons]; omega, fun p => ?_⟩
  rw [h2', h2, h1]
  by_cases hp : p < w.bitsWritten
  · rw [if_pos (by omega), if_pos hp, if_pos hp]
  · rw [if_neg hp, if_neg hp]
    by_cases hq : p = w.bitsWritten
    · subst hq; simp
    · rw [if_neg (by omega), show p - w.bitsWritten = (p - (w.bitsWritten + (0 + 1))) + 1 by omega]
      simp

/-- Everything `append_bit` can do (R131, R132). Either it is done: the bit is appended, the writer is ready again,
and `bytes_allocated` is kept, or multiplied by the growth factor when the buffer was filled. Or the buffer was filled and
growth would pass `BUF_MAX_BYTES`: the bit is appended all the same. -/
theorem appendBit_cases {c : Config} {w : Writer} (h : w.Ready c) (b : Bool) :
    (∃ w', w.appendBit c b = .done w' ∧ Extends w w' [b] ∧ w'.Ready c ∧
      ((w.bitsWritten + 1 < 8 * w.bytesAllocated ∧ w'.bytesAllocated = w.bytesAllocated) ∨
        (w.bitsWritten + 1 = 8 * w.bytesAllocated ∧
          w'.bytesAllocated = w.bytesAllocated * growthFactor c))) ∨
    (w.appendBit c b = .full (w.putBit b) ∧ Extends w (w.putBit b) [b] ∧
      w.bitsWritten + 1 = 8 * w.bytesAllocated ∧ c.bufMaxBytes < w.bytesAllocated * growthFactor c) := by
  have hz : ∀ p, w.bitsWritten ≤ p → bitAt w.wbuf p = false := fun p hp => bufferInv_zero h.1 hp
  obtain ⟨⟨hlen, hle, -⟩, hlt, hone, hmax⟩ := h
  have hput : ∀ p, bitAt (w.putBit b).wbuf p = if p = w.bitsWritten then b else bitAt w.wbuf p :=
    putBit_bitAt (by omega) (hz _ (by omega))
  have hext : Extends w (w.putBit b) [b] := by
    refine ⟨by simp, fun p => ?_⟩
    rw [hput]
    by_cases hp : p < w.bitsWritten
    · rw [if_pos hp, if_neg (by omega)]
    · rw [if_neg hp]
      by_cases hq : p = w.bitsWritten
      · subst hq; simp
      · rw [if_neg hq, hz p (by omega)]
        have : p - w.bitsWritten ≠ 0 := by omega
        obtain ⟨k, hk⟩ := Nat.exists_eq_succ_of_ne_zero this
        simp [hk]
  have hzero : ∀ p, w.bitsWritten + 1 ≤ p → bitAt (w.putBit b).wbuf p = false := fun p hp => by
    rw [hput, if_neg (by omega)]; exact hz p (by omega)
  unfold Writer.appendBit
  by_cases hfull : (w.putBit b).bitsWritten = 8 * (w.putBit b).bytesAllocated
  · rw [if_pos hfull]
    simp only [putBit_bitsWritten, putBit_bytesAllocated] at hfull
    unfold Writer.grow
    by_cases hbig : c.bufMaxBytes < (w.putBit b).bytesAllocated * growthFactor c
    · rw [if_pos hbig]
      exact .inr ⟨rfl, hext, hfull, hbig⟩
    · rw [if_neg hbig]
      simp only [putBit_bytesAllocated, Nat.not_lt] at hbig
      have hg : w.bytesAllocated * 2 ≤ w.bytesAllocated * growthFactor c :=
        Nat.mul_le_mul_left _ (two_le_growthFactor c)
      refine .inl ⟨_, rfl, ⟨hext.1, fun p => ?_⟩, ⟨⟨?_, ?_, fun p _ hp => ?_⟩, ?_, ?_, ?_⟩, .inr ⟨hfull, rfl⟩⟩
      · exact (bitAt_append_zeros ..).trans (hext.2 p)
      · simp only [List.length_append, putBit_length, List.length_replicate, putBit_bytesAllocated]; omega
      · simp only [putBit_bitsWritten, putBit_bytesAllocated]; omega
      · exact (bitAt_append_zeros ..).trans (hzero p hp)
      · simp only [putBit_bitsWritten, putBit_bytesAllocated]; omega
      · simp only [putBit_bytesAllocated]; omega
      · exact hbig
  · rw [if_neg hfull]
    simp only [putBit_bitsWritten, putBit_bytesAllocated] at hfull
    refine .inl ⟨_, rfl, hext, ⟨⟨by simpa using hlen, ?_, fun p _ => hzero p⟩, ?_, hone, hmax⟩, .inl ⟨by omega, rfl⟩⟩
    · simp only [putBit_bitsWritten, putBit_bytesAllocated]; omega
    · simp only [putBit_bitsWritten, putBit_bytesAllocated]; omega

@[simp] theorem appendBits_nil (c : Config) (w : Writer) : w.appendBits c [] = .done w := rfl

theorem appendBits_cons (c : Config) (b : Bool) (rest : List Bool) (w : Writer) :
    w.appendBits c (b :: rest) =
      match w.appendBit c b with
      | .done w' => w'.appendBits c rest
      | .full w' => .full w' := rfl

/-- Appending one sequence after another is appending their concatenation (R134). -/
theorem appendBits_append (c : Config) (xs ys : List Bool) (w : Writer) :
    w.appendBits c (xs ++ ys) =
      match w.appendBits c xs with
      | .done w' => w'.appendBits c ys
      | .full w' => .full w' := by
  induction xs generalizing w with
  | nil => rfl
  | cons b xs ih =>
    rw [List.cons_append, appendBits_cons, appendBits_cons]
    cases w.appendBit c b with
    | done w' => exact ih w'
    | full w' => rfl

/-- What a sequence of appends that is done has done. -/
theorem appendBits_done {c : Config} {w w' : Writer} {bits : List Bool} (h : w.Ready c)
    (hd : w.appendBits c bits = .done w') : Extends w w' bits ∧ w'.Ready c := by
  induction bits generalizing w with
  | nil =>
    obtain rfl : w = w' := by simpa using hd
    exact ⟨extends_nil h, h⟩
  | cons b rest ih =>
    rw [appendBits_cons] at hd
    rcases appendBit_cases h b with ⟨w1, h1, hx, hr, -⟩ | ⟨h1, -, -, -⟩
    · rw [h1] at hd
      obtain ⟨hx', hr'⟩ := ih hr hd
      exact ⟨extends_cons hx hx', hr'⟩
    · rw [h1] at hd; cases hd

/-- What a sequence of appends that `CAP_ALLOC` stops has done: some first `m ≥ 1` of the bits are appended, and they fill
the buffer (R132, R316). -/
theorem appendBits_full {c : Config} {w w' : Writer} {bits : List Bool} (h : w.Ready c)
    (hd : w.appendBits c bits = .full w') :
    ∃ m, 1 ≤ m ∧ m ≤ bits.length ∧ Extends w w' (bits.take m) ∧ w'.bitsWritten = 8 * w'.bytesAllocated ∧
      w'.wbuf.length = w'.bytesAllocated ∧ 1 ≤ w'.bytesAllocated ∧ w'.bytesAllocated ≤ c.bufMaxBytes ∧
      c.bufMaxBytes < w'.bytesAllocated * growthFactor c := by
  induction bits generalizing w with
  | nil => simp at hd
  | cons b rest ih =>
    rw [appendBits_cons] at hd
    rcases appendBit_cases h b with ⟨w1, h1, hx, hr, -⟩ | ⟨h1, hx, hf, hb⟩
    · rw [h1] at hd
      obtain ⟨m, hm, hml, hx', rest'⟩ := ih hr hd
      exact ⟨m + 1, by omega, by simp only [List.length_cons]; omega, by simpa using extends_cons hx hx', rest'⟩
    · rw [h1] at hd
      obtain rfl : w.putBit b = w' := by simpa using hd
      exact ⟨1, le_refl _, by simp, by simpa using hx, by simpa using hf, by simpa using h.1.1,
        h.2.2.1, h.2.2.2, hb⟩

/-- `n` more bits fit after some number of growths within `BUF_MAX_BYTES` (the writer part of `RoomFor`). -/
def Writer.Room (c : Config) (w : Writer) (n : Nat) : Prop :=
  ∃ j, w.bytesAllocated * growthFactor c ^ j ≤ c.bufMaxBytes ∧
    w.bitsWritten + n < 8 * (w.bytesAllocated * growthFactor c ^ j)

theorem roomFor_iff (s : State) (n : Nat) : RoomFor s n ↔ s.w.Room s.cfg n := Iff.rfl

/-- Less fits where more does. -/
theorem Writer.Room.mono {c : Config} {w : Writer} {n m : Nat} (h : w.Room c n) (hm : m ≤ n) : w.Room c m := by
  obtain ⟨j, h1, h2⟩ := h
  exact ⟨j, h1, by omega⟩

/-- A sequence of appends is done exactly when it has room. -/
theorem appendBits_done_iff {c : Config} {w : Writer} {bits : List Bool} (h : w.Ready c) :
    (∃ w', w.appendBits c bits = .done w') ↔ w.Room c bits.length := by
  have hg := two_le_growthFactor c
  induction bits generalizing w with
  | nil =>
    simp only [appendBits_nil, Append.done.injEq, exists_eq', true_iff]
    exact ⟨0, by simpa using h.2.2.2, by simpa using h.2.1⟩
  | cons b rest ih =>
    rw [appendBits_cons]
    rcases appendBit_cases h b with ⟨w1, h1, hx, hr, hcase⟩ | ⟨h1, -, hf, hb⟩
    · rw [h1]
      refine (ih hr).trans ?_
      have hbits : w1.bitsWritten = w.bitsWritten + 1 := by simpa using hx.1
      rcases hcase with ⟨-, ha⟩ | ⟨hfill, ha⟩
      · simp only [Writer.Room, hbits, ha, List.length_cons]
        constructor <;> rintro ⟨j, h2, h3⟩ <;> exact ⟨j, h2, by omega⟩
      · have hpow : ∀ j, w.bytesAllocated * growthFactor c * growthFactor c ^ j =
            w.bytesAllocated * growthFactor c ^ (j + 1) := fun j => by ring
        constructor
        · rintro ⟨j, h2, h3⟩
          rw [ha, hpow] at h2 h3
          exact ⟨j + 1, h2, by simp only [List.length_cons]; omega⟩
        · rintro ⟨j, h2, h3⟩
          simp only [List.length_cons] at h3
          cases j with
          | zero => simp at h3; omega
          | succ j =>
            rw [← hpow] at h2 h3
            exact ⟨j, by rwa [ha], by rw [ha]; omega⟩
    · rw [h1]
      simp only [reduceCtorEq, exists_false, false_iff]
      rintro ⟨j, h2, h3⟩
      simp only [List.length_cons] at h3
      cases j with
      | zero => simp at h3; omega
      | succ j =>
        have : w.bytesAllocated * growthFactor c ≤ w.bytesAllocated * growthFactor c ^ (j + 1) := by
          refine Nat.mul_le_mul_left _ ?_
          calc growthFactor c = growthFactor c ^ 1 := (Nat.pow_one _).symm
            _ ≤ _ := Nat.pow_le_pow_right (by omega) (by omega)
        omega

/-- A freshly constructed writer is ready in every legal configuration (R46). -/
theorem fresh_ready {c : Config} (h : c.Legal) : (Writer.fresh c).Ready c := by
  obtain ⟨h1, -, -, -, -, h6, -⟩ := h
  refine ⟨⟨by simp [Writer.fresh], by simp [Writer.fresh], fun p _ _ => bitAt_replicate_zero _ _⟩, ?_, h1, h6⟩
  simp only [Writer.fresh]; omega

end Sys2Proof.Machine
end

