-- ==== Sys2Proof/Laws/Reader.lean ====
section
/-! SUPPORT. Everything the reader's primitives can do, said once (41_bitstream_reader.md R152, R154). -/

namespace Sys2Proof.Machine

theorem readBit_some {m : Memory} {r : Reader} (h : r.bitsRead < r.sizeInBits) :
    r.readBit m = some (r.bitOf m r.bitsRead, { r with bitsRead := r.bitsRead + 1 }) := if_pos h

theorem readBit_none {m : Memory} {r : Reader} (h : r.sizeInBits ≤ r.bitsRead) : r.readBit m = none :=
  if_neg (by omega)

@[simp] theorem bitOf_setBitsRead (m : Memory) (r : Reader) (n p : Nat) :
    ({ r with bitsRead := n } : Reader).bitOf m p = r.bitOf m p := rfl

theorem getLsbD_bitWord (b : Bool) (i j : Nat) (hj : j < 64) :
    (BitVec.ofNat 64 b.toNat <<< i).getLsbD j = (decide (j = i) && b) := by
  have h0 : ∀ k, k ≠ 0 → (BitVec.ofNat 64 b.toNat).getLsbD k = false := by
    intro k hk
    obtain ⟨k, rfl⟩ := Nat.exists_eq_succ_of_ne_zero hk
    cases b <;> simp [BitVec.getLsbD_ofNat, Nat.testBit_succ]
  rw [BitVec.getLsbD_shiftLeft]
  by_cases h : j = i
  · subst h; cases b <;> simp [hj]
  · by_cases h' : j < i
    · simp [h, h']
    · simp [h, h0 (j - i) (by omega)]

/-- `read_bits` with enough bits left: the value, bit by bit, and the bits consumed. -/
theorem readBitsFrom_some {m : Memory} {n : Nat} :
    ∀ {i : Nat} {v : Word64} {r : Reader}, r.bitsRead + n ≤ r.sizeInBits → i + n ≤ 64 →
      ∃ v', r.readBitsFrom m n i v = (some v', { r with bitsRead := r.bitsRead + n }) ∧
        ∀ j < 64, v'.getLsbD j =
          (v.getLsbD j || (decide (i ≤ j ∧ j < i + n) && r.bitOf m (r.bitsRead + (j - i)))) := by
  induction n with
  | zero =>
    intro i v r _ _
    refine ⟨v, rfl, fun j _ => ?_⟩
    simp
  | succ n ih =>
    intro i v r hr hi
    have hlt : r.bitsRead < r.sizeInBits := by omega
    obtain ⟨v', h1, h2⟩ := ih (i := i + 1) (v := v ||| (BitVec.ofNat 64 (r.bitOf m r.bitsRead).toNat <<< i))
      (r := { r with bitsRead := r.bitsRead + 1 }) (by simp only; omega) (by omega)
    refine ⟨v', ?_, fun j hj => ?_⟩
    · rw [Reader.readBitsFrom, readBit_some hlt]
      simp only [h1, Prod.mk.injEq, true_and, Reader.mk.injEq]
      omega
    · rw [h2 j hj, BitVec.getLsbD_or, getLsbD_bitWord _ _ _ hj, bitOf_setBitsRead, Bool.or_assoc]
      congr 1
      by_cases hji : j = i
      · subst hji
        simp
      · by_cases hin : i + 1 ≤ j ∧ j < i + 1 + n
        · have h2 : i ≤ j ∧ j < i + (n + 1) := by omega
          have h3 : r.bitsRead + 1 + (j - (i + 1)) = r.bitsRead + (j - i) := by omega
          simp [hji, hin, h2, h3]
        · have h2 : ¬ (i ≤ j ∧ j < i + (n + 1)) := by omega
          rw [decide_eq_false hin, decide_eq_false h2, decide_eq_false hji]
          rfl

/-- `read_bits` with too few bits left: no value, the available bits consumed. -/
theorem readBitsFrom_none {m : Memory} {n : Nat} :
    ∀ {i : Nat} {v : Word64} {r : Reader}, r.bitsRead ≤ r.sizeInBits → r.sizeInBits < r.bitsRead + n →
      r.readBitsFrom m n i v = (none, { r with bitsRead := r.sizeInBits }) := by
  induction n with
  | zero => intro i v r h1 h2; omega
  | succ n ih =>
    intro i v r h1 h2
    rw [Reader.readBitsFrom]
    by_cases hlt : r.bitsRead < r.sizeInBits
    · rw [readBit_some hlt]
      exact ih (r := { r with bitsRead := r.bitsRead + 1 }) hlt (by simp only; omega)
    · rw [readBit_none (by omega)]
      obtain ⟨base, size, pos⟩ := r
      obtain rfl : pos = size := by simp only at *; omega
      rfl

/-- `read_bits(n)`, `n ≤ 64`, with enough bits left (R154). -/
theorem readBits_some {m : Memory} {n : Nat} {r : Reader} (hr : r.bitsRead + n ≤ r.sizeInBits) (hn : n ≤ 64) :
    ∃ v, r.readBits m n = (some v, { r with bitsRead := r.bitsRead + n }) ∧
      ∀ j < 64, v.getLsbD j = (decide (j < n) && r.bitOf m (r.bitsRead + j)) := by
  obtain ⟨v, h1, h2⟩ := readBitsFrom_some (m := m) (i := 0) (v := 0) hr (by omega)
  exact ⟨v, h1, fun j hj => by rw [h2 j hj]; simp⟩

/-- `read_bits(n)` with too few bits left (R154). -/
theorem readBits_none {m : Memory} {n : Nat} {r : Reader} (hle : r.bitsRead ≤ r.sizeInBits)
    (hn : r.sizeInBits < r.bitsRead + n) : r.readBits m n = (none, { r with bitsRead := r.sizeInBits }) :=
  readBitsFrom_none hle hn

/-- A slice `BSR.OPEN` accepted (R155) never leaves `MEM`. -/
theorem lastByte_lt {s : State} (h : ReaderInv s) {n a : Nat} (ha : s.r.lastByte n = some a) :
    a < memBytes s.cfg := by
  obtain ⟨-, -, -, h4⟩ := h
  unfold Reader.lastByte at ha
  split at ha
  · next hlt =>
    simp only [Option.some.injEq] at ha
    unfold ceil8 at h4
    have : min (s.r.bitsRead + n) s.r.sizeInBits ≤ s.r.sizeInBits := Nat.min_le_right ..
    omega
  · cases ha

theorem withSlice_next {s : State} (h : ReaderInv s) (n : Nat) (t : State) : s.withSlice n t = .next t := by
  unfold State.withSlice
  split
  · next a ha => rw [if_pos (lastByte_lt h ha)]
  · rfl

/-- A reader command on a slice ends in `next`, or in the model's stop when the slice leaves `MEM`. -/
theorem withSlice_cases (s : State) (n : Nat) (t : State) :
    s.withSlice n t = .next t ∨ ∃ a, s.withSlice n t = .fault (.noSuchAddress a) := by
  unfold State.withSlice
  split
  · split
    · exact .inl rfl
    · exact .inr ⟨_, rfl⟩
  · exact .inl rfl

end Sys2Proof.Machine
end

