-- ==== Sys2Proof/Laws/Exec.lean ====
section
/-! SUPPORT. Everything a command can do, said once: the shared ends of a command, and one inversion lemma over all
commands. -/

namespace Sys2Proof.Machine

/-! ### The decode order and the shared ends -/

theorem unlessFaulted_fault {s : State} (h : s.status.fault = true) (o : Host.Outcome State Fault Refusal) :
    s.unlessFaulted o = .next (s.refuse .argFaulted) := if_pos h

theorem unlessFaulted_ok {s : State} (h : s.status.fault = false) (o : Host.Outcome State Fault Refusal) :
    s.unlessFaulted o = o := if_neg (by simp [h])

theorem appendAndEnd_done {s : State} {bits : List Bool} {w : Writer} (h : s.w.appendBits s.cfg bits = .done w) :
    s.appendAndEnd bits = ({ s with w := w } : State).completeCounts := by
  rw [State.appendAndEnd, h]

theorem appendAndEnd_full {s : State} {bits : List Bool} {w : Writer} (h : s.w.appendBits s.cfg bits = .full w) :
    s.appendAndEnd bits = ({ s with w := w } : State).raiseCounts .capAlloc := by
  rw [State.appendAndEnd, h]

/-- With room for the bits, an append command completes: the bits follow those of the writer, which stays ready; `RES0` and
`RES1` are the counts; nothing else changes (R130, R133). -/
theorem appendAndEnd_room {s : State} {bits : List Bool} (hw : s.w.Ready s.cfg) (hr : s.w.Room s.cfg bits.length) :
    ∃ w, Extends s.w w bits ∧ w.Ready s.cfg ∧
      s.appendAndEnd bits =
        ({ s with w := w } : State).complete (word64 (ceil8 w.bitsWritten)) (word64 w.bitsWritten) false := by
  obtain ⟨w, hd⟩ := (appendBits_done_iff hw).2 hr
  obtain ⟨hx, hw'⟩ := appendBits_done hw hd
  exact ⟨w, hx, hw', appendAndEnd_done hd⟩

/-- Without room, it ends in `CAP_ALLOC`: some first `m` of the bits are appended and fill the buffer; `RES0` and
`RES1` are the counts at that moment (R132, R311). -/
theorem appendAndEnd_noRoom {s : State} {bits : List Bool} (hw : s.w.Ready s.cfg)
    (hr : ¬ s.w.Room s.cfg bits.length) :
    ∃ w m, 1 ≤ m ∧ m ≤ bits.length ∧ Extends s.w w (bits.take m) ∧ w.bitsWritten = 8 * w.bytesAllocated ∧
      w.wbuf.length = w.bytesAllocated ∧ 1 ≤ w.bytesAllocated ∧ w.bytesAllocated ≤ s.cfg.bufMaxBytes ∧
      s.cfg.bufMaxBytes < w.bytesAllocated * growthFactor s.cfg ∧
      s.appendAndEnd bits = ({ s with w := w } : State).raise .capAlloc (word64 (ceil8 w.bitsWritten))
        (word64 w.bitsWritten) := by
  cases hd : s.w.appendBits s.cfg bits with
  | done w => exact absurd ((appendBits_done_iff hw).1 ⟨w, hd⟩) hr
  | full w =>
    obtain ⟨m, h1, h2, h3, h4, h5, h6, h7, h8⟩ := appendBits_full hw hd
    exact ⟨w, m, h1, h2, h3, h4, h5, h6, h7, h8, appendAndEnd_full hd⟩

/-- The three outcomes of an encoder command's checks (R303, R304). -/
theorem encodeInput_size {s : State} {body : List Byte → State}
    (h : inputRangeOk s.cfg s.arg0.toNat s.arg1.toNat = false) : s.encodeInput body = s.refuse .argSize := if_pos h

theorem encodeInput_notEmpty {s : State} {body : List Byte → State}
    (h : inputRangeOk s.cfg s.arg0.toNat s.arg1.toNat = true) (hw : s.w.bitsWritten ≠ 0) :
    s.encodeInput body = s.refuse .argNotEmpty := by
  rw [State.encodeInput, if_neg (by simp [h]), if_pos hw]

theorem encodeInput_ok {s : State} {body : List Byte → State}
    (h : inputRangeOk s.cfg s.arg0.toNat s.arg1.toNat = true) (hw : s.w.bitsWritten = 0) :
    s.encodeInput body = body (Memory.bytes s.mem s.arg0.toNat s.arg1.toNat) := by
  rw [State.encodeInput, if_neg (by simp [h]), if_neg (by simp [hw])]

/-- The range check in the spec's words (R71, R303). -/
theorem inputRangeOk_iff (c : Config) (base size : Nat) :
    inputRangeOk c base size = true ↔ 1 ≤ size ∧ size < 2 ^ c.lenBits ∧ base + size ≤ memBytes c := by
  simp [inputRangeOk, and_assoc]

theorem sliceRangeOk_iff (c : Config) (base size : Nat) :
    sliceRangeOk c base size = true ↔ base < memBytes c ∧ base + ceil8 size ≤ memBytes c := by
  simp [sliceRangeOk]

/-! ### The scratch does not matter to the ends -/

theorem appendAndEnd_h (s : State) (x : Option HufScratch) (bits : List Bool) :
    (({ s with h := x } : State).appendAndEnd bits).dropHuf = (s.appendAndEnd bits).dropHuf := by
  unfold State.appendAndEnd; simp only; split <;> rfl

theorem appendAndEnd_z (s : State) (x : Option LzwScratch) (bits : List Bool) :
    (({ s with z := x } : State).appendAndEnd bits).dropLzw = (s.appendAndEnd bits).dropLzw := by
  unfold State.appendAndEnd; simp only; split <;> rfl

theorem appendAndEnd_c (s : State) (x : Option RiceScratch) (bits : List Bool) :
    (({ s with c := x } : State).appendAndEnd bits).dropRice = (s.appendAndEnd bits).dropRice := by
  unfold State.appendAndEnd; simp only; split <;> rfl

theorem lzwRun_eq (s : State) (input : List Byte) :
    (s.lzwRun input).dropLzw = (s.appendAndEnd (lzwStream input)).dropLzw := by
  unfold State.lzwRun; exact appendAndEnd_z _ _ _

theorem riceRun_eq (s : State) (input : List Byte) :
    (s.riceRun input).dropRice = (s.appendAndEnd (riceStream (riceSearch input) input)).dropRice := by
  unfold State.riceRun; exact appendAndEnd_c _ _ _

theorem hufRun_ok {s : State} {input : List Byte} {h : HufScratch} (hh : hufTables input = .ok h) :
    (s.hufRun input).dropHuf = (s.appendAndEnd (hufStream h input)).dropHuf := by
  unfold State.hufRun; simp only [hh]; exact appendAndEnd_h _ _ _

theorem hufRun_error {s : State} {input : List Byte} {k : Cause} (hh : hufTables input = .error k) :
    (s.hufRun input).dropHuf = (s.raiseCounts k).dropHuf := by
  unfold State.hufRun; simp only [hh]

/-! ### The causes of the Huffman tables (R315) -/

theorem hufMerge_error {h : HufScratch} {k : Cause} (hh : hufMerge h = .error k) : k = .capNodePool := by
  unfold hufMerge at hh
  split at hh
  · cases hh
  · split at hh
    · cases hh
    · split at hh
      · simpa using hh.symm
      · cases hh

theorem hufMerges_error {n : Nat} : ∀ {h : HufScratch} {k : Cause}, hufMerges n h = .error k → k = .capNodePool := by
  induction n with
  | zero => intro h k hh; cases hh
  | succ n ih =>
    intro h k hh
    unfold hufMerges at hh
    split at hh
    · split at hh
      · exact ih hh
      · next hm => exact hufMerge_error (hm.trans (by simpa using hh))
    · cases hh

theorem hufAssignNode_error {room : Nat} :
    ∀ {pool : List HufNode} {n : Nat} {c : HuffmanCode} {b : Bool} {k : Cause},
      hufAssignNode room pool n c b = .error k → k = .capCodeLen := by
  induction room with
  | zero => intro pool n c b k hh; simpa [hufAssignNode] using hh.symm
  | succ room ih =>
    intro pool n c b k hh
    unfold hufAssignNode at hh
    simp only at hh
    split at hh
    · cases hh
    · split at hh
      · split at hh
        · exact ih hh
        · next hm => exact ih (hm.trans (by simpa using hh))
      · cases hh

theorem hufBuild_error {h : HufScratch} {k : Cause} (hh : hufBuild h = .error k) : k = .capNodePool := by
  unfold hufBuild at hh
  split at hh
  · cases hh
  · next hm => cases hh; exact hufMerges_error hm

theorem hufAssign_error {h : HufScratch} {k : Cause} (hh : hufAssign h = .error k) : k = .capCodeLen := by
  unfold hufAssign at hh
  split at hh
  · cases hh
  · split at hh
    · cases hh
    · next hm => cases hh; exact hufAssignNode_error hm

/-- The tables of `HUF.ENC` fault with `CAP_NODE_POOL` or `CAP_CODE_LEN` only. -/
theorem hufTables_error {input : List Byte} {k : Cause} (hh : hufTables input = .error k) :
    k = .capNodePool ∨ k = .capCodeLen := by
  unfold hufTables at hh
  split at hh
  · split at hh
    · cases hh
    · next hm => cases hh; exact .inr (hufAssign_error hm)
  · next hm => cases hh; exact .inl (hufBuild_error hm)

/-! ### Everything a command can do -/

/-- The next states of a command: a refusal, or one of the ends of a command of its kind. -/
inductive Ends (s : State) : Instr → State → Prop where
  | faulted (i : Instr) : s.status.fault = true → Ends s i (s.refuse .argFaulted)
  | bit (b : Bool) : s.status.fault = false → Ends s (.bswBit b) (s.appendAndEnd [b])
  | bitsCount (n : Nat) : s.status.fault = false → 64 < n → Ends s (.bswBits n) (s.refuse .argCount)
  | bits (n : Nat) : s.status.fault = false → n ≤ 64 →
      Ends s (.bswBits n) (s.appendAndEnd (lsbBits s.arg0.toNat n))
  | codeCount : s.status.fault = false → 64 < s.arg1.toNat → Ends s .bswCode (s.refuse .argCount)
  | code : s.status.fault = false → s.arg1.toNat ≤ 64 →
      Ends s .bswCode (s.appendAndEnd (lsbBits s.arg0.toNat s.arg1.toNat))
  | rel : s.status.fault = false → Ends s .bswRel s.releaseEnd
  | cnt : s.status.fault = false → Ends s .bswCnt s.completeCounts
  | openSize : s.status.fault = false → sliceRangeOk s.cfg s.arg0.toNat s.arg1.toNat = false →
      Ends s .bsrOpen (s.refuse .argSize)
  | open : s.status.fault = false → sliceRangeOk s.cfg s.arg0.toNat s.arg1.toNat = true →
      Ends s .bsrOpen (({ s with r := ⟨s.arg0.toNat, s.arg1.toNat, 0⟩ } : State).complete 0 0 false)
  | readBit : s.status.fault = false → Ends s .bsrBit s.readBitEnd
  | readCount (n : Nat) : s.status.fault = false → 64 < n → Ends s (.bsrBits n) (s.refuse .argCount)
  | readBits (n : Nat) : s.status.fault = false → n ≤ 64 → Ends s (.bsrBits n) (s.readBitsEnd n)
  | encSize (i : Instr) : i = .hufEnc ∨ i = .lzwEnc ∨ i = .riceEnc → s.status.fault = false →
      inputRangeOk s.cfg s.arg0.toNat s.arg1.toNat = false → Ends s i (s.refuse .argSize)
  | encNotEmpty (i : Instr) : i = .hufEnc ∨ i = .lzwEnc ∨ i = .riceEnc → s.status.fault = false →
      inputRangeOk s.cfg s.arg0.toNat s.arg1.toNat = true → s.w.bitsWritten ≠ 0 → Ends s i (s.refuse .argNotEmpty)
  | huf (h : HufScratch) : s.status.fault = false →
      inputRangeOk s.cfg s.arg0.toNat s.arg1.toNat = true → s.w.bitsWritten = 0 →
      hufTables (Memory.bytes s.mem s.arg0.toNat s.arg1.toNat) = .ok h →
      Ends s .hufEnc (s.appendAndEnd (hufStream h (Memory.bytes s.mem s.arg0.toNat s.arg1.toNat))).dropHuf
  | hufFault (k : Cause) : s.status.fault = false →
      inputRangeOk s.cfg s.arg0.toNat s.arg1.toNat = true → s.w.bitsWritten = 0 →
      hufTables (Memory.bytes s.mem s.arg0.toNat s.arg1.toNat) = .error k →
      Ends s .hufEnc (s.raiseCounts k).dropHuf
  | lzw : s.status.fault = false →
      inputRangeOk s.cfg s.arg0.toNat s.arg1.toNat = true → s.w.bitsWritten = 0 →
      Ends s .lzwEnc (s.appendAndEnd (lzwStream (Memory.bytes s.mem s.arg0.toNat s.arg1.toNat))).dropLzw
  | rice : s.status.fault = false →
      inputRangeOk s.cfg s.arg0.toNat s.arg1.toNat = true → s.w.bitsWritten = 0 →
      Ends s .riceEnc (s.appendAndEnd
        (riceStream (riceSearch (Memory.bytes s.mem s.arg0.toNat s.arg1.toNat))
          (Memory.bytes s.mem s.arg0.toNat s.arg1.toNat))).dropRice

/-- Everything a command can do: if it answers a next state, that is one of the listed ends. -/
theorem exec_ends {i : Instr} {s t : State} (h : exec i s = .next t) : Ends s i t := by
  by_cases hf : s.status.fault = true
  · have : exec i s = .next (s.refuse .argFaulted) := by cases i <;> exact unlessFaulted_fault hf _
    obtain rfl : s.refuse .argFaulted = t := by simpa [this] using h
    exact .faulted i hf
  · have hf' : s.status.fault = false := by simpa using hf
    have enc : ∀ {body : List Byte → State} {j : Instr}, j = .hufEnc ∨ j = .lzwEnc ∨ j = .riceEnc →
        (inputRangeOk s.cfg s.arg0.toNat s.arg1.toNat = true → s.w.bitsWritten = 0 →
          Ends s j (body (Memory.bytes s.mem s.arg0.toNat s.arg1.toNat))) → Ends s j (s.encodeInput body) := by
      intro body j hj hok
      cases hr : inputRangeOk s.cfg s.arg0.toNat s.arg1.toNat with
      | false => rw [encodeInput_size hr]; exact .encSize j hj hf' hr
      | true =>
        by_cases hw : s.w.bitsWritten = 0
        · rw [encodeInput_ok hr hw]; exact hok hr hw
        · rw [encodeInput_notEmpty hr hw]; exact .encNotEmpty j hj hf' hr hw
    have ok : ∀ {o : Host.Outcome State Fault Refusal}, s.unlessFaulted o = .next t → o = .next t := by
      intro o ho; rwa [unlessFaulted_ok hf'] at ho
    cases i with
    | bswBit b =>
      cases ok (o := .next (s.appendAndEnd [b])) h
      exact .bit b hf'
    | bswBits n =>
      have h' := ok h
      by_cases hn : maxBitsPerOp < n
      · rw [if_pos hn] at h'; cases h'; exact .bitsCount n hf' hn
      · rw [if_neg hn] at h'; cases h'; exact .bits n hf' (Nat.not_lt.1 hn)
    | bswCode =>
      have h' := ok h
      by_cases hn : maxCodeLen < s.arg1.toNat
      · rw [if_pos hn] at h'; cases h'; exact .codeCount hf' hn
      · rw [if_neg hn] at h'; cases h'; exact .code hf' (Nat.not_lt.1 hn)
    | bswRel =>
      cases ok (o := .next s.releaseEnd) h
      exact .rel hf'
    | bswCnt =>
      cases ok (o := .next s.completeCounts) h
      exact .cnt hf'
    | bsrOpen =>
      have h' := ok h
      by_cases hr : sliceRangeOk s.cfg s.arg0.toNat s.arg1.toNat = false
      · rw [if_pos hr] at h'; cases h'; exact .openSize hf' hr
      · rw [if_neg hr] at h'; cases h'; exact .open hf' (by simpa using hr)
    | bsrBit =>
      have h' := ok h
      rcases withSlice_cases s 1 s.readBitEnd with h1 | ⟨a, h1⟩
      · cases h1.symm.trans h'; exact .readBit hf'
      · cases h1.symm.trans h'
    | bsrBits n =>
      have h' := ok h
      by_cases hn : maxBitsPerOp < n
      · rw [if_pos hn] at h'; cases h'; exact .readCount n hf' hn
      · rw [if_neg hn] at h'
        rcases withSlice_cases s n (s.readBitsEnd n) with h1 | ⟨a, h1⟩
        · cases h1.symm.trans h'; exact .readBits n hf' (Nat.not_lt.1 hn)
        · cases h1.symm.trans h'
    | hufEnc =>
      have h' := ok h
      cases h'
      refine enc (.inl rfl) fun hr hw => ?_
      cases ht : hufTables (Memory.bytes s.mem s.arg0.toNat s.arg1.toNat) with
      | ok h => rw [hufRun_ok ht]; exact .huf h hf' hr hw ht
      | error k => rw [hufRun_error ht]; exact .hufFault k hf' hr hw ht
    | lzwEnc =>
      have h' := ok h
      cases h'
      refine enc (.inr (.inl rfl)) fun hr hw => ?_
      rw [lzwRun_eq]; exact .lzw hf' hr hw
    | riceEnc =>
      have h' := ok h
      cases h'
      refine enc (.inr (.inr rfl)) fun hr hw => ?_
      rw [riceRun_eq]; exact .rice hf' hr hw

end Sys2Proof.Machine
end

