-- ==== Sys2Proof/Laws/PerInstr.lean ====
section
/-! SUPPORT. The family `EncodeInTable`: every well-formed command is encoded to a word that matches its own row of
spec/opcode_table.json (`word & mask = match`). -/

namespace Sys2Proof.Laws.EncodeInTable

/-- The column "mask" of the row. -/
def tableMask : Instr → Nat
  | .bswBit _ => 0xFFFF7FFF
  | .bswBits _ => 0xFFFF80FF
  | .bswCode => 0xFFFFFFFF
  | .bswRel => 0xFFFFFFFF
  | .bswCnt => 0xFFFFFFFF
  | .bsrOpen => 0xFFFFFFFF
  | .bsrBit => 0xFFFFFFFF
  | .bsrBits _ => 0xFFFF80FF
  | .hufEnc => 0xFFFFFFFF
  | .lzwEnc => 0xFFFFFFFF
  | .riceEnc => 0xFFFFFFFF

/-- The column "match" of the row. -/
def tableMatch : Instr → Nat
  | .bswBit _ => 0x00000001
  | .bswBits _ => 0x00000002
  | .bswCode => 0x00000003
  | .bswRel => 0x00000004
  | .bswCnt => 0x00000005
  | .bsrOpen => 0x00000008
  | .bsrBit => 0x00000009
  | .bsrBits _ => 0x0000000A
  | .hufEnc => 0x00000010
  | .lzwEnc => 0x00000011
  | .riceEnc => 0x00000012

/-- The word of a well-formed command matches its row of the opcode table. -/
def Statement (i : Instr) : Prop :=
  i.wellFormed = true → (encode i).toNat &&& tableMask i = tableMatch i

theorem bswBit (b : Bool) : Statement (.bswBit b) := by intro _; cases b <;> decide

theorem bswBits (n : Nat) : Statement (.bswBits n) := by
  intro h
  have hn : n < 128 := by simpa [Instr.wellFormed] using h
  exact (by decide : ∀ k < 128, (encode (.bswBits k)).toNat &&& tableMask (.bswBits 0) = tableMatch (.bswBits 0)) n hn

theorem bswCode : Statement .bswCode  := fun _ => by decide
theorem bswRel : Statement .bswRel  := fun _ => by decide
theorem bswCnt : Statement .bswCnt  := fun _ => by decide
theorem bsrOpen : Statement .bsrOpen  := fun _ => by decide
theorem bsrBit : Statement .bsrBit  := fun _ => by decide

theorem bsrBits (n : Nat) : Statement (.bsrBits n) := by
  intro h
  have hn : n < 128 := by simpa [Instr.wellFormed] using h
  exact (by decide : ∀ k < 128, (encode (.bsrBits k)).toNat &&& tableMask (.bsrBits 0) = tableMatch (.bsrBits 0)) n hn

theorem hufEnc : Statement .hufEnc  := fun _ => by decide
theorem lzwEnc : Statement .lzwEnc  := fun _ => by decide
theorem riceEnc : Statement .riceEnc  := fun _ => by decide

end Sys2Proof.Laws.EncodeInTable
end

