-- ==== Sys2Proof/Laws/Run.lean ====
section
/-! SUPPORT. What a run of host actions does: one action after the other, and an assembler line with register operands is its
command on the machine that holds them (30_encoding.md R103). -/

namespace Sys2Proof.Machine

@[simp] theorem runActions_nil (s : State) : runActions [] s = .next s := rfl

theorem runActions_cons (a : HostAction) (rest : List HostAction) (s : State) :
    runActions (a :: rest) s =
      match step { s with pending := [a] } with
      | .next t => runActions rest t
      | .fault f => .fault f
      | .refused r => .refused r := rfl

/-- Running one sequence after another is running their concatenation. -/
theorem runActions_append (xs ys : List HostAction) (s : State) :
    runActions (xs ++ ys) s =
      match runActions xs s with
      | .next t => runActions ys t
      | .fault f => .fault f
      | .refused r => .refused r := by
  induction xs generalizing s with
  | nil => rfl
  | cons a xs ih =>
    rw [List.cons_append, runActions_cons, runActions_cons]
    cases step { s with pending := [a] } with
    | next t => exact ih t
    | fault f => rfl
    | refused r => rfl

/-- The run of one action is its step. -/
theorem runActions_one (a : HostAction) (s : State) : runActions [a] s = step { s with pending := [a] } := by
  rw [runActions_cons]
  cases step { s with pending := [a] } <;> rfl

/-- The host writes `ARG0` of an idle core. -/
theorem step_writeArg0 {s : State} (h : s.status.busy = false) (v : Word64) :
    step { s with pending := [writeArg0 v] } = .next { s with pending := [], arg0 := v } :=
  if_neg (by simp [h])

/-- The host writes `ARG1` of an idle core. -/
theorem step_writeArg1 {s : State} (h : s.status.busy = false) (v : Word64) :
    step { s with pending := [writeArg1 v] } = .next { s with pending := [], arg1 := v } :=
  if_neg (by simp [h])

/-- The machine with no action pending and a command started. -/
def State.underway (s : State) : State := { s with pending := [], status := { s.status with busy := true } }

/-- The host writes the word of a command to `CMD` of an idle core. -/
theorem step_writeCommand {s : State} {i : Instr} (h : s.status.busy = false) (hi : decode (encode i) = .ok i) :
    step { s with pending := [writeCommand i] } = exec i s.underway := by
  have hw : ((encode i).setWidth 64).setWidth 32 = encode i := by simp
  refine (if_neg (by simp [h])).trans ?_
  rw [hw, State.runWord, hi]
  rfl

/-- An assembler line with register operands is its command on the machine that holds them. -/
theorem run_line {s : State} {i : Instr} (h : s.status.busy = false) (hi : decode (encode i) = .ok i) (a0 a1 : Word64) :
    runActions [writeArg0 a0, writeArg1 a1, writeCommand i] s =
      exec i ({ s with arg0 := a0, arg1 := a1 } : State).underway := by
  rw [runActions_cons, step_writeArg0 h]
  simp only
  rw [runActions_cons, step_writeArg1 (by exact h)]
  simp only
  rw [runActions_one, step_writeCommand (by exact h) hi]
  rfl

/-- The encoder line of a codec runs its encoder command. -/
theorem run_encodeLine {s : State} (h : s.status.busy = false) (k : Codec) (base size : Word64) :
    runActions (k.encodeLine base size) s =
      exec k.command ({ s with arg0 := base, arg1 := size } : State).underway := by
  cases k <;> exact run_line h (by decide) base size

/-- The line `BSW.REL` runs the release. -/
theorem run_asmBswRel {s : State} (h : s.status.busy = false) : runActions asmBswRel s = exec .bswRel s.underway := by
  rw [asmBswRel, runActions_one, step_writeCommand h (by decide)]

end Sys2Proof.Machine
end

