-- ==== Sys2Proof/Machine/RefRle.lean ====
section
/-! DEFINITION. The RLE codec (46_rle_out_of_core.md), outside the CORE (00_scope.md R6): transcribed as pure functions. No
step calls them. -/

namespace Sys2Proof.Machine

/-- `MaxRun = 2^(8·word_bytes) − 1` (R290). -/
def rleMaxRun (wordBytes : Nat) : Nat := 2 ^ (8 * wordBytes) - 1

/-- A packet (R290): `count` as a little-endian integer of `word_bytes` bytes, then the byte. -/
def rlePacket (wordBytes count : Nat) (b : Byte) : List Byte :=
  (List.range wordBytes).map (fun i => BitVec.ofNat 8 (count / 2 ^ (8 * i))) ++ [b]

/-- Write one packet if the output can hold it (R291, R294); `none` is "return −1". -/
def rlePut (wordBytes cap count : Nat) (b : Byte) (out : List Byte) : Option (List Byte) :=
  if cap < out.length + (wordBytes + 1) then none else some (out ++ rlePacket wordBytes count b)

/-- The loop of R291 with the run `(count, byte)` so far, and the final flush. -/
def rleEncodeFrom (wordBytes cap : Nat) (input : List Byte) (count : Nat) (byte : Byte) (out : List Byte) :
    Option (List Byte) :=
  match input with
  | [] => if count = 0 then some out else rlePut wordBytes cap count byte out
  | b :: rest =>
    if b = byte ∧ count < rleMaxRun wordBytes then rleEncodeFrom wordBytes cap rest (count + 1) byte out
    else
      match rlePut wordBytes cap count byte out with
      | none => none
      | some out' => rleEncodeFrom wordBytes cap rest 1 b out'

/-- The RLE encoder (R291); an empty input is a "non-positive size", "return −1" (R294). -/
def rleEncode (wordBytes cap : Nat) (input : List Byte) : Option (List Byte) :=
  match input with
  | [] => none
  | b :: _ => rleEncodeFrom wordBytes cap input 0 b []

/-- What the RLE decoder does (R293). -/
inductive RleOutcome where
  | ok (out : List Byte)
  /-- "decode returns `−1`": the output capacity is exhausted. -/
  | minusOne
  /-- A trailing partial packet, or a packet with `count = 0`: "is not said" (R293). -/
  | notSaid
  deriving DecidableEq, Repr

/-- The little-endian integer of a list of bytes. -/
def rleCount (bytes : List Byte) : Nat :=
  match bytes with
  | [] => 0
  | b :: rest => b.toNat + 256 * rleCount rest

/-- The loop of R293, at most `n` packets. -/
def rleDecodeFrom (wordBytes cap n : Nat) (input out : List Byte) : RleOutcome :=
  match n with
  | 0 => .ok out
  | n' + 1 =>
    if input = [] then .ok out
    else if input.length < wordBytes + 1 ∨ rleCount (input.take wordBytes) = 0 then .notSaid
    else if cap < out.length + rleCount (input.take wordBytes) then .minusOne
    else rleDecodeFrom wordBytes cap n' (input.drop (wordBytes + 1))
      (out ++ List.replicate (rleCount (input.take wordBytes)) (input.getD wordBytes 0))

/-- The RLE decoder (R293); an empty input or no capacity is a "non-positive size" (R294). -/
def rleDecode (wordBytes cap : Nat) (input : List Byte) : RleOutcome :=
  if input = [] ∨ cap = 0 then .minusOne else rleDecodeFrom wordBytes cap (input.length + 1) input []

end Sys2Proof.Machine
end

