-- ==== Sys2Proof/Tests/Slice0.lean ====
section
/-! SUPPORT. The model's own tests. Expected results are the vectors V1 to V80 of spec/95_test_vectors.md or words written
out by hand from 30_encoding.md R96 and R103; the `witness_` theorems show a state and operands that meet all hypotheses of
one statement together. -/

namespace Sys2Proof.Tests

open Sys2Proof Sys2Proof.Machine

-- one theorem at a time: the kernel evaluations below are large, and side by side they need much memory
set_option Elab.async false

/-! ### WellFormed: a term no command word can carry is refused -/

theorem test_wf_bits_127 : Instr.wellFormed (.bswBits 127) = true := by decide
theorem test_wf_bits_128 : Instr.wellFormed (.bswBits 128) = false := by decide
theorem test_wf_read_127 : Instr.wellFormed (.bsrBits 127) = true := by decide
theorem test_wf_read_128 : Instr.wellFormed (.bsrBits 128) = false := by decide

/-! ### Decoding: words written out bit by bit, `zero | B | N | OP` (R96) -/

theorem test_decode_bswBit_0 :
    decode (0b0000000000000000#16 ++ 0b0#1 ++ 0b0000000#7 ++ 0b00000001#8) = .ok (.bswBit false) := by decide
theorem test_decode_bswBit_1 :
    decode (0b0000000000000000#16 ++ 0b1#1 ++ 0b0000000#7 ++ 0b00000001#8) = .ok (.bswBit true) := by decide
theorem test_decode_bswBits_64 :
    decode (0b0000000000000000#16 ++ 0b0#1 ++ 0b1000000#7 ++ 0b00000010#8) = .ok (.bswBits 64) := by decide
theorem test_decode_bswBits_1 :
    decode (0b0000000000000000#16 ++ 0b0#1 ++ 0b0000001#7 ++ 0b00000010#8) = .ok (.bswBits 1) := by decide
theorem test_decode_bswCode :
    decode (0b0000000000000000#16 ++ 0b0#1 ++ 0b0000000#7 ++ 0b00000011#8) = .ok .bswCode := by decide
theorem test_decode_bswRel :
    decode (0b0000000000000000#16 ++ 0b0#1 ++ 0b0000000#7 ++ 0b00000100#8) = .ok .bswRel := by decide
theorem test_decode_bswCnt :
    decode (0b0000000000000000#16 ++ 0b0#1 ++ 0b0000000#7 ++ 0b00000101#8) = .ok .bswCnt := by decide
theorem test_decode_bsrOpen :
    decode (0b0000000000000000#16 ++ 0b0#1 ++ 0b0000000#7 ++ 0b00001000#8) = .ok .bsrOpen := by decide
theorem test_decode_bsrBit :
    decode (0b0000000000000000#16 ++ 0b0#1 ++ 0b0000000#7 ++ 0b00001001#8) = .ok .bsrBit := by decide
theorem test_decode_bsrBits_127 :
    decode (0b0000000000000000#16 ++ 0b0#1 ++ 0b1111111#7 ++ 0b00001010#8) = .ok (.bsrBits 127) := by decide
theorem test_decode_hufEnc :
    decode (0b0000000000000000#16 ++ 0b0#1 ++ 0b0000000#7 ++ 0b00010000#8) = .ok .hufEnc := by decide
theorem test_decode_lzwEnc :
    decode (0b0000000000000000#16 ++ 0b0#1 ++ 0b0000000#7 ++ 0b00010001#8) = .ok .lzwEnc := by decide
theorem test_decode_riceEnc :
    decode (0b0000000000000000#16 ++ 0b0#1 ++ 0b0000000#7 ++ 0b00010010#8) = .ok .riceEnc := by decide

/-- V70 to V73: unassigned opcodes and must-be-zero fields. -/
theorem test_decode_illegal :
    [0x00000000#32, 0x00000006#32, 0x0000000B#32, 0x00000013#32, 0x000000FF#32, 0x00010004#32, 0x00000104#32,
      0x00008004#32, 0x00000101#32, 0x0000810A#32, 0x00000110#32].all
      (fun w => match decode w with | .ok _ => false | .error _ => true) = true := by decide

theorem test_decodeTableWord : decodeTableWord 32 0x0000410A = some (.bsrBits 65) := by decide

/-! ### One step on a small state -/

/-- A core with a buffer of 2 bytes that can grow once, to 4. -/
def tiny : Config := ⟨2, 2, 20, 19, 4⟩

/-- A core with a buffer of 64 bytes that cannot grow. -/
def wide : Config := ⟨64, 2, 20, 19, 64⟩

/-- A core just reset, with `bytes` at address 16 and the two operands given. -/
def core (c : Config) (bytes : List Byte) (a0 a1 : Word64) : State :=
  { State.resetWith c with mem := Memory.ofBytes 16 bytes, arg0 := a0, arg1 := a1 }

/-- The same core with a writer of `n` bits in `bytes` (its whole buffer). -/
def State.holding (s : State) (bytes : List Byte) (n : Nat) : State := { s with w := ⟨bytes, n, bytes.length⟩ }

/-- The same core with a reader of `n` bits opened at 16, at position `p`. -/
def State.reading (s : State) (n p : Nat) : State := { s with r := ⟨16, n, p⟩ }

/-- The same core after a fault with this cause. -/
def State.broken (s : State) (k : Cause) : State := { s with status := faultedStatus k }

/-- `STATUS`, `RES0`, `RES1` and the meaningful bytes of the writer after a command that did not stop the model. -/
def seen (o : Host.Outcome State Fault Refusal) : Option (Nat × Nat × Nat × List Nat) :=
  match o with
  | .next t => some (t.status.word.toNat, t.res0.toNat, t.res1.toNat,
      (t.w.wbuf.take (ceil8 t.w.bitsWritten)).map BitVec.toNat)
  | _ => none

/-- `STATUS`, `RES0`, `RES1` and the reader's position. -/
def seenReader (o : Host.Outcome State Fault Refusal) : Option (Nat × Nat × Nat × Nat) :=
  match o with
  | .next t => some (t.status.word.toNat, t.res0.toNat, t.res1.toNat, t.r.bitsRead)
  | _ => none

/-- V1. -/
theorem test_bswBit : seen (exec (.bswBit true) (core tiny [] 0 0)) = some (0, 1, 1, [0x01]) := by decide
/-- P6's fault in small (R132): the bit that fills the 4-byte buffer is kept, the growth past 4 bytes faults. -/
theorem test_bswBit_fault :
    seen (exec (.bswBit true) (State.holding (core tiny [] 0 0) [0xFF, 0xFF, 0xFF, 0x7F] 31)) =
      some (0x2202, 4, 32, [0xFF, 0xFF, 0xFF, 0xFF]) := by decide

/-- V2, its last command. -/
theorem test_bswBits :
    seen (exec (.bswBits 16) (State.holding (core wide [] 0xABCD 0) [0x1B, 0, 0, 0] 5)) =
      some (0, 3, 21, [0xBB, 0x79, 0x15]) := by decide
/-- V4e. -/
theorem test_bswBits_65 :
    seen (exec (.bswBits 65) (core tiny [] 0 0)) = some (0x1104, 0xFFFFFFFFFFFFFFFF, 0, []) := by decide

/-- V8. -/
theorem test_bswCode : seen (exec .bswCode (core tiny [] 0x16 5)) = some (0, 1, 5, [0x16]) := by decide
/-- V8c. -/
theorem test_bswCode_65 :
    seen (exec .bswCode (core tiny [] 0 65)) = some (0x1104, 0xFFFFFFFFFFFFFFFF, 0, []) := by decide

/-- V9, the first release, with a 4-byte buffer: results, log and writer. -/
theorem test_bswRel :
    (match exec .bswRel (State.holding (core tiny [] 0 0) [0xBB, 0x79, 0x15, 0] 21) with
      | .next t => decide (t.released = [⟨[0xBB, 0x79, 0x15, 0], 4, 21⟩] ∧ t.w = ⟨[0, 0], 0, 2⟩ ∧
          t.res0 = 3 ∧ t.res1 = 21)
      | _ => false) = true := by decide

/-- V9, the first count. -/
theorem test_bswCnt :
    seen (exec .bswCnt (State.holding (core tiny [] 0 0) [0xBB, 0x79, 0x15, 0] 21)) =
      some (0, 3, 21, [0xBB, 0x79, 0x15]) := by decide

/-- V11. -/
theorem test_bsrOpen :
    (match exec .bsrOpen (core tiny [] 0x1000 5) with
      | .next t => decide (t.r = ⟨0x1000, 5, 0⟩ ∧ t.res0 = 0 ∧ t.res1 = 0 ∧ t.status.word = 0)
      | _ => false) = true := by decide
/-- V16, with `ADDR_BITS = 20`. -/
theorem test_bsrOpen_end :
    seenReader (exec .bsrOpen (core tiny [] 0xFFFFF 9)) = some (0x1204, 0xFFFFFFFFFFFFFFFF, 0, 0) := by decide

/-- V11, its third read, of a 0, and its sixth, at the end. -/
theorem test_bsrBit :
    seenReader (exec .bsrBit (State.reading (core tiny [0xBB] 0 0) 5 2)) = some (0, 0, 3, 3) := by decide
theorem test_bsrBit_end :
    seenReader (exec .bsrBit (State.reading (core tiny [0xBB] 0 0) 5 5)) = some (0x0008, 0, 5, 5) := by decide

/-- V12, its last read. -/
theorem test_bsrBits :
    seenReader (exec (.bsrBits 16) (State.reading (core tiny [0xBB, 0x79, 0x15] 0 0) 21 5)) =
      some (0, 0xABCD, 21, 21) := by decide
/-- V14, its last read: `RES0` is a free value, so it is not looked at. -/
theorem test_bsrBits_fault :
    (match exec (.bsrBits 2) (State.reading (core tiny [0xBB, 0x79, 0x15] 0 0) 21 20) with
      | .next t => decide (t.status.word = 0x3002 ∧ t.res1 = 21 ∧ t.r.bitsRead = 21 ∧ t.irqErr = true)
      | _ => false) = true := by decide

/-- V22, on the one byte `41`. -/
theorem test_hufEnc :
    seen (exec .hufEnc (core wide [0x41] 16 1)) = some (0, 38, 297,
      [0x00, 0x01, 0x01, 0x00, 0x00, 0x00, 0x00, 0x00, 0x00, 0x00, 0x00, 0x00, 0x02, 0x00] ++
        List.replicate 24 0) := by decide +kernel
/-- V78: `ARG_SIZE` before `ARG_NOT_EMPTY`. -/
theorem test_hufEnc_size :
    seen (exec .hufEnc (State.holding (core wide [0x41] 16 0) [1, 0] 1)) =
      some (0x1204, 0xFFFFFFFFFFFFFFFF, 0, [1]) := by decide

/-- V32, "aaaa". -/
theorem test_lzwEnc :
    seen (exec .lzwEnc (core wide [0x61, 0x61, 0x61, 0x61] 16 4)) =
      some (0, 4, 27, [0x61, 0x00, 0x86, 0x01]) := by decide +kernel
/-- V31, 18 bytes of `11`. -/
theorem test_lzwEnc_E18 :
    seen (exec .lzwEnc (core wide (List.replicate 18 0x11) 16 18)) =
      some (0, 7, 54, [0x11, 0x00, 0x06, 0x14, 0x38, 0x30, 0x20]) := by decide +kernel

/-- V43, on the one byte `41`. -/
theorem test_riceEnc :
    seen (exec .riceEnc (core wide [0x41] 16 1)) = some (0, 2, 12, [0x35, 0x08]) := by decide +kernel
/-- V42d. -/
theorem test_riceEnc_three :
    seen (exec .riceEnc (core wide [0xFF, 0xFE, 0xFD] 16 3)) =
      some (0, 4, 31, [0xD7, 0xBF, 0x5F, 0x5F]) := by decide +kernel

/-- V79: a faulted core refuses every word, and the fault's cause stays. -/
theorem test_faulted :
    seen (step ((State.broken (core tiny [] 0 0) .strUnexpectedEnd).withFetchWord 32 0)) =
      some (0x3006, 0xFFFFFFFFFFFFFFFF, 0, []) := by decide

/-- The first step after reset runs each row of the opcode table. -/
theorem test_rows_run :
    [0x00000001, 0x00000002, 0x00000003, 0x00000004, 0x00000005, 0x00000008, 0x00000009, 0x0000000A, 0x00000010,
      0x00000011, 0x00000012].all (fun w => match step (State.reset.withFetchWord 32 w) with
        | .next _ => true
        | _ => false) = true := by decide +kernel

/-- V43 read back by the reference decoder (V47), V57c, V59. -/
theorem test_riceDecode : riceDecode [0x35, 0x08] 12 1 = ⟨.ok [0x41], 12⟩ := by decide +kernel
theorem test_lzwDecode : lzwDecode [0x61, 0x00, 0x86, 0x01] 27 4 = ⟨.ok [0x61, 0x61, 0x61, 0x61], 27⟩ := by decide +kernel

/-- V60, V63. -/
theorem test_rle : rleEncode 1 8 (List.replicate 18 0x11) = some [0x12, 0x11] := by decide +kernel
theorem test_rle_back : rleDecode 1 300 [0xFF, 0xAA, 0x2D, 0xAA] = .ok (List.replicate 300 0xAA) := by decide +kernel

/-- R103: a line with two register operands is two writes and the command word. -/
theorem test_asm : asmRiceEnc 16 1 = [.write 0x08 .w64 16, .write 0x10 .w64 1, .write 0x00 .w32 0x12] := by decide

/-! ### Witnesses of the hypotheses of the statements -/

/-- The host's next action is this one. -/
def State.facing (s : State) (a : HostAction) : State := { s with pending := [a] }

/-- The same core while a command runs (log entry 6). -/
def State.running (s : State) : State := { s with status := { s.status with busy := true } }

/-- A small core with nothing in `MEM`. -/
def s0 : State := core tiny [] 0 0

theorem room_of {s : State} {n : Nat} (h1 : s.w.bytesAllocated ≤ s.cfg.bufMaxBytes)
    (h2 : s.w.bitsWritten + n < 8 * s.w.bytesAllocated) : RoomFor s n := ⟨0, by simpa using h1, by simpa using h2⟩

theorem noRoom_of {s : State} {n : Nat} (h1 : s.cfg.bufMaxBytes < s.w.bytesAllocated * 2)
    (h2 : 8 * s.w.bytesAllocated ≤ s.w.bitsWritten + n) : ¬ RoomFor s n := by
  rintro ⟨j, h3, h4⟩
  cases j with
  | zero => simp at h4; omega
  | succ j =>
    have h5 : 2 ≤ max 2 s.cfg.granularity ^ (j + 1) :=
      calc 2 ≤ max 2 s.cfg.granularity := Nat.le_max_left ..
        _ = max 2 s.cfg.granularity ^ 1 := (Nat.pow_one _).symm
        _ ≤ _ := Nat.pow_le_pow_right (by omega) (by omega)
    have := Nat.mul_le_mul_left s.w.bytesAllocated h5
    omega

theorem witness_DecodeOfEncode :
    Instr.wellFormed (.bswBits 127) = true ∧ Instr.wellFormed (.bsrBits 0) = true := by decide

/-- Illegal: `OP` 0x13, bit 16 set, `N` set in format Z, `B` set in format N. -/
theorem witness_IllegalWordsAreRefused_illegal :
    (∀ v ∈ [0x13#64, 0x10004#64, 0x104#64, 0x810A#64],
      (State.facing s0 (.write 0 .w32 v)).pending = .write 0x00#8 .w32 v :: [] ∧
      s0.status.busy = false ∧ s0.status.fault = false) ∧
    ∀ v ∈ [0x13#64, 0x10004#64, 0x104#64, 0x810A#64], IllegalWord (v.setWidth 32) :=
  ⟨fun _ _ => ⟨rfl, rfl, rfl⟩, by simp [IllegalWord]⟩

/-- Not illegal: `N` of 127 in format N, `B` in format B. -/
theorem witness_IllegalWordsAreRefused_legal :
    (∀ v ∈ [0x7F0A#64, 0x8001#64, 0x12#64],
      (State.facing s0 (.write 0 .w32 v)).pending = .write 0x00#8 .w32 v :: [] ∧
      s0.status.busy = false ∧ s0.status.fault = false) ∧
    ∀ v ∈ [0x7F0A#64, 0x8001#64, 0x12#64], ¬ IllegalWord (v.setWidth 32) :=
  ⟨fun _ _ => ⟨rfl, rfl, rfl⟩, by simp [IllegalWord]⟩

/-- Format N with `N` of 65 and of 127. -/
theorem witness_IllegalWordsAreRefused_count :
    (∀ v ∈ [0x4102#64, 0x7F0A#64], (State.facing s0 (.write 0 .w32 v)).pending = .write 0x00#8 .w32 v :: []) ∧
      (0x4102#64).setWidth 32 = BitVec.ofNat 32 (0x02 + 65 * 256) ∧
      (0x7F0A#64).setWidth 32 = BitVec.ofNat 32 (0x0A + 127 * 256) :=
  ⟨fun _ _ => rfl, by decide, by decide⟩

theorem witness_StepRunsDecodedCommand :
    (State.facing s0 (.write 0 .w32 0x4002)).pending = .write 0x00#8 .w32 0x4002#64 :: [] ∧ s0.status.busy = false ∧
      decode ((0x4002#64).setWidth 32) = .ok (.bswBits 64) := by decide

theorem witness_FaultedCoreRefusesEveryWord :
    (State.facing (State.broken s0 .capAlloc) (.write 0 .w32 0)).pending = .write 0x00#8 .w32 0#64 :: [] ∧
      (State.broken s0 .capAlloc).status.busy = false ∧ (State.broken s0 .capAlloc).status.fault = true := by decide

theorem witness_IdleCoreDoesNotChange : s0.pending = [] := rfl

theorem witness_BusyCoreStallsCommandWrites :
    (State.running s0).status.busy = true ∧
      (State.facing (State.running s0) (.write 0 .w32 5)).pending = .write 0x00#8 .w32 5#64 :: [] ∧
      (State.facing (State.running s0) (.write 8 .w64 5)).pending = .write 0x08#8 .w64 5#64 :: [] ∧
      (State.facing (State.running s0) (.write 16 .w64 5)).pending = .write 0x10#8 .w64 5#64 :: [] := by decide

/-- The two writes that reach a register, and three that are ignored: a read-only register, a wrong width, a reserved
offset. -/
theorem witness_HostWritesReachOnlyCmdAndArgs :
    s0.status.busy = false ∧
      ∀ x ∈ [(0x08#8, Width.w64), (0x10#8, Width.w64), (0x18#8, Width.w64), (0x08#8, Width.w32), (0xFF#8, Width.w8)],
        (State.facing s0 (.write x.1 x.2 7)).pending = .write x.1 x.2 7#64 :: [] := by decide

theorem witness_HostReadsFollowTheRegisterMap :
    ∀ x ∈ [(0x00#8, Width.w32), (0x04#8, Width.w32), (0x04#8, Width.w64), (0x58#8, Width.w64), (0x60#8, Width.w64),
        (0x68#8, Width.w64)],
      (State.facing s0 (.read x.1 x.2)).pending = .read x.1 x.2 :: [] ∧ s0.cfg.granularity < 2 ^ 64 := by decide

theorem witness_HostStoreChangesOneByte :
    (State.facing s0 (.storeMem 0xFFFFF 7)).pending = .storeMem 0xFFFFF 7#8 :: [] ∧ MemInv s0 ∧
      0xFFFFF < 2 ^ s0.cfg.addrBits ∧
      (State.facing s0 (.storeMem 0x100000 7)).pending = .storeMem 0x100000 7#8 :: [] ∧
      2 ^ s0.cfg.addrBits ≤ 0x100000 := by decide

theorem witness_ResetPutsEveryPieceAtItsValue :
    (State.facing (State.broken s0 .capAlloc) .reset).pending = .reset :: [] := rfl

theorem witness_OnlyResetClearsAFault :
    ∃ t, (State.facing (State.broken s0 .capAlloc) (.write 0 .w32 4)).status.fault = true ∧
      step (State.facing (State.broken s0 .capAlloc) (.write 0 .w32 4)) = .next t ∧
      ∀ rest, (State.facing (State.broken s0 .capAlloc) (.write 0 .w32 4)).pending ≠ .reset :: rest :=
  ⟨_, rfl, rfl, by simp [State.facing]⟩

/-- A full 4-byte writer, 31 bits written, that cannot grow. -/
def full : State := State.holding (core tiny [] 0 5) [0xFF, 0xFF, 0xFF, 0x7F] 31

/-- A 2-byte writer, 15 bits written, that can grow once. -/
def nearly : State := State.holding s0 [0xFF, 0x7F] 15

theorem canAppend_s0 : CanAppend s0 := by decide
theorem canAppend_full : CanAppend full := by decide
theorem canAppend_nearly : CanAppend nearly := by decide

/-- A bit that does not fill the buffer, and one that does and makes it grow. -/
theorem witness_BswBitAppendsOneBit :
    (CanAppend s0 ∧ RoomFor s0 1) ∧ (CanAppend nearly ∧ RoomFor nearly 1) :=
  ⟨⟨canAppend_s0, room_of (by decide) (by decide)⟩, canAppend_nearly, 1, by decide, by decide⟩

/-- A core with room for 64 bits and more. -/
def roomy : State := core wide [0x41, 0x42] 16 2

theorem canAppend_roomy : CanAppend roomy := by decide +kernel

theorem witness_BswBitsAppendsLowBitsFirst :
    (CanAppend roomy ∧ 64 ≤ 64 ∧ RoomFor roomy 64) ∧ (CanAppend full ∧ 0 ≤ 64 ∧ RoomFor full 0) :=
  ⟨⟨canAppend_roomy, by decide, room_of (by decide) (by decide)⟩,
    canAppend_full, by decide, room_of (by decide) (by decide)⟩

/-- `ARG1` is 64. -/
theorem witness_BswCodeAppendsTheCode :
    CanAppend (core wide [] 5 64) ∧ (core wide [] 5 64).arg1.toNat ≤ 64 ∧
      RoomFor (core wide [] 5 64) (core wide [] 5 64).arg1.toNat :=
  ⟨by decide +kernel, by decide, room_of (by decide) (by decide)⟩

theorem witness_CountsAbove64AreRefused :
    (core tiny [] 0 65).status.fault = false ∧ 64 < 65 ∧ 64 < (core tiny [] 0 65).arg1.toNat := by decide

theorem witness_AppendPastTheLimitFaults :
    CanAppend full ∧ ¬ RoomFor full 1 ∧ 64 ≤ 64 ∧ ¬ RoomFor full 64 ∧ full.arg1.toNat ≤ 64 ∧
      ¬ RoomFor full full.arg1.toNat :=
  ⟨canAppend_full, noRoom_of (by decide) (by decide), by decide, noRoom_of (by decide) (by decide), by decide,
    noRoom_of (by decide) (by decide)⟩

/-- Each writer command: on the first the buffer grows, on the last nothing is appended. -/
theorem witness_BufferSizeIsTheLeastPowerThatFits :
    (∃ t, CanAppend nearly ∧ Appends (.bswBit true) ∧ exec (.bswBit true) nearly = .next t ∧
      t.status.fault = false ∧ t.status.argErr = false) ∧
    (∃ t, CanAppend nearly ∧ Appends (.bswBits 16) ∧ exec (.bswBits 16) nearly = .next t ∧
      t.status.fault = false ∧ t.status.argErr = false) ∧
    ∃ t, CanAppend nearly ∧ Appends .bswCode ∧ exec .bswCode nearly = .next t ∧
      t.status.fault = false ∧ t.status.argErr = false :=
  ⟨⟨_, canAppend_nearly, .inl ⟨_, rfl⟩, rfl, by decide, by decide⟩,
    ⟨_, canAppend_nearly, .inr (.inl ⟨_, rfl⟩), rfl, by decide, by decide⟩,
    _, canAppend_nearly, .inr (.inr (.inl rfl)), rfl, by decide, by decide⟩

theorem witness_BswRelDeliversTheBuffer : CanAppend full := canAppend_full
theorem witness_BswCntReportsTheCounts : CanAppend full := canAppend_full
theorem witness_AppendingTwiceIsAppendingOnce : 60 + 4 ≤ 64 := by decide

/-- The last byte of `MEM`, a slice of 8 bits there; and a slice of 9. -/
theorem witness_BsrOpenSetsTheSlice :
    ((core tiny [] 0xFFFFF 8).status.fault = false ∧
      (core tiny [] 0xFFFFF 8).arg0.toNat < 2 ^ tiny.addrBits ∧
      (core tiny [] 0xFFFFF 8).arg0.toNat + ((core tiny [] 0xFFFFF 8).arg1.toNat + 7) / 8 ≤ 2 ^ tiny.addrBits) ∧
    2 ^ tiny.addrBits < (core tiny [] 0xFFFFF 9).arg0.toNat + ((core tiny [] 0xFFFFF 9).arg1.toNat + 7) / 8 ∧
    2 ^ tiny.addrBits ≤ (core tiny [] 0x100000 0).arg0.toNat := by decide

theorem witness_BsrBitReadsTheNextBit :
    (ReaderInv (State.reading s0 5 4) ∧ (State.reading s0 5 4).status.fault = false ∧
      (State.reading s0 5 4).r.bitsRead < (State.reading s0 5 4).r.sizeInBits) ∧
    ReaderInv (State.reading s0 5 5) ∧ (State.reading s0 5 5).r.bitsRead = (State.reading s0 5 5).r.sizeInBits := by
  decide

theorem witness_BsrBitsReadsLowBitsFirst :
    ReaderInv (State.reading s0 64 0) ∧ (State.reading s0 64 0).status.fault = false ∧ 64 ≤ 64 ∧
      (State.reading s0 64 0).r.bitsRead + 64 ≤ (State.reading s0 64 0).r.sizeInBits := by decide

theorem witness_BsrBitsPastTheEndFaults :
    ReaderInv (State.reading s0 5 5) ∧ (State.reading s0 5 5).status.fault = false ∧ 1 ≤ 64 ∧
      (State.reading s0 5 5).r.sizeInBits < (State.reading s0 5 5).r.bitsRead + 1 := by decide

/-- A slice that starts just past `MEM`, which `BSR.OPEN` refuses. -/
theorem witness_ReadsOutsideMemStop :
    ({ s0 with r := ⟨0x100000, 8, 0⟩ } : State).status.fault = false ∧ 1 ≤ 64 ∧ 2 ^ s0.cfg.addrBits ≤ 0x100000 ∧
      ({ s0 with r := ⟨0x100000, 8, 0⟩ } : State).r.lastByte 1 = some 0x100000 := by decide

theorem witness_WriterAndReaderAreInverse :
    tiny.Legal ∧ (Writer.fresh tiny).appendBits tiny [true, false, true] = .done ⟨[5, 0], 3, 2⟩ ∧
      ∀ i < ([true, false, true].length + 7) / 8,
        Memory.read (Memory.ofBytes 16 [5]) (16 + i) = (⟨[5, 0], 3, 2⟩ : Writer).wbuf.getD i 0#8 := by decide

/-- Sizes 0 and `2^19`, a range one byte past `MEM`, and a writer that holds a bit. -/
theorem witness_EncodersRefuseBadInput :
    IsEncoder .hufEnc ∧ s0.status.fault = false ∧
    ¬ (1 ≤ s0.arg1.toNat ∧ s0.arg1.toNat < 2 ^ tiny.lenBits ∧ s0.arg0.toNat + s0.arg1.toNat ≤ 2 ^ tiny.addrBits) ∧
    ¬ (core tiny [] 0 0x80000).arg1.toNat < 2 ^ tiny.lenBits ∧
    ¬ (core tiny [] 0xFFFFF 2).arg0.toNat + (core tiny [] 0xFFFFF 2).arg1.toNat ≤ 2 ^ tiny.addrBits ∧
    (1 ≤ (core tiny [] 0xFFFFF 1).arg1.toNat ∧ (core tiny [] 0xFFFFF 1).arg1.toNat < 2 ^ tiny.lenBits ∧
      (core tiny [] 0xFFFFF 1).arg0.toNat + (core tiny [] 0xFFFFF 1).arg1.toNat ≤ 2 ^ tiny.addrBits ∧
      (State.holding (core tiny [] 0xFFFFF 1) [1, 0] 1).w.bitsWritten ≠ 0) :=
  ⟨.inl rfl, by decide⟩

/-- A core asked to encode the byte `41`, with room for every encoder's stream. -/
def one : State := core wide [0x41] 16 1

theorem canEncode_one : CanEncode one := by decide +kernel
theorem input_one : one.input = [0x41] := rfl
theorem canEncode_roomy : CanEncode roomy := by decide +kernel
theorem input_roomy : roomy.input = [0x41, 0x42] := rfl

/-- The tables of an input are built and satisfy `p`. -/
def builtWith (input : List Byte) (p : HufScratch → Bool) : Bool :=
  match hufTables input with
  | .ok h => p h
  | .error _ => false

theorem exists_of_builtWith {input : List Byte} {p : HufScratch → Bool} (h : builtWith input p = true) :
    ∃ t, hufTables input = .ok t ∧ p t = true := by
  unfold builtWith at h
  split at h
  · next t ht => exact ⟨t, ht, h⟩
  · cases h

/-- V22: one symbol, the code of one 0 bit, a stream of 297 bits. -/
theorem tables_one : ∃ h, hufTables [0x41] = .ok h ∧ ((poolAt h.pool 0x41).code = ⟨0, 1⟩ ∧
    (hufStream h [0x41]).length = 297 ∧ h.root = some 0x41) := by
  obtain ⟨h, h1, h2⟩ := exists_of_builtWith (input := [0x41])
    (p := fun h => decide ((poolAt h.pool 0x41).code = ⟨0, 1⟩ ∧ (hufStream h [0x41]).length = 297 ∧
      h.root = some 0x41)) (by decide +kernel)
  exact ⟨h, h1, by simpa using h2⟩

/-- V22b: two symbols, codes `00` and `01` (the first extracted is the left child, branch bit 0), `L = 2`. -/
theorem tables_two : ∃ h, hufTables [0x00, 0xFF] = .ok h ∧ ((poolAt h.pool 0).code = ⟨0, 2⟩ ∧
    (poolAt h.pool 255).code = ⟨2, 2⟩ ∧ h.fieldWidth = 2 ∧ h.innerCount = 1) := by
  obtain ⟨h, h1, h2⟩ := exists_of_builtWith (input := [0x00, 0xFF])
    (p := fun h => decide ((poolAt h.pool 0).code = ⟨0, 2⟩ ∧ (poolAt h.pool 255).code = ⟨2, 2⟩ ∧
      h.fieldWidth = 2 ∧ h.innerCount = 1)) (by decide +kernel)
  exact ⟨h, h1, by simpa using h2⟩

theorem witness_HufEncWritesItsStream :
    ∃ h, CanEncode one ∧ hufTables one.input = .ok h ∧ RoomFor one (hufStream h one.input).length := by
  obtain ⟨h, h1, -, h2, -⟩ := tables_one
  exact ⟨h, canEncode_one, h1, room_of (by decide) (by rw [input_one, h2]; decide)⟩

/-- A writer of 3 bytes that cannot grow: room for the 18 bits of the stream, not for 12 bits per byte. -/
def snug : State := core ⟨3, 2, 20, 19, 3⟩ [0x41, 0x42] 16 2

theorem canEncode_snug : CanEncode snug := by decide
theorem input_snug : snug.input = [0x41, 0x42] := rfl

theorem room_snug_lzw : RoomFor snug (lzwStream snug.input).length := room_of (by decide) (by decide +kernel)

theorem witness_LzwEncWritesItsStream :
    CanEncode snug ∧ RoomFor snug (lzwStream snug.input).length ∧ ¬ RoomFor snug (12 * snug.arg1.toNat) :=
  ⟨canEncode_snug, room_snug_lzw, noRoom_of (by decide) (by decide)⟩

/-- A writer of 1 byte that cannot grow: room for the 7 bits of V42a, not for 9 bits per byte. -/
def zeros : State := core ⟨1, 2, 20, 19, 1⟩ [0, 0, 0] 16 3

theorem room_zeros : RoomFor zeros (4 + riceTotal zeros.input (riceSearch zeros.input).k) :=
  room_of (by decide) (by decide +kernel)

theorem witness_RiceEncWritesItsStream :
    CanEncode zeros ∧ (riceSearch zeros.input).k = 0 ∧ RoomFor zeros (4 + riceTotal zeros.input 0) ∧
      ¬ RoomFor zeros (4 + 9 * zeros.arg1.toNat) :=
  ⟨by decide, by decide +kernel, room_of (by decide) (by decide +kernel), noRoom_of (by decide) (by decide)⟩

/-- A writer of 1 byte that cannot grow. -/
def cramped : State := core ⟨1, 2, 20, 19, 1⟩ [0x41] 16 1

theorem witness_EncodersPastTheLimitFault :
    CanEncode cramped ∧
      (∃ h, hufTables cramped.input = .ok h ∧ ¬ RoomFor cramped (hufStream h cramped.input).length) ∧
      ¬ RoomFor cramped (lzwStream cramped.input).length ∧
      ¬ RoomFor cramped (riceStream (riceSearch cramped.input) cramped.input).length := by
  obtain ⟨h, h1, -, h2, -⟩ := tables_one
  have hi : cramped.input = [0x41] := rfl
  exact ⟨by decide, ⟨h, h1, noRoom_of (by decide) (by rw [hi, h2]; decide)⟩,
    noRoom_of (by decide) (by decide), noRoom_of (by decide) (by decide)⟩

theorem witness_HufEncEndsInOneOfThreeWays : CanEncode one := canEncode_one

/-- The same byte elsewhere in another `MEM`. -/
def elsewhere : State := { one with mem := Memory.ofBytes 32 [0x41, 0x99], arg0 := 32 }

theorem witness_EncodersDependOnlyOnTheInput :
    ∃ t t', IsEncoder .riceEnc ∧ CanEncode one ∧ CanEncode elsewhere ∧ one.cfg = elsewhere.cfg ∧
      one.w = elsewhere.w ∧ one.input = elsewhere.input ∧ exec .riceEnc one = .next t ∧
      exec .riceEnc elsewhere = .next t' :=
  ⟨_, _, .inr (.inr rfl), canEncode_one, by decide +kernel, rfl, rfl, rfl, rfl, rfl⟩

theorem witness_ReleaseDeliversTheEncodedStream :
    ∃ t, IsEncoder .riceEnc ∧ CanEncode one ∧ exec .riceEnc one = .next t ∧ t.status.fault = false :=
  ⟨_, .inr (.inr rfl), canEncode_one, rfl, by decide +kernel⟩

theorem witness_HufNodesCarryTheInputCounts :
    ∃ h, ([0x00, 0xFF] : List Byte) ≠ [] ∧ hufTables [0x00, 0xFF] = .ok h ∧ 0 < h.innerCount := by
  obtain ⟨h, h1, -, -, -, h2⟩ := tables_two
  exact ⟨h, by decide, h1, by omega⟩

theorem witness_HufExtractTakesTheSmallestPair : ([] : List Nat) = [] ∧ [3, 5] ≠ [] := by decide

theorem witness_HufNodePoolIsNeverExhausted :
    ∃ h, hufTables [0x00, 0xFF] = .ok h ∧ ([0x00, 0xFF] : List Byte) ≠ [] :=
  tables_two.imp fun _ h => ⟨h.1, by decide⟩

/-- Two bytes that occur, one that does not; and an input of one distinct byte. -/
theorem witness_HufCodesArePrefixFree :
    (∃ h, hufTables [0x00, 0xFF] = .ok h) ∧ (0x00#8 ∈ [0x00#8, 0xFF#8] ∧ 0xFF#8 ∈ [0x00#8, 0xFF#8] ∧
      0x00#8 ≠ 0xFF#8 ∧ 0x01#8 ∉ [0x00#8, 0xFF#8]) ∧
    (∃ h, hufTables [0x41] = .ok h) ∧ 0x41#8 ∈ [0x41#8] ∧ ∀ u ∈ [0x41#8], u = 0x41#8 :=
  ⟨tables_two.imp fun _ h => h.1, by decide, tables_one.imp fun _ h => h.1, by decide, by decide⟩

theorem witness_HufFieldWidthHoldsEveryLength :
    ∃ h, ([0x00, 0xFF] : List Byte) ≠ [] ∧ hufTables [0x00, 0xFF] = .ok h :=
  tables_two.imp fun _ h => ⟨by decide, h.1⟩

/-- A pool whose inner node `256 + j` has the leaf `j + 1` on the right and the node below it, or leaf 0, on the left: its
leaf 0 lies at depth `d` below node `255 + d`. -/
def comb (d : Nat) : HufScratch :=
  { hufInit with
    pool := List.replicate 256 HufNode.absent ++ (List.range d).map (fun j =>
      ⟨true, 0, some (if j = 0 then 0 else 255 + j), some (j + 1), HuffmanCode.empty⟩)
    root := some (255 + d) }

/-- R176: a leaf at depth 63 gets a code of 64 bits; at depth 64 the code generator faults. -/
theorem test_codeLength_64 :
    (match hufAssign (comb 63) with
      | .ok h => decide ((poolAt h.pool 0).code = ⟨0, 64⟩)
      | .error _ => false) = true := by decide +kernel
theorem test_codeLength_65 :
    (match hufAssign (comb 64) with
      | .ok _ => false
      | .error c => decide (c = .capCodeLen)) = true := by decide +kernel

theorem witness_HufCodeLengthFaultIsADeepNode : (comb 64).root = some 319 ∧ (comb 63).root = some 318 := by decide

theorem witness_HufTablesAreBuiltBelowFib66Bytes : ([0x41] : List Byte).length < 27777890035288 := by decide

/-- V31 in small: after `11 11 11` the dictionary holds one entry. -/
theorem witness_LzwScratchInvariants :
    (lzwBytes [0x11, 0x11, 0x11] lzwInit).2 = ⟨[⟨0x11, 0x11⟩], 257, 9, some 256⟩ := by decide

theorem witness_LzwWidthSchedule : (lzwEmissions [0x41])[0]? = some ⟨65, 9⟩ := by decide
theorem witness_LzwCodesFitTheirWidths : ([0x41] : List Byte) ≠ [] ∧ ⟨65, 9⟩ ∈ lzwEmissions [0x41] := by decide

theorem witness_RiceRoundTrip :
    (CanEncode zeros ∧ RoomFor zeros (4 + riceTotal zeros.input (riceSearch zeros.input).k) ∧ 1 ≤ 2 ∧
      2 < zeros.arg1.toNat) ∧
    GoodInput zeros 16 3 ∧ Memory.bytes zeros.mem 16 3 = [0, 0, 0] ∧
      RoomFor zeros.resetCore (4 + riceTotal [0, 0, 0] (riceSearch [0, 0, 0]).k) :=
  ⟨⟨by decide, room_zeros, by decide, by decide⟩, by unfold GoodInput; decide, rfl,
    room_of (by decide) (by decide +kernel)⟩

theorem witness_LzwRoundTrip :
    (CanEncode snug ∧ RoomFor snug (lzwStream snug.input).length ∧ snug.arg1.toNat ≤ 2) ∧
    GoodInput snug 16 2 ∧ Memory.bytes snug.mem 16 2 = [0x41, 0x42] ∧
      RoomFor snug.resetCore (lzwStream [0x41, 0x42]).length :=
  ⟨⟨canEncode_snug, room_snug_lzw, by decide⟩, by unfold GoodInput; decide, rfl,
    room_of (by decide) (by decide +kernel)⟩

theorem witness_HuffmanRoundTrip :
    (∃ h, CanEncode one ∧ hufTables one.input = .ok h ∧ RoomFor one (hufStream h one.input).length ∧ 1 ≤ 1) ∧
    ∃ h, GoodInput one 16 1 ∧ Memory.bytes one.mem 16 1 = [0x41] ∧ hufTables [0x41] = .ok h ∧
      RoomFor one.resetCore (hufStream h [0x41]).length := by
  refine ⟨witness_HufEncWritesItsStream.imp fun _ h => ⟨h.1, h.2.1, h.2.2, by decide⟩, ?_⟩
  obtain ⟨h, h1, -, h2, -⟩ := tables_one
  exact ⟨h, by unfold GoodInput; decide, rfl, h1, room_of (by decide) (by rw [h2]; decide)⟩

/-- V47, V34 in small: the stream of the byte `41` (V32, V43) after reset, released, decodes to it. -/
theorem test_roundTrip :
    ([Codec.lzw, .rice].all fun k =>
      match runActions (k.encodeLine 16 1 ++ asmBswRel) one.resetCore with
      | .next t => decide (t.released.length = 1) && t.released.all fun x => decide (k.decode x.stream x.bitsWritten 1 = .ok [0x41])
      | _ => false) = true := by decide +kernel

theorem witness_HuffmanHeaderRoundTrip :
    ∃ h, CanEncode one ∧ hufTables one.input = .ok h ∧ RoomFor one (hufStream h one.input).length :=
  witness_HufEncWritesItsStream

theorem witness_ResetHasTheInvariants : Config.default.Legal ∧ tiny.Legal := by decide

theorem witness_StepKeepsTheInvariants :
    ∃ t, Inv (State.facing s0 (.write 0 .w32 0x8001)) ∧ step (State.facing s0 (.write 0 .w32 0x8001)) = .next t :=
  ⟨_, ⟨by decide, by decide, by decide, by decide, by decide, by decide, by decide, by decide⟩, rfl⟩

theorem witness_CommandsKeepMemArgsAndConfig : ∃ t, exec .bswCode full = .next t := ⟨_, rfl⟩

theorem witness_ReaderAndWriterAreIndependent :
    (¬ IsReader .bswRel) ∧ IsReader .bsrBit ∧ ∃ t, exec .bsrBit (State.reading s0 5 4) = .next t :=
  ⟨by simp [IsReader], .inr (.inl rfl), _, rfl⟩

theorem witness_OnlyReleaseWritesTheLog : ∃ t, exec .bswRel full = .next t := ⟨_, rfl⟩

theorem witness_FaultsComeFromTheirCommands :
    (∃ t, exec (.bswBit true) full = .next t ∧ full.status.fault = false ∧ t.status.fault = true) ∧
    ∃ t, exec (.bsrBits 1) (State.reading s0 5 5) = .next t ∧ (State.reading s0 5 5).status.fault = false ∧
      t.status.fault = true :=
  ⟨⟨_, rfl, rfl, by decide⟩, _, rfl, rfl, by decide⟩

/-- At the end of the slice; and a command refused while `EOS` stands from one. -/
theorem witness_EosComesOnlyFromBsrBit :
    (∃ t, exec .bsrBit (State.reading s0 5 5) = .next t ∧ t.status.eos = true) ∧
    ∃ t, exec (.bswBits 65) { s0 with status := completedStatus true } = .next t ∧ t.status.eos = true :=
  ⟨⟨_, rfl, by decide⟩, _, rfl, by decide⟩

end Sys2Proof.Tests
end

section
/-! The host's side of a step, said once: which action reaches what (10_state.md R24, R25, R27, R28). -/

namespace Sys2Proof.Machine

theorem step_of_pending_nil {s : State} (h : s.pending = []) : step s = .next s := by
  rw [step, State.hostStep, h]

theorem step_of_pending_cons {s : State} {a : HostAction} {rest : List HostAction} (h : s.pending = a :: rest) :
    step s = s.takeAction a rest := by
  rw [step, State.hostStep, h]

theorem step_of_write {s : State} {off : Byte} {width : Width} {v : Word64} {rest : List HostAction}
    (h : s.pending = .write off width v :: rest) : step s = s.writeWindow rest off width v :=
  step_of_pending_cons h

/-! ### Writes -/

theorem writeWindow_cmd (s : State) (rest : List HostAction) (v : Word64) :
    s.writeWindow rest 0x00#8 .w32 v = s.writeCmd rest (v.setWidth 32) := rfl

theorem writeWindow_arg0 (s : State) (rest : List HostAction) (v : Word64) :
    s.writeWindow rest 0x08#8 .w64 v = s.writeArg { s with pending := rest, arg0 := v } := rfl

theorem writeWindow_arg1 (s : State) (rest : List HostAction) (v : Word64) :
    s.writeWindow rest 0x10#8 .w64 v = s.writeArg { s with pending := rest, arg1 := v } := rfl

theorem writeWindow_ignored {s : State} {rest : List HostAction} {off : Byte} {width : Width} {v : Word64}
    (hcmd : ¬ (off = 0x00#8 ∧ width = .w32)) (harg0 : ¬ (off = 0x08#8 ∧ width = .w64))
    (harg1 : ¬ (off = 0x10#8 ∧ width = .w64)) :
    s.writeWindow rest off width v = .next { s with pending := rest } := by
  unfold State.writeWindow
  split
  · next hoff => exact absurd ⟨BitVec.eq_of_toNat_eq hoff, rfl⟩ hcmd
  · next hoff => exact absurd ⟨BitVec.eq_of_toNat_eq hoff, rfl⟩ harg0
  · next hoff => exact absurd ⟨BitVec.eq_of_toNat_eq hoff, rfl⟩ harg1
  · rfl

theorem writeCmd_busy {s : State} (h : s.status.busy = true) (rest : List HostAction) (w : Word32) :
    s.writeCmd rest w = .next s := if_pos h

theorem writeCmd_idle {s : State} (h : s.status.busy = false) (rest : List HostAction) (w : Word32) :
    s.writeCmd rest w = (s.started rest).runWord w := if_neg (by simp [h])

theorem writeArg_busy {s : State} (h : s.status.busy = true) (t : State) :
    s.writeArg t = .fault .hostWriteWhileBusy := if_pos h

theorem writeArg_idle {s : State} (h : s.status.busy = false) (t : State) : s.writeArg t = .next t :=
  if_neg (by simp [h])

theorem runWord_of_decode_ok {w : Word32} {i : Instr} (h : decode w = .ok i) (s : State) :
    s.runWord w = exec i s := by
  rw [State.runWord, h]

theorem runWord_of_decode_error {w : Word32} {e : DecodeReject} (h : decode w = .error e) (s : State) :
    s.runWord w = s.unlessFaulted (.next (s.refuse .argIllegalCmd)) := by
  rw [State.runWord, h]

/-! ### Reads -/

theorem granularityWord_toNat {c : Config} (h : c.granularity < 2 ^ 64) :
    (granularityWord c).toNat = c.granularity := by
  rw [granularityWord, if_pos h, word64, BitVec.toNat_ofNat, Nat.mod_eq_of_lt h]

/-- The offsets of the 64-bit registers (R27). -/
def offsets64 : List Byte :=
  [0x08#8, 0x10#8, 0x18#8, 0x20#8, 0x28#8, 0x30#8, 0x38#8, 0x40#8, 0x48#8, 0x50#8, 0x58#8, 0x60#8]

theorem mem_offsets64_of_toNat_eq {off : Byte} {n : Nat} (h : off.toNat = n) (hn : BitVec.ofNat 8 n ∈ offsets64) :
    off ∈ offsets64 := by
  rwa [← h, BitVec.ofNat_toNat, BitVec.setWidth_eq] at hn

theorem readWindow_unmapped {s : State} {off : Byte} {width : Width} (h32 : ¬ (off = 0x04#8 ∧ width = .w32))
    (h64 : ¬ (off ∈ offsets64 ∧ width = .w64)) : s.readWindow off width = 0#64 := by
  unfold State.readWindow
  split
  case h_1 hoff => exact absurd ⟨BitVec.eq_of_toNat_eq hoff, rfl⟩ h32
  case h_14 => rfl
  all_goals exact absurd ⟨mem_offsets64_of_toNat_eq ‹_› (by decide), rfl⟩ h64

end Sys2Proof.Machine
end

section
/-! The `STATUS` word, bit by bit (10_state.md R26). -/

namespace Sys2Proof.Machine

/-- Bits 3:0 of the `STATUS` word as a number. -/
def Status.flags (st : Status) : Nat :=
  st.busy.toNat + st.fault.toNat * 2 + st.argErr.toNat * 4 + st.eos.toNat * 8

theorem Status.word_eq (st : Status) : st.word = BitVec.ofNat 32 (2 ^ 8 * st.cause.code.toNat + st.flags) := by
  rw [Status.word, Status.flags]
  congr 1
  omega

theorem Status.flags_lt (st : Status) : st.flags < 2 ^ 8 := by
  have hbusy := st.busy.toNat_le
  have hfault := st.fault.toNat_le
  have hargErr := st.argErr.toNat_le
  have heos := st.eos.toNat_le
  unfold Status.flags
  omega

theorem Status.flags_testBit (st : Status) {i : Nat} (hi : i < 8) :
    st.flags.testBit i = if i = 0 then st.busy else if i = 1 then st.fault else if i = 2 then st.argErr
      else if i = 3 then st.eos else false := by
  have table : ∀ a b c d : Bool, ∀ i < 8, (a.toNat + b.toNat * 2 + c.toNat * 4 + d.toNat * 8).testBit i =
      if i = 0 then a else if i = 1 then b else if i = 2 then c else if i = 3 then d else false := by decide
  exact table st.busy st.fault st.argErr st.eos i hi

/-- Below bit 8 the `STATUS` word is its flags, from bit 8 on its cause code. -/
theorem Status.word_getLsbD (st : Status) {i : Nat} (hi : i < 32) :
    st.word.getLsbD i = if i < 8 then st.flags.testBit i else st.cause.code.getLsbD (i - 8) := by
  rw [Status.word_eq, BitVec.getLsbD_ofNat, decide_eq_true hi, Bool.true_and,
    Nat.testBit_two_pow_mul_add _ st.flags_lt, BitVec.getLsbD]

end Sys2Proof.Machine
end

section
/-! What the shared ends of a command leave: one case lemma per end, and the log and `EOS` after it. -/

namespace Sys2Proof.Machine

/-- The end of an append command is a completion or a `CAP_ALLOC`, with some writer (R130, R132). -/
theorem appendAndEnd_cases (s : State) (bits : List Bool) :
    (∃ w, s.appendAndEnd bits = ({ s with w := w } : State).completeCounts) ∨
    (∃ w, s.appendAndEnd bits = ({ s with w := w } : State).raiseCounts .capAlloc) := by
  cases h : s.w.appendBits s.cfg bits with
  | done w => exact .inl ⟨w, appendAndEnd_done h⟩
  | full w => exact .inr ⟨w, appendAndEnd_full h⟩

theorem readBitEnd_bit {s : State} (h : s.r.bitsRead < s.r.sizeInBits) :
    s.readBitEnd = ({ s with r := { s.r with bitsRead := s.r.bitsRead + 1 } } : State).complete
      (word64 (s.r.bitOf s.mem s.r.bitsRead).toNat) (word64 (s.r.bitsRead + 1)) false := by
  rw [State.readBitEnd, readBit_some h]

theorem readBitEnd_eos {s : State} (h : s.r.sizeInBits ≤ s.r.bitsRead) :
    s.readBitEnd = s.complete 0 (word64 s.r.bitsRead) true := by
  rw [State.readBitEnd, readBit_none h]

/-- `read_bits` moves the position of the reader, not past the end of the slice, and nothing else of it (R154). -/
theorem readBitsFrom_reader (m : Memory) (n i : Nat) (v : Word64) (r : Reader) :
    ∃ p ≤ max r.bitsRead r.sizeInBits, (r.readBitsFrom m n i v).2 = { r with bitsRead := p } := by
  induction n generalizing i v r with
  | zero => exact ⟨r.bitsRead, Nat.le_max_left .., rfl⟩
  | succ n ih =>
    rw [Reader.readBitsFrom]
    by_cases hlt : r.bitsRead < r.sizeInBits
    · rw [readBit_some hlt]
      obtain ⟨p, hp, hr⟩ := ih (i + 1) (v ||| (BitVec.ofNat 64 (r.bitOf m r.bitsRead).toNat <<< i))
        { r with bitsRead := r.bitsRead + 1 }
      exact ⟨p, by simp only at hp; omega, hr⟩
    · rw [readBit_none (by omega)]
      exact ⟨r.bitsRead, Nat.le_max_left .., rfl⟩

/-- `BSR.BITS` completes with a value or ends in `STR_UNEXPECTED_END`, with the reader at some position of its slice
(R154). -/
theorem readBitsEnd_cases (s : State) (n : Nat) :
    ∃ p ≤ max s.r.bitsRead s.r.sizeInBits,
      (∃ v, s.readBitsEnd n =
        ({ s with r := { s.r with bitsRead := p } } : State).complete v (word64 p) false) ∨
      s.readBitsEnd n = ({ s with r := { s.r with bitsRead := p } } : State).raiseUnexpectedEnd := by
  obtain ⟨p, hp, hr⟩ := readBitsFrom_reader s.mem n 0 0 s.r
  refine ⟨p, hp, ?_⟩
  unfold State.readBitsEnd Reader.readBits
  rcases hread : s.r.readBitsFrom s.mem n 0 0 with ⟨v | v, r⟩ <;> rw [hread] at hr <;> cases hr
  · exact .inr rfl
  · exact .inl ⟨v, rfl⟩

@[simp] theorem appendAndEnd_released (s : State) (bits : List Bool) :
    (s.appendAndEnd bits).released = s.released := by
  obtain ⟨w, h⟩ | ⟨w, h⟩ := appendAndEnd_cases s bits <;> rw [h] <;> rfl

@[simp] theorem appendAndEnd_eos (s : State) (bits : List Bool) : (s.appendAndEnd bits).status.eos = false := by
  obtain ⟨w, h⟩ | ⟨w, h⟩ := appendAndEnd_cases s bits <;> rw [h] <;> rfl

@[simp] theorem readBitEnd_released (s : State) : s.readBitEnd.released = s.released := by
  obtain h | h := Nat.lt_or_ge s.r.bitsRead s.r.sizeInBits
  · rw [readBitEnd_bit h]; rfl
  · rw [readBitEnd_eos h]; rfl

/-- `BSR.BIT` sets `EOS` exactly at the end of the slice (R152). -/
theorem readBitEnd_eos_iff (s : State) : s.readBitEnd.status.eos = true ↔ s.r.sizeInBits ≤ s.r.bitsRead := by
  obtain h | h := Nat.lt_or_ge s.r.bitsRead s.r.sizeInBits
  · simp [readBitEnd_bit h, h]
  · simp [readBitEnd_eos h, h]

@[simp] theorem readBitsEnd_released (s : State) (n : Nat) : (s.readBitsEnd n).released = s.released := by
  obtain ⟨p, -, ⟨v, h⟩ | h⟩ := readBitsEnd_cases s n <;> rw [h] <;> rfl

@[simp] theorem readBitsEnd_eos (s : State) (n : Nat) : (s.readBitsEnd n).status.eos = false := by
  obtain ⟨p, -, ⟨v, h⟩ | h⟩ := readBitsEnd_cases s n <;> rw [h] <;> rfl

end Sys2Proof.Machine
end

section
/-! The invariants between commands. `BodyInv` is what every end of a command keeps, whatever its `STATUS`; each end adds
the two clauses of `Inv` about `STATUS`. -/

namespace Sys2Proof.Machine

/-! ### The invariants of `STATUS` after each end (R301, R356) -/

theorem statusInv_completed {st : Status} (hf : st.fault = false) (e : Bool) : StatusInv (st.completed e) := by
  simp [StatusInv, hf]

theorem statusInv_refused {st : Status} {k : Cause} (hf : st.fault = false)
    (hk : k = .argIllegalCmd ∨ k = .argCount ∨ k = .argSize ∨ k = .argNotEmpty) : StatusInv (st.refused k) := by
  simp [StatusInv, hf, hk]

/-- A refusal by a faulted core keeps the fault's cause. -/
theorem statusInv_refused_of_fault {st : Status} (h : StatusInv { st with busy := false }) (hf : st.fault = true)
    (k : Cause) : StatusInv (st.refused k) := by
  obtain ⟨-, hcause, -, -⟩ := h
  simp [StatusInv, hf, hcause hf]

theorem statusInv_faulted {k : Cause} (st : Status)
    (hk : k = .capCodeLen ∨ k = .capNodePool ∨ k = .capAlloc ∨ k = .strUnexpectedEnd) :
    StatusInv (st.faulted k) := by
  simp [StatusInv, hk]

/-! ### The invariants that do not speak of `STATUS` -/

/-- The writer invariants of R33 that hold in a faulted core too. -/
def Writer.Sound (c : Config) (w : Writer) : Prop :=
  BufferInv w.wbuf w.bytesAllocated w.bitsWritten ∧ 1 ≤ w.bytesAllocated ∧ w.bytesAllocated ≤ c.bufMaxBytes

theorem Writer.Ready.sound {c : Config} {w : Writer} (h : w.Ready c) : w.Sound c := by
  obtain ⟨hbuf, -, hone, hmax⟩ := h
  exact ⟨hbuf, hone, hmax⟩

theorem Writer.Sound.ready {c : Config} {w : Writer} (h : w.Sound c) (hroom : w.bitsWritten < 8 * w.bytesAllocated) :
    w.Ready c := by
  obtain ⟨hbuf, hone, hmax⟩ := h
  exact ⟨hbuf, hroom, hone, hmax⟩

theorem Writer.Ready.notFull {c : Config} {w : Writer} (h : w.Ready c) : w.bitsWritten < 8 * w.bytesAllocated := by
  obtain ⟨-, hlt, -, -⟩ := h
  exact hlt

/-- The clauses of `Inv` that do not speak of `STATUS`. -/
structure BodyInv (s : State) : Prop where
  cfg : s.cfg.Legal
  writer : s.w.Sound s.cfg
  reader : ReaderInv s
  scratch : ScratchInv s
  mem : MemInv s
  released : LogInv s.released
  delivered : LogInv s.delivered

/-- `Inv` is `BodyInv` and the two clauses about `STATUS`. -/
theorem inv_iff {s : State} : Inv s ↔
    BodyInv s ∧ StatusInv s.status ∧ (s.status.fault = false → s.w.bitsWritten < 8 * s.w.bytesAllocated) := by
  constructor
  · rintro ⟨hcfg, ⟨hbuf, hone, hmax, hroom⟩, hr, hst, hscratch, hmem, hrel, hdel⟩
    exact ⟨⟨hcfg, ⟨hbuf, hone, hmax⟩, hr, hscratch, hmem, hrel, hdel⟩, hst, hroom⟩
  · rintro ⟨⟨hcfg, ⟨hbuf, hone, hmax⟩, hr, hscratch, hmem, hrel, hdel⟩, hst, hroom⟩
    exact ⟨hcfg, ⟨hbuf, hone, hmax, hroom⟩, hr, hst, hscratch, hmem, hrel, hdel⟩

theorem BodyInv.withWriter {s : State} (h : BodyInv s) {w : Writer} (hw : w.Sound s.cfg) :
    BodyInv { s with w := w } := { h with writer := hw }

theorem BodyInv.withReader {s : State} (h : BodyInv s) {r : Reader} (hr : ReaderInv { s with r := r }) :
    BodyInv { s with r := r } := { h with reader := hr }

/-- Moving the reader within its slice keeps the invariants (R155). -/
theorem BodyInv.withPosition {s : State} (h : BodyInv s) {p : Nat} (hp : p ≤ s.r.sizeInBits) :
    BodyInv { s with r := { s.r with bitsRead := p } } := by
  obtain ⟨-, hsize, hbase, hend⟩ := h.reader
  exact h.withReader ⟨hp, hsize, hbase, hend⟩

/-! ### Each end of a command gives back the whole invariant -/

theorem BodyInv.complete {s : State} (h : BodyInv s) (hf : s.status.fault = false)
    (hroom : s.w.bitsWritten < 8 * s.w.bytesAllocated) (r0 r1 : Word64) (e : Bool) : Inv (s.complete r0 r1 e) :=
  inv_iff.2 ⟨{ h with }, statusInv_completed hf e, fun _ => hroom⟩

theorem BodyInv.raise {s : State} (h : BodyInv s) {k : Cause}
    (hk : k = .capCodeLen ∨ k = .capNodePool ∨ k = .capAlloc ∨ k = .strUnexpectedEnd) (r0 r1 : Word64) :
    Inv (s.raise k r0 r1) :=
  inv_iff.2 ⟨{ h with }, statusInv_faulted s.status hk, nofun⟩

theorem BodyInv.raiseUnexpectedEnd {s : State} (h : BodyInv s) : Inv s.raiseUnexpectedEnd :=
  inv_iff.2 ⟨{ h with }, statusInv_faulted s.status (.inr (.inr (.inr rfl))), nofun⟩

theorem BodyInv.refuse {s : State} (h : BodyInv s) (hf : s.status.fault = false)
    (hroom : s.w.bitsWritten < 8 * s.w.bytesAllocated) {k : Cause}
    (hk : k = .argIllegalCmd ∨ k = .argCount ∨ k = .argSize ∨ k = .argNotEmpty) : Inv (s.refuse k) :=
  inv_iff.2 ⟨{ h with }, statusInv_refused hf hk, fun _ => hroom⟩

/-- An append command keeps the invariants, completed or stopped by `CAP_ALLOC`. -/
theorem BodyInv.appendAndEnd {s : State} (h : BodyInv s) (hf : s.status.fault = false)
    (hroom : s.w.bitsWritten < 8 * s.w.bytesAllocated) (bits : List Bool) : Inv (s.appendAndEnd bits) := by
  have hready : s.w.Ready s.cfg := h.writer.ready hroom
  cases happ : s.w.appendBits s.cfg bits with
  | done w =>
    obtain ⟨-, hw⟩ := appendBits_done hready happ
    rw [appendAndEnd_done happ]
    exact (h.withWriter hw.sound).complete hf hw.notFull _ _ _
  | full w =>
    obtain ⟨-, -, -, -, hfull, hlen, hone, hmax, -⟩ := appendBits_full hready happ
    have hw : w.Sound s.cfg := ⟨⟨hlen, by omega, fun p _ _ => by omega⟩, hone, hmax⟩
    rw [appendAndEnd_full happ]
    exact (h.withWriter hw).raise (.inr (.inr (.inl rfl))) _ _

theorem BodyInv.releaseEnd {s : State} (h : BodyInv s) (hf : s.status.fault = false) : Inv s.releaseEnd := by
  have hfresh : (Writer.fresh s.cfg).Ready s.cfg := fresh_ready h.cfg
  obtain ⟨hbuf, -, -⟩ := h.writer
  have hlog : LogInv (s.released ++ [⟨s.w.wbuf, s.w.bytesAllocated, s.w.bitsWritten⟩]) := by
    intro x hx
    rcases List.mem_append.1 hx with hx | hx
    · exact h.released x hx
    · obtain rfl := List.mem_singleton.1 hx
      exact hbuf
  have hbody : BodyInv { s with
      released := s.released ++ [⟨s.w.wbuf, s.w.bytesAllocated, s.w.bitsWritten⟩]
      w := Writer.fresh s.cfg } := { h.withWriter hfresh.sound with released := hlog }
  exact hbody.complete hf hfresh.notFull _ _ _

theorem BodyInv.openReader {s : State} (h : BodyInv s) (hf : s.status.fault = false)
    (hroom : s.w.bitsWritten < 8 * s.w.bytesAllocated) (hr : sliceRangeOk s.cfg s.arg0.toNat s.arg1.toNat = true) :
    Inv (({ s with r := ⟨s.arg0.toNat, s.arg1.toNat, 0⟩ } : State).complete 0 0 false) := by
  obtain ⟨hbase, hend⟩ := (sliceRangeOk_iff _ _ _).1 hr
  have hreader : ReaderInv { s with r := ⟨s.arg0.toNat, s.arg1.toNat, 0⟩ } :=
    ⟨Nat.zero_le _, s.arg1.isLt, hbase, hend⟩
  exact (h.withReader hreader).complete hf hroom _ _ _

theorem BodyInv.readBitEnd {s : State} (h : BodyInv s) (hf : s.status.fault = false)
    (hroom : s.w.bitsWritten < 8 * s.w.bytesAllocated) : Inv s.readBitEnd := by
  obtain hlt | hge := Nat.lt_or_ge s.r.bitsRead s.r.sizeInBits
  · rw [readBitEnd_bit hlt]
    exact (h.withPosition hlt).complete hf hroom _ _ _
  · rw [readBitEnd_eos hge]
    exact h.complete hf hroom _ _ _

theorem BodyInv.readBitsEnd {s : State} (h : BodyInv s) (hf : s.status.fault = false)
    (hroom : s.w.bitsWritten < 8 * s.w.bytesAllocated) (n : Nat) : Inv (s.readBitsEnd n) := by
  obtain ⟨p, hp, hend⟩ := readBitsEnd_cases s n
  have hbody := h.withPosition (p := p) (by rwa [Nat.max_eq_right h.reader.1] at hp)
  obtain ⟨v, hend⟩ | hend := hend
  · rw [hend]
    exact hbody.complete hf hroom _ _ _
  · rw [hend]
    exact hbody.raiseUnexpectedEnd

theorem inv_dropHuf {s : State} (h : Inv s) : Inv s.dropHuf := by
  obtain ⟨hbody, hrest⟩ := inv_iff.1 h
  exact inv_iff.2 ⟨{ hbody with scratch := ⟨rfl, hbody.scratch.2⟩ }, hrest⟩

theorem inv_dropLzw {s : State} (h : Inv s) : Inv s.dropLzw := by
  obtain ⟨hbody, hrest⟩ := inv_iff.1 h
  obtain ⟨hh, -, hc⟩ := hbody.scratch
  exact inv_iff.2 ⟨{ hbody with scratch := ⟨hh, rfl, hc⟩ }, hrest⟩

theorem inv_dropRice {s : State} (h : Inv s) : Inv s.dropRice := by
  obtain ⟨hbody, hrest⟩ := inv_iff.1 h
  obtain ⟨hh, hz, -⟩ := hbody.scratch
  exact inv_iff.2 ⟨{ hbody with scratch := ⟨hh, hz, rfl⟩ }, hrest⟩

/-! ### Commands -/

/-- The invariants inside a command: those between commands but for `BUSY`. -/
def Running (s : State) : Prop := Inv { s with status := { s.status with busy := false } }

theorem Running.started {s : State} (h : Inv s) (rest : List HostAction) : Running (s.started rest) := by
  obtain ⟨hbody, ⟨-, hst⟩, hroom⟩ := inv_iff.1 h
  exact inv_iff.2 ⟨{ hbody with }, ⟨rfl, hst⟩, hroom⟩

theorem Running.body {s : State} (h : Running s) : BodyInv s := by
  obtain ⟨hbody, -⟩ := inv_iff.1 h
  exact { hbody with }

theorem Running.notFull {s : State} (h : Running s) (hf : s.status.fault = false) :
    s.w.bitsWritten < 8 * s.w.bytesAllocated := by
  obtain ⟨-, -, hroom⟩ := inv_iff.1 h
  exact hroom hf

theorem Running.refuse_of_fault {s : State} (h : Running s) (hf : s.status.fault = true) (k : Cause) :
    Inv (s.refuse k) := by
  obtain ⟨-, hst, -⟩ := inv_iff.1 h
  exact inv_iff.2 ⟨{ h.body with }, statusInv_refused_of_fault hst hf k, fun hnf => absurd (hf.symm.trans hnf) nofun⟩

/-- Every end of a command has the invariants. -/
theorem Running.ends {s t : State} {i : Instr} (h : Running s) (he : Ends s i t) : Inv t := by
  have hbody := h.body
  cases he with
  | faulted _ hf => exact h.refuse_of_fault hf _
  | bit _ hf | bits _ hf | code hf => exact hbody.appendAndEnd hf (h.notFull hf) _
  | bitsCount _ hf | codeCount hf | readCount _ hf => exact hbody.refuse hf (h.notFull hf) (.inr (.inl rfl))
  | rel hf => exact hbody.releaseEnd hf
  | cnt hf => exact hbody.complete hf (h.notFull hf) _ _ _
  | openSize hf | encSize _ _ hf => exact hbody.refuse hf (h.notFull hf) (.inr (.inr (.inl rfl)))
  | readBit hf => exact hbody.readBitEnd hf (h.notFull hf)
  | readBits n hf => exact hbody.readBitsEnd hf (h.notFull hf) n
  | encNotEmpty _ _ hf => exact hbody.refuse hf (h.notFull hf) (.inr (.inr (.inr rfl)))
  | huf _ hf => exact inv_dropHuf (hbody.appendAndEnd hf (h.notFull hf) _)
  | hufFault k hf _ _ hk =>
    obtain rfl | rfl := hufTables_error hk
    · exact inv_dropHuf (hbody.raise (.inr (.inl rfl)) _ _)
    · exact inv_dropHuf (hbody.raise (.inl rfl) _ _)
  | lzw hf => exact inv_dropLzw (hbody.appendAndEnd hf (h.notFull hf) _)
  | rice hf => exact inv_dropRice (hbody.appendAndEnd hf (h.notFull hf) _)
  | _ => -- the accepted `BSR.OPEN`, whose constructor's name is a keyword
    next hf hr => exact hbody.openReader hf (h.notFull hf) hr

/-- A command word leaves a state with the invariants, legal or illegal (R99). -/
theorem Running.runWord {s t : State} {w : Word32} (h : Running s) (hw : s.runWord w = .next t) : Inv t := by
  cases hd : decode w with
  | ok i =>
    rw [runWord_of_decode_ok hd] at hw
    exact h.ends (exec_ends hw)
  | error e =>
    rw [runWord_of_decode_error hd] at hw
    cases hf : s.status.fault with
    | true =>
      rw [unlessFaulted_fault hf] at hw
      cases hw
      exact h.refuse_of_fault hf _
    | false =>
      rw [unlessFaulted_ok hf] at hw
      cases hw
      exact h.body.refuse hf (h.notFull hf) (.inl rfl)

/-! ### Reset and the host's actions -/

theorem bodyInv_resetWith {c : Config} (h : c.Legal) : BodyInv (State.resetWith c) where
  cfg := h
  writer := (fresh_ready h).sound
  reader := ⟨Nat.le_refl 0, Nat.two_pow_pos 64, Nat.two_pow_pos _, by simp [State.resetWith, Reader.empty, ceil8]⟩
  scratch := ⟨rfl, rfl, rfl⟩
  mem := ⟨reset_wf c, nofun⟩
  released := nofun
  delivered := nofun

theorem statusInv_reset : StatusInv Status.reset := ⟨rfl, nofun, nofun, fun _ _ => rfl⟩

theorem inv_resetWith {c : Config} (h : c.Legal) : Inv (State.resetWith c) :=
  inv_iff.2 ⟨bodyInv_resetWith h, statusInv_reset, fun _ => (fresh_ready h).notFull⟩

/-- The reset input gives back the invariants; the records set aside keep R65. -/
theorem inv_resetCore {s : State} (h : Inv s) : Inv s.resetCore := by
  obtain ⟨hbody, -⟩ := inv_iff.1 h
  have hlog : LogInv (s.delivered ++ s.released) := fun x hx =>
    (List.mem_append.1 hx).elim (hbody.delivered x) (hbody.released x)
  exact inv_iff.2 ⟨{ bodyInv_resetWith hbody.cfg with mem := hbody.mem, delivered := hlog }, statusInv_reset,
    fun _ => (fresh_ready hbody.cfg).notFull⟩

theorem memInv_write {s : State} (h : MemInv s) {a : Nat} (ha : a < memBytes s.cfg) (v : Byte) :
    MemInv { s with mem := Memory.write s.mem a v } := by
  obtain ⟨hwf, hlt⟩ := h
  refine ⟨write_wf hwf a v, fun x hx => ?_⟩
  obtain rfl | hx := write_mem hx
  · exact ha
  · exact hlt x hx

theorem inv_hostStore {s t : State} {rest : List HostAction} {a : Nat} {v : Byte} (h : Inv s)
    (ht : s.hostStore rest a v = .next t) : Inv t := by
  obtain ⟨hbody, hstatus⟩ := inv_iff.1 h
  unfold State.hostStore at ht
  split at ht
  · next ha =>
    cases ht
    exact inv_iff.2 ⟨{ hbody with mem := memInv_write hbody.mem ha v }, hstatus⟩
  · cases ht

theorem inv_writeWindow {s t : State} {rest : List HostAction} {off : Byte} {width : Width} {v : Word64} (h : Inv s)
    (ht : s.writeWindow rest off width v = .next t) : Inv t := by
  obtain ⟨-, ⟨hidle, -⟩, -⟩ := inv_iff.1 h
  by_cases hcmd : off = 0x00#8 ∧ width = .w32
  · obtain ⟨rfl, rfl⟩ := hcmd
    rw [writeWindow_cmd, writeCmd_idle hidle] at ht
    exact (Running.started h rest).runWord ht
  by_cases harg0 : off = 0x08#8 ∧ width = .w64
  · obtain ⟨rfl, rfl⟩ := harg0
    rw [writeWindow_arg0, writeArg_idle hidle] at ht
    cases ht
    exact h
  by_cases harg1 : off = 0x10#8 ∧ width = .w64
  · obtain ⟨rfl, rfl⟩ := harg1
    rw [writeWindow_arg1, writeArg_idle hidle] at ht
    cases ht
    exact h
  · rw [writeWindow_ignored hcmd harg0 harg1] at ht
    cases ht
    exact h

theorem inv_takeAction {s t : State} {a : HostAction} {rest : List HostAction} (h : Inv s)
    (ht : s.takeAction a rest = .next t) : Inv t := by
  cases a with
  | write off width v => exact inv_writeWindow h ht
  | read off width => cases ht; exact h
  | storeMem a v => exact inv_hostStore h ht
  | reset => cases ht; exact inv_resetCore (s := { s with pending := rest }) h

end Sys2Proof.Machine
end

section
/-! The obligations of the state and of the host's side. -/

namespace Sys2Proof.Machine

/-- Settles O55, by the host's action: `inv_takeAction`, and for a command `Running.ends` over its ends. -/
theorem stepKeepsTheInvariants : Obligations.StepKeepsTheInvariants := by
  intro s t h ht
  cases hp : s.pending with
  | nil =>
    rw [step_of_pending_nil hp] at ht
    cases ht
    exact h
  | cons a rest =>
    rw [step_of_pending_cons hp] at ht
    exact inv_takeAction h ht

/-- Settles O58, by the ends of a command: `releaseEnd` alone touches the log. -/
theorem onlyReleaseWritesTheLog : Obligations.OnlyReleaseWritesTheLog := by
  intro i s t h
  cases exec_ends h with
  | rel => exact .inr ⟨rfl, rfl⟩
  | bit | bits | code | huf | lzw | rice => exact .inl (appendAndEnd_released ..)
  | readBit => exact .inl (readBitEnd_released s)
  | readBits n => exact .inl (readBitsEnd_released s n)
  | _ => exact .inl rfl

/-- Settles O60, by the ends of a command: a refusal keeps `EOS`, `BSR.BIT` sets it at the end of the slice, and every
other end clears it. -/
theorem eosComesOnlyFromBsrBit : Obligations.EosComesOnlyFromBsrBit := by
  intro i s t h heos
  cases exec_ends h with
  | faulted | bitsCount | codeCount | openSize | readCount | encSize | encNotEmpty => exact .inr ⟨rfl, heos⟩
  | readBit => exact .inl ⟨rfl, (readBitEnd_eos_iff s).1 heos⟩
  | bit | bits | code | huf | lzw | rice => exact absurd heos (by simp)
  | readBits n => exact absurd heos (by simp)
  | _ => exact absurd heos nofun

/-- Settles O5, through the write of `CMD` and the decoder. -/
theorem stepRunsDecodedCommand : Obligations.StepRunsDecodedCommand := by
  intro s v rest i hp hidle hd
  rw [step_of_write hp, writeWindow_cmd, writeCmd_idle hidle, runWord_of_decode_ok hd]
  rfl

/-- Settles O7. -/
theorem idleCoreDoesNotChange : Obligations.IdleCoreDoesNotChange :=
  fun _ h => step_of_pending_nil h

/-- Settles O8: `CMD` waits, and a write of either operand register stops the model. -/
theorem busyCoreStallsCommandWrites : Obligations.BusyCoreStallsCommandWrites := by
  intro s v rest hbusy
  refine ⟨fun hp => ?_, fun hp => ?_⟩
  · rw [step_of_write hp, writeWindow_cmd, writeCmd_busy hbusy]
  · obtain hp | hp := hp
    · rw [step_of_write hp, writeWindow_arg0, writeArg_busy hbusy]
    · rw [step_of_write hp, writeWindow_arg1, writeArg_busy hbusy]

/-- Settles O9, one clause per row of the write map. -/
theorem hostWritesReachOnlyCmdAndArgs : Obligations.HostWritesReachOnlyCmdAndArgs := by
  intro s off width v rest hp hidle
  rw [step_of_write hp]
  refine ⟨?_, ?_, writeWindow_ignored⟩
  · rintro rfl rfl
    rw [writeWindow_arg0, writeArg_idle hidle]
  · rintro rfl rfl
    rw [writeWindow_arg1, writeArg_idle hidle]

/-- Settles O10: the value is that of `State.readWindow`, whose map is the statement's. -/
theorem hostReadsFollowTheRegisterMap : Obligations.HostReadsFollowTheRegisterMap := by
  intro s off width rest hp
  refine ⟨s.readWindow off width, step_of_pending_cons hp, ?_, ?_, ?_, ?_, ?_, ?_, ?_, ?_, ?_, ?_, ?_, ?_, ?_, ?_⟩
  case refine_12 => rintro rfl rfl hg; exact granularityWord_toNat hg
  case refine_14 => exact readWindow_unmapped
  all_goals rintro rfl rfl; rfl

/-- Settles O14: the flags below bit 8, the cause code from bit 8 on. -/
theorem statusWordHasTheStatedLayout : Obligations.StatusWordHasTheStatedLayout := by
  refine ⟨fun st i hi => ?_, by decide⟩
  rw [st.word_getLsbD hi]
  by_cases hlow : i < 8
  · rw [if_pos hlow, st.flags_testBit hlow, if_neg (by omega : ¬ (8 ≤ i ∧ i < 16))]
  · rw [if_neg hlow, if_neg (by omega), if_neg (by omega), if_neg (by omega), if_neg (by omega)]
    by_cases hcause : i < 16
    · rw [if_pos ⟨Nat.not_lt.1 hlow, hcause⟩]
    · rw [if_neg (by omega), BitVec.getLsbD_of_ge _ _ (by omega)]

/-- Settles O54. -/
theorem resetHasTheInvariants : Obligations.ResetHasTheInvariants :=
  fun _ h => ⟨inv_resetWith h, rfl⟩

end Sys2Proof.Machine
end

section
/-! The commands and `MEM` (20_memory.md): a host store, a read outside `MEM`, what every end of a command leaves as it was, and
what the encoder commands make of their input. -/

namespace Sys2Proof.Machine

/-! ### Accesses of the host and of the reader -/

theorem hostStore_inside {s : State} {a : Nat} (h : a < memBytes s.cfg) (rest : List HostAction) (v : Byte) :
    s.hostStore rest a v = .next { s with pending := rest, mem := Memory.write s.mem a v } := if_pos h

theorem hostStore_outside {s : State} {a : Nat} (h : memBytes s.cfg ≤ a) (rest : List HostAction) (v : Byte) :
    s.hostStore rest a v = .fault (.noSuchAddress a) := if_neg (by omega)

/-- A slice whose last byte lies outside `MEM` stops the model. -/
theorem withSlice_outside {s : State} {n a : Nat} (hlast : s.r.lastByte n = some a) (ha : memBytes s.cfg ≤ a)
    (t : State) : s.withSlice n t = .fault (.noSuchAddress a) := by
  rw [State.withSlice, hlast]
  exact if_neg (by omega)

theorem exec_bsrBit_of_unfaulted {s : State} (hf : s.status.fault = false) :
    exec .bsrBit s = s.withSlice 1 s.readBitEnd := unlessFaulted_ok hf _

theorem exec_bsrBits_of_unfaulted {s : State} {n : Nat} (hf : s.status.fault = false) (hn : n ≤ 64) :
    exec (.bsrBits n) s = s.withSlice n (s.readBitsEnd n) :=
  (unlessFaulted_ok hf _).trans (if_neg (Nat.not_lt.2 hn))

/-! ### What no command changes -/

/-- `MEM`, the operand registers, the configuration and the host's side are those of `s`. -/
def KeepsHostSide (s t : State) : Prop :=
  t.mem = s.mem ∧ t.arg0 = s.arg0 ∧ t.arg1 = s.arg1 ∧ t.cfg = s.cfg ∧ t.pending = s.pending ∧
    t.readData = s.readData ∧ t.delivered = s.delivered

theorem KeepsHostSide.refl (s : State) : KeepsHostSide s s := ⟨rfl, rfl, rfl, rfl, rfl, rfl, rfl⟩

theorem appendAndEnd_keepsHostSide (s : State) (bits : List Bool) : KeepsHostSide s (s.appendAndEnd bits) := by
  obtain ⟨w, h⟩ | ⟨w, h⟩ := appendAndEnd_cases s bits <;> rw [h] <;> exact .refl s

theorem readBitEnd_keepsHostSide (s : State) : KeepsHostSide s s.readBitEnd := by
  obtain h | h := Nat.lt_or_ge s.r.bitsRead s.r.sizeInBits
  · rw [readBitEnd_bit h]; exact .refl s
  · rw [readBitEnd_eos h]; exact .refl s

theorem readBitsEnd_keepsHostSide (s : State) (n : Nat) : KeepsHostSide s (s.readBitsEnd n) := by
  obtain ⟨p, -, ⟨v, h⟩ | h⟩ := readBitsEnd_cases s n <;> rw [h] <;> exact .refl s

theorem Ends.keepsHostSide {s t : State} {i : Instr} (h : Ends s i t) : KeepsHostSide s t := by
  cases h with
  | bit | bits | code | huf | lzw | rice => exact appendAndEnd_keepsHostSide s _
  | readBit => exact readBitEnd_keepsHostSide s
  | readBits n => exact readBitsEnd_keepsHostSide s n
  | _ => exact .refl s

/-! ### An encoder command once its checks have passed -/

theorem CanEncode.unfaulted {s : State} (h : CanEncode s) : s.status.fault = false := by
  obtain ⟨⟨-, -, hf⟩, -⟩ := h
  exact hf

theorem encodeInput_of_canEncode {s : State} (h : CanEncode s) (body : List Byte → State) :
    s.encodeInput body = body s.input := by
  obtain ⟨-, -, hempty, hpos, hsize, hend⟩ := h
  exact encodeInput_ok ((inputRangeOk_iff _ _ _).2 ⟨hpos, hsize, hend⟩) hempty

theorem exec_hufEnc_of_tables {s : State} {tables : HufScratch} (h : CanEncode s)
    (ht : hufTables s.input = .ok tables) :
    exec .hufEnc s = .next (s.appendAndEnd (hufStream tables s.input)).dropHuf := by
  rw [exec, execHufEnc, unlessFaulted_ok h.unfaulted, encodeInput_of_canEncode h, hufRun_ok ht]

theorem exec_hufEnc_of_error {s : State} {k : Cause} (h : CanEncode s) (ht : hufTables s.input = .error k) :
    exec .hufEnc s = .next (s.raiseCounts k).dropHuf := by
  rw [exec, execHufEnc, unlessFaulted_ok h.unfaulted, encodeInput_of_canEncode h, hufRun_error ht]

theorem exec_lzwEnc_of_canEncode {s : State} (h : CanEncode s) :
    exec .lzwEnc s = .next (s.appendAndEnd (lzwStream s.input)).dropLzw := by
  rw [exec, execLzwEnc, unlessFaulted_ok h.unfaulted, encodeInput_of_canEncode h, lzwRun_eq]

theorem exec_riceEnc_of_canEncode {s : State} (h : CanEncode s) :
    exec .riceEnc s = .next (s.appendAndEnd (riceStream (riceSearch s.input) s.input)).dropRice := by
  rw [exec, execRiceEnc, unlessFaulted_ok h.unfaulted, encodeInput_of_canEncode h, riceRun_eq]

/-! ### Two cores with the same writer -/

/-- What an encoder command leaves is the same in both: the writer, the results and `STATUS`. -/
def SameReport (t t' : State) : Prop :=
  t.w = t'.w ∧ t.res0 = t'.res0 ∧ t.res1 = t'.res1 ∧ t.status = t'.status

/-- A completion of an unfaulted core fixes every field of `STATUS` (R305). -/
theorem Status.completed_of_unfaulted {st : Status} (hf : st.fault = false) (e : Bool) :
    st.completed e = completedStatus e := by
  rw [Status.completed, hf, completedStatus]

theorem completeCounts_sameReport {s s' : State} (hw : s.w = s'.w) (hf : s.status.fault = false)
    (hf' : s'.status.fault = false) : SameReport s.completeCounts s'.completeCounts := by
  simp [SameReport, hw, Status.completed_of_unfaulted hf, Status.completed_of_unfaulted hf']

/-- A fault fixes every field of `STATUS`, whatever it was before (R310). -/
theorem raiseCounts_sameReport {s s' : State} (hw : s.w = s'.w) (k : Cause) :
    SameReport (s.raiseCounts k) (s'.raiseCounts k) := by
  simp [SameReport, hw, Status.faulted]

theorem appendAndEnd_sameReport {s s' : State} (hcfg : s.cfg = s'.cfg) (hw : s.w = s'.w)
    (hf : s.status.fault = false) (hf' : s'.status.fault = false) (bits : List Bool) :
    SameReport (s.appendAndEnd bits) (s'.appendAndEnd bits) := by
  cases h : s.w.appendBits s.cfg bits with
  | done w =>
    rw [appendAndEnd_done h, appendAndEnd_done (hcfg ▸ hw ▸ h)]
    exact completeCounts_sameReport rfl hf hf'
  | full w =>
    rw [appendAndEnd_full h, appendAndEnd_full (hcfg ▸ hw ▸ h)]
    exact raiseCounts_sameReport rfl .capAlloc

end Sys2Proof.Machine
end

section
/-! The obligations of `MEM`. -/

namespace Sys2Proof.Machine

/-- Settles O11: the read-after-write law of `MEM` under its canonical form, and the stop outside it. -/
theorem hostStoreChangesOneByte : Obligations.HostStoreChangesOneByte := by
  intro s a v rest hp hmem
  have hstep : step s = s.hostStore rest a v := step_of_pending_cons hp
  refine ⟨fun ha => ?_, fun ha => hstep.trans (hostStore_outside ha rest v)⟩
  have hread := read_write hmem.1 a v
  exact ⟨_, hstep.trans (hostStore_inside ha rest v), rfl, memInv_write hmem ha v, (hread a).trans (if_pos rfl),
    fun b hb => (hread b).trans (if_neg hb)⟩

/-- Settles O36, by the encoder: each appends a stream that is a function of the input bytes, or for `HUF.ENC` ends in the
fault of its tables, another such function. -/
theorem encodersDependOnlyOnTheInput : Obligations.EncodersDependOnlyOnTheInput := by
  intro i s s' t t' hi hs hs' hcfg hw hin ht ht'
  have happend : ∀ bits, SameReport (s.appendAndEnd bits) (s'.appendAndEnd bits) :=
    appendAndEnd_sameReport hcfg hw hs.unfaulted hs'.unfaulted
  obtain rfl | rfl | rfl := hi
  · cases htables : hufTables s.input with
    | ok tables =>
      rw [exec_hufEnc_of_tables hs htables] at ht
      rw [exec_hufEnc_of_tables hs' (hin ▸ htables), ← hin] at ht'
      cases ht; cases ht'
      exact happend _
    | error k =>
      rw [exec_hufEnc_of_error hs htables] at ht
      rw [exec_hufEnc_of_error hs' (hin ▸ htables)] at ht'
      cases ht; cases ht'
      exact raiseCounts_sameReport hw k
  · rw [exec_lzwEnc_of_canEncode hs] at ht
    rw [exec_lzwEnc_of_canEncode hs', ← hin] at ht'
    cases ht; cases ht'
    exact happend _
  · rw [exec_riceEnc_of_canEncode hs] at ht
    rw [exec_riceEnc_of_canEncode hs', ← hin] at ht'
    cases ht; cases ht'
    exact happend _

/-- Settles O56, by the ends of a command. -/
theorem commandsKeepMemArgsAndConfig : Obligations.CommandsKeepMemArgsAndConfig :=
  fun _ _ _ h => (exec_ends h).keepsHostSide

/-- Settles O28: both commands run under `State.withSlice`. -/
theorem readsOutsideMemStop : Obligations.ReadsOutsideMemStop := by
  intro s n a hf hn ha
  refine ⟨fun hlast => ?_, fun hlast => ?_⟩
  · rw [exec_bsrBits_of_unfaulted hf hn, withSlice_outside hlast ha]
  · rw [exec_bsrBit_of_unfaulted hf, withSlice_outside hlast ha]

end Sys2Proof.Machine
end

section
/-! The decoder and the encoder (30_encoding.md R96 to R103): the fields of a command word, what each format accepts, and
that decoding and encoding agree. -/

namespace Sys2Proof

/-! ### The fields of a command word -/

theorem commandWord_toNat {op n : Nat} (hop : op < 256) (hn : n < 128) (b : Bool) :
    (commandWord op n b).toNat = op + n * 256 + b.toNat * 32768 := by
  have hb := b.toNat_le
  rw [commandWord, BitVec.toNat_ofNat, Nat.mod_eq_of_lt (by omega)]

theorem fieldB_eq (w : Word32) : fieldB w = decide (w.toNat / 32768 % 2 = 1) := by
  rw [fieldB, Nat.testBit_eq_decide_div_mod_eq]

@[simp] theorem fieldOp_commandWord {op n : Nat} (hop : op < 256) (hn : n < 128) (b : Bool) :
    fieldOp (commandWord op n b) = op := by
  rw [fieldOp, commandWord_toNat hop hn]; omega

@[simp] theorem fieldN_commandWord {op n : Nat} (hop : op < 256) (hn : n < 128) (b : Bool) :
    fieldN (commandWord op n b) = n := by
  rw [fieldN, commandWord_toNat hop hn]; omega

@[simp] theorem fieldB_commandWord {op n : Nat} (hop : op < 256) (hn : n < 128) (b : Bool) :
    fieldB (commandWord op n b) = b := by
  rw [fieldB_eq, commandWord_toNat hop hn]
  cases b <;> simp <;> omega

@[simp] theorem fieldHigh_commandWord {op n : Nat} (hop : op < 256) (hn : n < 128) (b : Bool) :
    fieldHigh (commandWord op n b) = 0 := by
  have hb := b.toNat_le
  rw [fieldHigh, commandWord_toNat hop hn]; omega

theorem fieldOp_lt (w : Word32) : fieldOp w < 256 := Nat.mod_lt _ (by decide)

theorem fieldN_lt (w : Word32) : fieldN w < 128 := Nat.mod_lt _ (by decide)

/-- A word with bits 31:16 zero is made of its three fields (R96). -/
theorem commandWord_fields {w : Word32} (h : fieldHigh w = 0) :
    commandWord (fieldOp w) (fieldN w) (fieldB w) = w := by
  have hB : (fieldB w).toNat = w.toNat / 32768 % 2 := by
    rw [fieldB, Nat.toNat_testBit]
  apply BitVec.eq_of_toNat_eq
  rw [commandWord_toNat (fieldOp_lt w) (fieldN_lt w), hB]
  unfold fieldHigh at h
  unfold fieldOp fieldN
  omega

/-! ### What the formats accept (R97) -/

theorem formatZA_eq_ok {w : Word32} {i j : Instr} :
    formatZA w i = .ok j ↔ (fieldN w = 0 ∧ fieldB w = false) ∧ i = j := by
  unfold formatZA; split <;> simp [*]

theorem formatB_eq_ok {w : Word32} {i : Bool → Instr} {j : Instr} :
    formatB w i = .ok j ↔ fieldN w = 0 ∧ i (fieldB w) = j := by
  unfold formatB; split <;> simp [*]

theorem formatN_eq_ok {w : Word32} {i : Nat → Instr} {j : Instr} :
    formatN w i = .ok j ↔ fieldB w = false ∧ i (fieldN w) = j := by
  unfold formatN; split <;> simp [*]

theorem formatZA_error_iff {w : Word32} {i : Instr} :
    (∃ e, formatZA w i = .error e) ↔ fieldN w ≠ 0 ∨ fieldB w = true := by
  unfold formatZA; split <;> simp_all [imp_iff_not_or]

theorem formatB_error_iff {w : Word32} {i : Bool → Instr} :
    (∃ e, formatB w i = .error e) ↔ fieldN w ≠ 0 := by
  unfold formatB; split <;> simp [*]

theorem formatN_error_iff {w : Word32} {i : Nat → Instr} :
    (∃ e, formatN w i = .error e) ↔ fieldB w = true := by
  unfold formatN; split <;> simp_all

/-! ### Decoding and encoding agree -/

theorem encode_bswBits (n : Nat) : encode (.bswBits n) = BitVec.ofNat 32 (0x02 + n * 256) := by
  simp [encode, commandWord]

theorem encode_bsrBits (n : Nat) : encode (.bsrBits n) = BitVec.ofNat 32 (0x0A + n * 256) := by
  simp [encode, commandWord]

/-- Every well-formed command is decoded from its word (R96, R97, R103). -/
theorem decode_encode {i : Instr} (h : i.wellFormed = true) : decode (encode i) = .ok i := by
  cases i with
  | bswBits n | bsrBits n =>
    have hn : n < 128 := by simpa [Instr.wellFormed] using h
    simp [decode, encode, formatN, hn]
  | bswBit b =>
    simp [decode, encode, formatB]
  | _ =>
    simp [decode, encode, formatZA]

/-- A word that decodes is the word of the command it decodes to, and that command is well-formed (R99): with its high bits
zero it is made of its fields, and its format fixes the fields the command does not carry. -/
theorem encode_of_decode {w : Word32} {i : Instr} (h : decode w = .ok i) :
    i.wellFormed = true ∧ encode i = w := by
  unfold decode at h
  by_cases hhigh : fieldHigh w = 0
  · have hw := commandWord_fields hhigh
    rw [if_neg (by simpa using hhigh)] at h
    split at h
    case h_12 => cases h
    case h_1 hop =>
      obtain ⟨hN, rfl⟩ := formatB_eq_ok.1 h
      rw [hop, hN] at hw
      exact ⟨rfl, hw⟩
    case h_2 hop | h_8 hop =>
      obtain ⟨hB, rfl⟩ := formatN_eq_ok.1 h
      rw [hop, hB] at hw
      exact ⟨decide_eq_true (fieldN_lt w), hw⟩
    all_goals
      next hop =>
      obtain ⟨⟨hN, hB⟩, rfl⟩ := formatZA_eq_ok.1 h
      rw [hop, hN, hB] at hw
      exact ⟨rfl, hw⟩
  · rw [if_pos hhigh] at h
    cases h

/-! ### The illegal words (R101) -/

/-- The illegal words of R101 in terms of their fields. -/
theorem illegalWord_iff (w : Word32) :
    IllegalWord w ↔ fieldHigh w ≠ 0 ∨
      fieldOp w ∉ [0x01, 0x02, 0x03, 0x04, 0x05, 0x08, 0x09, 0x0A, 0x10, 0x11, 0x12] ∨
      (fieldOp w ∉ [0x02, 0x0A] ∧ fieldN w ≠ 0) ∨ (fieldOp w ≠ 0x01 ∧ fieldB w = true) := by
  rw [fieldB_eq, decide_eq_true_iff, ← Nat.mod_two_ne_zero]
  rfl

/-- The decoder rejects exactly the illegal words. -/
theorem decode_error_iff {w : Word32} : (∃ e, decode w = .error e) ↔ IllegalWord w := by
  rw [illegalWord_iff]
  unfold decode
  by_cases hhigh : fieldHigh w = 0
  · rw [if_neg (by simpa using hhigh)]
    split
    case h_1 hop => simp [formatB_error_iff, hhigh, hop]
    case h_2 hop | h_8 hop => simp [formatN_error_iff, hhigh, hop]
    case h_12 => simp_all
    all_goals next hop => simp [formatZA_error_iff, hhigh, hop]
  · simp [hhigh]

end Sys2Proof
end

section
/-! The obligations of the encoding. -/

namespace Sys2Proof.Machine

/-- A command word written to `CMD` of an idle core is judged on the started state (R24, R99). -/
theorem step_writeCmd_idle {s : State} {v : Word64} {rest : List HostAction}
    (hp : s.pending = .write 0x00#8 .w32 v :: rest) (hidle : s.status.busy = false) :
    step s = (s.started rest).runWord (v.setWidth 32) := by
  rw [step_of_write hp, writeWindow_cmd, writeCmd_idle hidle]

/-- A refusal of the command just started has changed nothing but `STATUS`, `RES0`, `RES1` and the host's action (R306). -/
theorem refused_started (s : State) (rest : List HostAction) (k : Cause) :
    Refused { s with pending := rest } k ((s.started rest).refuse k) := rfl

/-- The two format-N commands refuse a count above 64 (R133, R154). -/
theorem exec_refuses_count {s : State} {n : Nat} (hf : s.status.fault = false) (hn : 64 < n) {i : Instr}
    (hi : i = .bswBits n ∨ i = .bsrBits n) : exec i s = .next (s.refuse .argCount) := by
  obtain rfl | rfl := hi
  · exact (unlessFaulted_ok hf _).trans (congrArg _ (if_pos hn))
  · exact (unlessFaulted_ok hf _).trans (if_pos hn)

/-- Settles O2, by the command: each format gives back its fields. -/
theorem decodeOfEncode : Obligations.DecodeOfEncode := fun _ => decode_encode

/-- Settles O3: `encode` is a right inverse of `decode` where it answers a command, and a left inverse on the well-formed
commands, so no other command has the word. -/
theorem everyWordIsOneCommandOrRefused : Obligations.EveryWordIsOneCommandOrRefused := by
  intro w
  cases hd : decode w with
  | ok i =>
    obtain ⟨hwf, rfl⟩ := encode_of_decode hd
    refine .inl ⟨i, hwf, rfl, rfl, fun j hj hji => ?_⟩
    rw [← hji, decode_encode hj] at hd
    simpa using hd
  | error e =>
    refine .inr ⟨⟨e, rfl⟩, ?_⟩
    rintro i hi rfl
    cases hd.symm.trans (decode_encode hi)

/-- Settles O4: the decoder rejects exactly the illegal words, and a format-N word with a count above 64 is a command that
refuses it. -/
theorem illegalWordsAreRefused : Obligations.IllegalWordsAreRefused := by
  intro s v rest hp hidle hf
  have hf' : (s.started rest).status.fault = false := hf
  refine ⟨fun hill => ?_, fun hlegal => ?_, fun n hn hlt hv => ?_⟩
  · obtain ⟨e, he⟩ := decode_error_iff.2 hill
    refine ⟨_, ?_, refused_started s rest _⟩
    rw [step_writeCmd_idle hp hidle, runWord_of_decode_error he, unlessFaulted_ok hf']
  · cases hd : decode (v.setWidth 32) with
    | ok i => exact ⟨i, (encode_of_decode hd).1, rfl⟩
    | error e => exact absurd (decode_error_iff.1 ⟨e, hd⟩) hlegal
  · obtain ⟨i, hi, hd⟩ : ∃ i, (i = .bswBits n ∨ i = .bsrBits n) ∧ decode (v.setWidth 32) = .ok i := by
      obtain hv | hv := hv
      · exact ⟨_, .inl rfl, by rw [hv, ← encode_bswBits]; exact decode_encode (decide_eq_true hlt)⟩
      · exact ⟨_, .inr rfl, by rw [hv, ← encode_bsrBits]; exact decode_encode (decide_eq_true hlt)⟩
    refine ⟨_, ?_, refused_started s rest _⟩
    rw [step_writeCmd_idle hp hidle, runWord_of_decode_ok hd, exec_refuses_count hf' hn hi]

/-- Settles O1. -/
theorem tableWordsDecode : Obligations.TableWordsDecode := by
  unfold Obligations.TableWordsDecode
  decide

end Sys2Proof.Machine
end

section
/-! An append command with room, an encoder command's frame, and the release of its stream (40_bitstream_writer.md R130, R137;
30_encoding.md R104). -/

namespace Sys2Proof.Machine

/-! ### Counts -/

theorem CanAppend.ready {s : State} (h : CanAppend s) : s.w.Ready s.cfg := by
  obtain ⟨-, hw, hf⟩ := h
  exact writerInv_ready hw hf

/-- The bit count of a ready writer fits its 64-bit register (R33, R10). -/
theorem Writer.Ready.bitsWritten_lt {c : Config} {w : Writer} (h : w.Ready c) (hc : c.Legal) :
    w.bitsWritten < 2 ^ 64 := by
  obtain ⟨-, hlt, -, hmax⟩ := h
  obtain ⟨-, -, -, -, -, -, hbuf⟩ := hc
  omega

theorem word64_toNat {n : Nat} (h : n < 2 ^ 64) : (word64 n).toNat = n := by
  rw [word64, BitVec.toNat_ofNat, Nat.mod_eq_of_lt h]

theorem ceil8_le (n : Nat) : ceil8 n ≤ n := by
  rw [ceil8_le_iff]; omega

/-- The two registers an append command reports hold the byte count and the bit count (R130). -/
theorem counts_completeCounts {s : State} (h : s.w.bitsWritten < 2 ^ 64) :
    Counts s.completeCounts s.w.bitsWritten :=
  ⟨word64_toNat ((ceil8_le _).trans_lt h), word64_toNat h⟩

/-! ### With room, an append command completes -/

/-- R130: with room for its bits, an append command of an accepting core completes. -/
theorem appendAndEnd_completes {s : State} {bits : List Bool} (h : CanAppend s) (hr : RoomFor s bits.length) :
    AppendCompletes s bits (s.appendAndEnd bits) := by
  obtain ⟨w, hext, hready, hend⟩ := appendAndEnd_room h.ready hr
  obtain ⟨hlegal, -, hf⟩ := h
  have hcounts := counts_completeCounts (s := { s with w := w }) (hready.bitsWritten_lt hlegal)
  rw [hend]
  exact ⟨hext, hext.1 ▸ hcounts, Status.completed_of_unfaulted hf false, rfl⟩

theorem AppendCompletes.bitsWritten {s t : State} {bits : List Bool} (h : AppendCompletes s bits t) :
    t.w.bitsWritten = s.w.bitsWritten + bits.length := by
  obtain ⟨⟨hcount, -⟩, -⟩ := h
  exact hcount

/-- Appending makes no scratch. -/
theorem scratchInv_appendAndEnd {s : State} (h : ScratchInv s) (bits : List Bool) : ScratchInv (s.appendAndEnd bits) := by
  obtain ⟨w, hend⟩ | ⟨w, hend⟩ := appendAndEnd_cases s bits <;> rw [hend] <;> exact h

theorem dropHuf_of_scratchInv {s : State} (h : ScratchInv s) : s.dropHuf = s := by
  obtain ⟨hh, -, -⟩ := h
  rw [State.dropHuf, ← hh]

theorem dropLzw_of_scratchInv {s : State} (h : ScratchInv s) : s.dropLzw = s := by
  obtain ⟨-, hz, -⟩ := h
  rw [State.dropLzw, ← hz]

theorem dropRice_of_scratchInv {s : State} (h : ScratchInv s) : s.dropRice = s := by
  obtain ⟨-, -, hc⟩ := h
  rw [State.dropRice, ← hc]

theorem CanEncode.canAppend {s : State} (h : CanEncode s) : CanAppend s := h.1

theorem CanEncode.scratch {s : State} (h : CanEncode s) : ScratchInv s := by
  obtain ⟨-, hscratch, -⟩ := h
  exact hscratch

theorem CanEncode.empty {s : State} (h : CanEncode s) : s.w.bitsWritten = 0 := by
  obtain ⟨-, -, hempty, -⟩ := h
  exact hempty

/-- Between commands no scratch is held, so `HUF.ENC` leaves what its append leaves (R40). -/
theorem CanEncode.exec_hufEnc {s : State} {tables : HufScratch} (h : CanEncode s)
    (ht : hufTables s.input = .ok tables) :
    exec .hufEnc s = .next (s.appendAndEnd (hufStream tables s.input)) := by
  rw [exec_hufEnc_of_tables h ht, dropHuf_of_scratchInv (scratchInv_appendAndEnd h.scratch _)]

theorem CanEncode.exec_lzwEnc {s : State} (h : CanEncode s) :
    exec .lzwEnc s = .next (s.appendAndEnd (lzwStream s.input)) := by
  rw [exec_lzwEnc_of_canEncode h, dropLzw_of_scratchInv (scratchInv_appendAndEnd h.scratch _)]

theorem CanEncode.exec_riceEnc {s : State} (h : CanEncode s) :
    exec .riceEnc s = .next (s.appendAndEnd (riceStream (riceSearch s.input) s.input)) := by
  rw [exec_riceEnc_of_canEncode h, dropRice_of_scratchInv (scratchInv_appendAndEnd h.scratch _)]

@[simp] theorem input_length (s : State) : s.input.length = s.arg1.toNat := bytes_length _ _ _

/-! ### The release of an encoder's stream -/

/-- `RES0` and `RES1` are the counts of the writer (R119, R130, R311). -/
def ReportsCounts (t : State) : Prop :=
  t.res0 = word64 (ceil8 t.w.bitsWritten) ∧ t.res1 = word64 t.w.bitsWritten

theorem appendAndEnd_reportsCounts (s : State) (bits : List Bool) : ReportsCounts (s.appendAndEnd bits) := by
  obtain ⟨w, h⟩ | ⟨w, h⟩ := appendAndEnd_cases s bits <;> rw [h] <;> exact ⟨rfl, rfl⟩

/-- An encoder command whose checks have passed reports the counts of its writer, however it ends, and releases nothing. -/
theorem CanEncode.exec_reports {i : Instr} {s t : State} (hi : IsEncoder i) (h : CanEncode s)
    (ht : exec i s = .next t) : ReportsCounts t ∧ t.released = s.released := by
  obtain rfl | rfl | rfl := hi
  · cases htables : hufTables s.input with
    | ok tables =>
      rw [h.exec_hufEnc htables] at ht
      cases ht
      exact ⟨appendAndEnd_reportsCounts s _, appendAndEnd_released s _⟩
    | error k =>
      rw [exec_hufEnc_of_error h htables] at ht
      cases ht
      exact ⟨⟨rfl, rfl⟩, rfl⟩
  · rw [h.exec_lzwEnc] at ht
    cases ht
    exact ⟨appendAndEnd_reportsCounts s _, appendAndEnd_released s _⟩
  · rw [h.exec_riceEnc] at ht
    cases ht
    exact ⟨appendAndEnd_reportsCounts s _, appendAndEnd_released s _⟩

theorem exec_bswRel_of_unfaulted {s : State} (hf : s.status.fault = false) : exec .bswRel s = .next s.releaseEnd :=
  unlessFaulted_ok hf _

end Sys2Proof.Machine
end

section
/-! The Rice parameter and the length of the Rice stream (44_rice_encoder.md R234, R238). -/

namespace Sys2Proof.Machine

/-- `k` is the smallest of the numbers up to `riceKMax` at which `f` is smallest (R234). -/
def SmallestMinimiser (f : Nat → Nat) (k : Nat) : Prop :=
  k ≤ riceKMax ∧ (∀ j ≤ riceKMax, f k ≤ f j) ∧ ∀ j < k, f k < f j

theorem riceTotals_getD (input : List Byte) {j : Nat} (hj : j ≤ riceKMax) :
    (riceTotals input).getD j 0 = riceTotal input j := by
  have : j < riceKMax + 1 := by omega
  simp [riceTotals, List.getD, this]

/-- The test of R234: no total is smaller than the one at `k`. -/
def isMinimiser (tot : List Nat) (k : Nat) : Bool :=
  (List.range (riceKMax + 1)).all fun j => decide (tot.getD k 0 ≤ tot.getD j 0)

theorem riceSelect_eq (tot : List Nat) :
    riceSelect tot = ((List.range (riceKMax + 1)).find? (isMinimiser tot)).getD 0 := rfl

theorem isMinimiser_riceTotals {input : List Byte} {k : Nat} (hk : k ≤ riceKMax) :
    isMinimiser (riceTotals input) k = true ↔ ∀ j ≤ riceKMax, riceTotal input k ≤ riceTotal input j := by
  simp only [isMinimiser, List.all_eq_true, List.mem_range, Nat.lt_succ_iff, decide_eq_true_iff, riceTotals_getD input hk]
  exact forall₂_congr fun j hj => by rw [riceTotals_getD input hj]

/-- The parameter is the smallest minimiser of the total (R234). -/
theorem riceSearch_smallestMinimiser (input : List Byte) :
    SmallestMinimiser (riceTotal input) (riceSearch input).k := by
  obtain ⟨m, hm, hmin⟩ := Finset.exists_min_image (Finset.range (riceKMax + 1)) (riceTotal input) ⟨0, by decide⟩
  simp only [Finset.mem_range, Nat.lt_succ_iff] at hm hmin
  have hfound : ((List.range (riceKMax + 1)).find? (isMinimiser (riceTotals input))).isSome = true :=
    List.find?_isSome.2 ⟨m, List.mem_range.2 (Nat.lt_succ_of_le hm), (isMinimiser_riceTotals hm).2 hmin⟩
  obtain ⟨k, hk⟩ := Option.isSome_iff_exists.1 hfound
  have hsearch : (riceSearch input).k = k := by rw [riceSearch, riceSelect_eq, hk, Option.getD_some]
  obtain ⟨htest, hmem, hbefore⟩ := List.find?_range_eq_some.1 hk
  have hle : k ≤ riceKMax := Nat.lt_succ_iff.1 (List.mem_range.1 hmem)
  have hleast := (isMinimiser_riceTotals hle).1 htest
  rw [hsearch]
  refine ⟨hle, hleast, fun j hj => ?_⟩
  have hnot : ¬ ∀ i ≤ riceKMax, riceTotal input j ≤ riceTotal input i := by
    rw [← isMinimiser_riceTotals (hj.le.trans hle)]
    simpa using hbefore j hj
  push Not at hnot
  obtain ⟨i, hi, hlt⟩ := hnot
  exact (hleast i hi).trans_lt hlt

@[simp] theorem riceCode_length (k : Nat) (v : Byte) : (riceCode k v).length = riceCost k v := by
  simp [riceCode, riceCost, Nat.add_assoc, Nat.add_comm 1]

theorem riceStream_length (c : RiceScratch) (input : List Byte) :
    (riceStream c input).length = 4 + riceTotal input c.k := by
  simp [riceStream, riceTotal, List.length_flatMap, riceKFieldBits]

/-- At `k = 8` every byte costs 9 bits, so the chosen total is at most that (R238). -/
theorem riceTotal_riceKMax (input : List Byte) : riceTotal input riceKMax = 9 * input.length := by
  have hcost : riceCost riceKMax = fun _ => 9 := funext fun v => by
    have hv : v.toNat < 2 ^ riceKMax := v.isLt
    rw [riceCost, Nat.div_eq_of_lt hv, riceKMax]
  rw [riceTotal, hcost, List.map_const', List.sum_replicate, smul_eq_mul, Nat.mul_comm]

theorem msbBits_eq (v k : Nat) : msbBits v k = (List.range k).map fun j => v.testBit (k - 1 - j) := by
  rw [msbBits, lsbBits, ← List.map_reverse]
  refine List.ext_getElem (by simp) fun i _ _ => by simp

end Sys2Proof.Machine
end

section
/-! The length of the Huffman stream (42_huffman_encoder.md R112, R114). -/

namespace Sys2Proof.Machine

@[simp] theorem HuffmanCode.stream_length (c : HuffmanCode) : c.stream.length = c.length := lsbBits_length _ _

theorem hufHeader_length (h : HufScratch) : (hufHeader h).length =
    32 + 256 * h.fieldWidth + ((List.range 256).map fun i => (poolAt h.pool i).code.length).sum := by
  simp only [hufHeader, hufEntry, List.length_append, List.length_flatMap, lsbBits_length, HuffmanCode.stream_length,
    List.sum_map_add, List.map_const', List.length_range, List.sum_replicate, smul_eq_mul, hufLeaves, hufHdrFieldBits]
  omega

@[simp] theorem hufPad_length (n : Nat) : (hufPad n).length = (8 - n % 8) % 8 := List.length_replicate

theorem hufPayload_length (h : HufScratch) (input : List Byte) :
    (hufPayload h input).length = (input.map fun v => (poolAt h.pool v.toNat).code.length).sum := by
  simp [hufPayload, List.length_flatMap]

end Sys2Proof.Machine
end

section
/-! The obligations of the encoders' streams. -/

namespace Sys2Proof.Machine

/-- Settles O31: the stream of the model, its padding the number of zeros to the next byte boundary, is the statement's. -/
theorem hufEncWritesItsStream : Obligations.HufEncWritesItsStream := by
  intro s h hs ht hroom
  have hpad : ∀ n, (n + (8 - n % 8) % 8) % 8 = 0 := fun n => by omega
  refine ⟨_, (8 - (hufHeader h).length % 8) % 8, hs.exec_hufEnc ht, Nat.mod_lt _ (by decide), ?_,
    appendAndEnd_completes hs.canAppend hroom⟩
  rw [← hufHeader_length]
  exact hpad _

/-- Settles O33: `riceStream_length` gives the room, `riceSearch_smallestMinimiser` the parameter. -/
theorem riceEncWritesItsStream : Obligations.RiceEncWritesItsStream := by
  rintro s k hs rfl hroom
  obtain ⟨hk, hleast, hbefore⟩ := riceSearch_smallestMinimiser s.input
  have hlen := riceStream_length (riceSearch s.input) s.input
  have hdone := appendAndEnd_completes hs.canAppend (hlen ▸ hroom)
  have hbits : (s.appendAndEnd (riceStream (riceSearch s.input) s.input)).w.bitsWritten =
      4 + riceTotal s.input (riceSearch s.input).k := by
    rw [hdone.bitsWritten, hs.empty, hlen, Nat.zero_add]
  have hmax := hleast riceKMax le_rfl
  rw [riceTotal_riceKMax, input_length] at hmax
  refine ⟨_, hs.exec_riceEnc, hk, hleast, hbefore, ?_, hbits, by omega⟩
  simp only [← msbBits_eq]
  exact hdone

/-- Settles O37: an encoder command reports the counts of its writer, and `BSW.REL` reports those of the writer it
releases. -/
theorem releaseDeliversTheEncodedStream : Obligations.ReleaseDeliversTheEncodedStream := by
  intro i s t hi hs ht hf
  obtain ⟨⟨hres0, hres1⟩, hlog⟩ := hs.exec_reports hi ht
  exact ⟨_, exec_bswRel_of_unfaulted hf, by rw [← hlog]; rfl, hres0.symm, hres1.symm, rfl,
    Status.completed_of_unfaulted hf false⟩

/-- Settles O43. -/
theorem hufStreamLengthIsAsStated : Obligations.HufStreamLengthIsAsStated := by
  intro h input
  refine ⟨hufHeader_length h, (8 - (hufHeader h).length % 8) % 8, Nat.mod_lt _ (by decide), by omega, ?_⟩
  rw [hufStream, List.length_append, List.length_append, hufPad_length, hufPayload_length]

end Sys2Proof.Machine
end

section
/-! The width of each LZW emission (43_lzw_encoder.md R206 to R208): a dictionary cycle is 3841 emissions, and the width
follows the next code. -/

namespace Sys2Proof.Machine

/-- The next code before emission `k` of a stream (R116): 256 up to 4096, then the dictionary starts again. -/
def scheduledCode (k : Nat) : Nat := 256 + k % 3841

/-- The width of emission `k` of a stream (R116). -/
def scheduledWidth (k : Nat) : Nat := min 12 (Nat.log2 (scheduledCode k) + 1)

/-- `k` codes of the stream have been emitted. -/
def OnSchedule (k : Nat) (z : LzwScratch) : Prop :=
  z.nextCode = scheduledCode k ∧ z.width = scheduledWidth k

theorem onSchedule_lzwInit : OnSchedule 0 lzwInit := ⟨rfl, by decide⟩

/-- Which entry matches does not touch the schedule. -/
theorem OnSchedule.withMatch {k : Nat} {z : LzwScratch} (h : OnSchedule k z) (w : Option Nat) :
    OnSchedule k { z with w := w } := h

/-- `width_step()` (R207) keeps the width at the bit length of the next code, up to 12. -/
theorem lzwWidthStep_width {z : LzwScratch} {n : Nat} (hn : 256 ≤ n) (hmax : n < 4096) (hcode : z.nextCode = n + 1)
    (hw : z.width = min 12 (Nat.log2 n + 1)) :
    (lzwWidthStep z).width = min 12 (Nat.log2 (n + 1) + 1) := by
  have hlow : 2 ^ Nat.log2 n ≤ n := Nat.log2_self_le (by omega)
  have hhigh : n < 2 ^ (Nat.log2 n + 1) := Nat.lt_log2_self
  have hlog : Nat.log2 n < 12 := (Nat.log2_lt (by omega)).2 hmax
  have hwidth : z.width = Nat.log2 n + 1 := by omega
  unfold lzwWidthStep
  by_cases hpow : n + 1 = 2 ^ (Nat.log2 n + 1)
  · have hlog' : Nat.log2 (n + 1) = Nat.log2 n + 1 := by rw [hpow, Nat.log2_two_pow]
    have hfits : z.nextCode = 2 ^ z.width := by rw [hcode, hwidth, hpow]
    by_cases hcap : z.width < lzwMaxBits
    · rw [if_pos ⟨hfits, hcap⟩]
      simp only [lzwMaxBits] at hcap ⊢
      omega
    · rw [if_neg fun h => hcap h.2]
      simp only [lzwMaxBits] at hcap
      omega
  · have hlog' : Nat.log2 (n + 1) = Nat.log2 n :=
      (Nat.log2_eq_iff (by omega)).2 ⟨by omega, by omega⟩
    have hfits : z.nextCode ≠ 2 ^ z.width := by rwa [hcode, hwidth]
    rw [if_neg fun h => hfits h.1]
    omega

@[simp] theorem lzwWidthStep_nextCode (z : LzwScratch) : (lzwWidthStep z).nextCode = z.nextCode := by
  unfold lzwWidthStep; split <;> rfl

/-- The insertion that follows an emission moves the schedule on by one (R205, R208). -/
theorem OnSchedule.lzwInsert {k : Nat} {z : LzwScratch} (h : OnSchedule k z) (w : Nat) (c : Byte) :
    OnSchedule (k + 1) (lzwInsert w c z) := by
  obtain ⟨hcode, hwidth⟩ := h
  unfold Machine.lzwInsert
  by_cases hfull : z.nextCode = lzwMaxEntries
  · have hk : scheduledCode (k + 1) = lzwFirstCode := by
      rw [hcode, scheduledCode, lzwMaxEntries] at hfull
      rw [scheduledCode, lzwFirstCode]; omega
    rw [if_pos hfull, OnSchedule, scheduledWidth, hk]
    exact ⟨rfl, (by decide : lzwStartBits = min 12 (Nat.log2 lzwFirstCode + 1))⟩
  · have hnext : scheduledCode (k + 1) = scheduledCode k + 1 ∧ scheduledCode k < 4096 := by
      rw [hcode, scheduledCode, lzwMaxEntries] at hfull
      unfold scheduledCode; omega
    obtain ⟨hk, hlt⟩ := hnext
    rw [if_neg hfull, lzwAdd, OnSchedule, scheduledWidth, hk, lzwWidthStep_nextCode]
    exact ⟨congrArg (· + 1) hcode,
      lzwWidthStep_width (Nat.le_add_right 256 _) hlt (congrArg (· + 1) hcode) hwidth⟩

/-! ### What a pass and the loop emit -/

/-- The widths of emissions number `k`, `k + 1`, … of a stream. -/
def Scheduled (k : Nat) (es : List LzwEmission) : Prop :=
  es.map LzwEmission.width = (List.range' k es.length).map scheduledWidth

theorem scheduled_nil (k : Nat) : Scheduled k [] := rfl

theorem Scheduled.append {k : Nat} {es fs : List LzwEmission} (h : Scheduled k es) (h' : Scheduled (k + es.length) fs) :
    Scheduled k (es ++ fs) := by
  rw [Scheduled, List.map_append, h, h', List.length_append, ← List.map_append, List.range'_append_1]

theorem Scheduled.getElem? {k j : Nat} {es : List LzwEmission} {e : LzwEmission} (h : Scheduled k es)
    (he : es[j]? = some e) : e.width = scheduledWidth (k + j) := by
  obtain ⟨hj, rfl⟩ := List.getElem?_eq_some_iff.1 he
  have := congrArg (·[j]?) h
  simpa [hj] using this

/-- The code emitted for the current match has the width of the schedule. -/
theorem OnSchedule.lzwEmit {k : Nat} {z : LzwScratch} (h : OnSchedule k z) : Scheduled k (lzwEmit z) := by
  obtain ⟨-, hwidth⟩ := h
  unfold Machine.lzwEmit
  split
  · simp [Scheduled, hwidth]
  · exact scheduled_nil k

/-- Only a current match can be unknown with the next byte (R202), so a pass that inserts has emitted one code. -/
theorem lzwEmit_length_of_lzwFind_none {z : LzwScratch} {c : Byte} (h : lzwFind z c = none) : (lzwEmit z).length = 1 := by
  unfold lzwFind at h
  unfold lzwEmit
  split at h
  · cases h
  · simp [*]

theorem lzwByte_scheduled {k : Nat} {z : LzwScratch} (h : OnSchedule k z) (c : Byte) :
    Scheduled k (lzwByte c z).1 ∧ OnSchedule (k + (lzwByte c z).1.length) (lzwByte c z).2 := by
  unfold lzwByte
  split
  · exact ⟨scheduled_nil k, h.withMatch _⟩
  · next hfind =>
    refine ⟨h.lzwEmit, ?_⟩
    rw [lzwEmit_length_of_lzwFind_none hfind]
    exact (h.lzwInsert _ c).withMatch _

theorem lzwBytes_scheduled {k : Nat} {z : LzwScratch} (h : OnSchedule k z) (input : List Byte) :
    Scheduled k (lzwBytes input z).1 ∧ OnSchedule (k + (lzwBytes input z).1.length) (lzwBytes input z).2 := by
  induction input generalizing k z with
  | nil => exact ⟨scheduled_nil k, h⟩
  | cons c rest ih =>
    obtain ⟨hfirst, hbetween⟩ := lzwByte_scheduled h c
    obtain ⟨hlater, hend⟩ := ih hbetween
    refine ⟨hfirst.append hlater, ?_⟩
    rwa [lzwBytes, List.length_append, ← Nat.add_assoc]

/-- Settles O47: the loop and the final emission keep to the schedule, from `init()` on. -/
theorem lzwWidthSchedule : Obligations.LzwWidthSchedule := by
  intro input k e he
  obtain ⟨hloop, hend⟩ := lzwBytes_scheduled onSchedule_lzwInit input
  have hwidth := (hloop.append hend.lzwEmit).getElem? he
  rwa [Nat.zero_add] at hwidth

end Sys2Proof.Machine
end

section
/-! The Huffman tables (42_huffman_encoder.md R165 to R178): the node pool, what phase BUILD leaves, and the codes phase ASSIGN
gives out. -/

namespace Sys2Proof.Machine

/-! ### The node pool -/

theorem poolAt_of_ge {pool : List HufNode} {i : Nat} (h : pool.length ≤ i) : poolAt pool i = HufNode.absent := by
  rw [poolAt, List.getD_eq_getElem?_getD, List.getElem?_eq_none h, Option.getD_none]

theorem poolAt_set {pool : List HufNode} {n : Nat} (hn : n < pool.length) (nd : HufNode) (i : Nat) :
    poolAt (pool.set n nd) i = if i = n then nd else poolAt pool i := by
  rw [poolAt, List.getD_eq_getElem?_getD, List.getElem?_set]
  by_cases h : n = i
  · subst h; simp [hn]
  · rw [if_neg h, if_neg (Ne.symm h), poolAt, List.getD_eq_getElem?_getD]

theorem poolAt_modify {pool : List HufNode} {n : Nat} (hn : n < pool.length) (f : HufNode → HufNode) (i : Nat) :
    poolAt (pool.modify n f) i = if i = n then f (poolAt pool i) else poolAt pool i := by
  simp only [poolAt, List.getD_eq_getElem?_getD, List.getElem?_modify]
  by_cases h : n = i
  · subst h; simp [hn]
  · simp [h, Ne.symm h]

/-- A valid node is in the pool: what is not there reads as an absent node. -/
theorem lt_length_of_valid {pool : List HufNode} {i : Nat} (h : (poolAt pool i).valid = true) : i < pool.length := by
  by_contra hge
  rw [poolAt_of_ge (by omega)] at h
  cases h

theorem not_nodeIsLeaf {i : Nat} (h : 256 ≤ i) : ¬ nodeIsLeaf i = true := by
  rw [nodeIsLeaf, hufLeaves, decide_eq_true_iff]; omega

/-- Every valid inner node has two valid children (R171). -/
def ValidChildren (pool : List HufNode) : Prop :=
  ∀ i, 256 ≤ i → (poolAt pool i).valid = true →
    ∃ l r, (poolAt pool i).left = some l ∧ (poolAt pool i).right = some r ∧
      (poolAt pool l).valid = true ∧ (poolAt pool r).valid = true

/-- No node has a code yet. -/
def NoCodes (pool : List HufNode) : Prop := ∀ i, (poolAt pool i).code = HuffmanCode.empty

/-- The valid leaves are those of the bytes that occur (R167). -/
def LeavesOf (input : List Byte) (pool : List HufNode) : Prop :=
  ∀ i < 256, (poolAt pool i).valid = true ↔ leafValue i ∈ input

/-! ### Phases COUNT and SORT -/

theorem poolAt_hufInit (i : Nat) : poolAt hufInit.pool i = HufNode.absent := by
  rw [poolAt, hufInit, List.getD_eq_getElem?_getD, List.getElem?_replicate]
  split <;> rfl

theorem hufCount_pool_length (input : List Byte) (h : HufScratch) : (hufCount input h).pool.length = hufPool := by
  rw [hufCount, List.length_map, List.length_range]

theorem poolAt_hufCount (input : List Byte) (h : HufScratch) {i : Nat} (hi : i < hufPool) :
    poolAt (hufCount input h).pool i =
      if nodeIsLeaf i then
        { poolAt h.pool i with frequency := hufCountOf input i, valid := decide (0 < hufCountOf input i) }
      else poolAt h.pool i := by
  rw [poolAt, hufCount, List.getD_eq_getElem?_getD, List.getElem?_map, List.getElem?_range hi, Option.map_some,
    Option.getD_some]

theorem poolAt_hufCount_leaf (input : List Byte) {i : Nat} (hi : i < 256) :
    poolAt (hufCount input hufInit).pool i =
      { HufNode.absent with frequency := hufCountOf input i, valid := decide (0 < hufCountOf input i) } := by
  have hleaf : nodeIsLeaf i = true := decide_eq_true hi
  rw [poolAt_hufCount _ _ (by rw [hufPool]; omega), if_pos hleaf, poolAt_hufInit]

theorem poolAt_hufCount_inner (input : List Byte) {i : Nat} (hi : 256 ≤ i) :
    poolAt (hufCount input hufInit).pool i = HufNode.absent := by
  by_cases hpool : i < hufPool
  · rw [poolAt_hufCount _ _ hpool, if_neg (not_nodeIsLeaf hi), poolAt_hufInit]
  · exact poolAt_of_ge (by rw [hufCount_pool_length]; omega)

theorem leavesOf_hufCount (input : List Byte) : LeavesOf input (hufCount input hufInit).pool := by
  intro i hi
  rw [poolAt_hufCount_leaf input hi, decide_eq_true_iff, hufCountOf, List.count_pos_iff]

theorem noCodes_hufCount (input : List Byte) : NoCodes (hufCount input hufInit).pool := by
  intro i
  obtain hi | hi := Nat.lt_or_ge i 256
  · rw [poolAt_hufCount_leaf input hi]; rfl
  · rw [poolAt_hufCount_inner input hi]; rfl

@[simp] theorem hufSort_pool (h : HufScratch) : (hufSort h).pool = h.pool := rfl

theorem hufSort_hufCount_innerCount (input : List Byte) : (hufSort (hufCount input hufInit)).innerCount = 0 := rfl

theorem mem_queue_hufSort {h : HufScratch} {i : Nat} :
    i ∈ (hufSort h).queue ↔ i < 256 ∧ (poolAt h.pool i).valid = true := by
  rw [hufSort, List.mem_filter, List.mem_range, hufLeaves]

/-! ### Phase BUILD -/

/-- What holds before and after every merge of phase BUILD on a non-empty input. -/
structure BuildInv (input : List Byte) (h : HufScratch) : Prop where
  poolSize : h.pool.length = hufPool
  innerCount : h.innerCount ≤ hufInnerSlots
  leaves : LeavesOf input h.pool
  noCodes : NoCodes h.pool
  children : ValidChildren h.pool
  queueValid : ∀ i ∈ h.queue, (poolAt h.pool i).valid = true
  queueNonempty : h.queue ≠ []

/-- The byte of leaf `v.toNat` is `v`. -/
@[simp] theorem leafValue_toNat (v : Byte) : leafValue v.toNat = v := by
  rw [leafValue, BitVec.ofNat_toNat, BitVec.setWidth_eq]

theorem LeavesOf.valid_iff {input : List Byte} {pool : List HufNode} (h : LeavesOf input pool) (v : Byte) :
    (poolAt pool v.toNat).valid = true ↔ v ∈ input := by
  rw [h v.toNat v.isLt, leafValue_toNat]

theorem buildInv_start {input : List Byte} (hne : input ≠ []) :
    BuildInv input (hufSort (hufCount input hufInit)) := by
  constructor
  case poolSize => rw [hufSort_pool, hufCount_pool_length]
  case innerCount => exact (hufSort_hufCount_innerCount input).trans_le (Nat.zero_le _)
  case leaves => rw [hufSort_pool]; exact leavesOf_hufCount input
  case noCodes => rw [hufSort_pool]; exact noCodes_hufCount input
  case children =>
    intro i hi hvalid
    rw [hufSort_pool, poolAt_hufCount_inner input hi] at hvalid
    cases hvalid
  case queueValid =>
    intro i hi
    rw [hufSort_pool]
    exact (mem_queue_hufSort.1 hi).2
  case queueNonempty =>
    obtain ⟨v, hv⟩ := List.exists_mem_of_ne_nil input hne
    have hvalid := ((leavesOf_hufCount input).valid_iff v).2 hv
    exact List.ne_nil_of_mem (mem_queue_hufSort.2 ⟨v.isLt, hvalid⟩)

theorem hufMin_mem {pool : List HufNode} {queue : List Nat} {i : Nat} (h : hufMin pool queue = some i) : i ∈ queue := by
  induction queue generalizing i with
  | nil => cases h
  | cons k rest ih =>
    unfold hufMin at h
    split at h
    · cases h; exact List.mem_cons_self
    · next j hj =>
      split at h
      · cases h; exact List.mem_cons_self
      · cases h; exact List.mem_cons_of_mem k (ih hj)

/-- `extract_min()` takes an element out of the queue (R170). -/
theorem hufExtract_some {pool : List HufNode} {queue q : List Nat} {i : Nat}
    (h : hufExtract pool queue = some (i, q)) : i ∈ queue ∧ ∀ j ∈ q, j ∈ queue := by
  obtain ⟨k, hk, heq⟩ := Option.map_eq_some_iff.1 h
  cases heq
  exact ⟨hufMin_mem hk, fun j hj => List.mem_of_mem_erase hj⟩

/-- The scratch after `a` and `b` have been merged, `q` left in the queue (R171). -/
def merged (h : HufScratch) (a b : Nat) (q : List Nat) : HufScratch :=
  { h with
    pool := h.pool.set (hufLeaves + h.innerCount) (hufJoin h.pool a b)
    innerCount := h.innerCount + 1
    queue := q ++ [hufLeaves + h.innerCount] }

/-- Everything a pass of phase BUILD can do without a fault (R171, R173). -/
theorem hufMerge_cases {h h' : HufScratch} (hm : hufMerge h = .ok h') :
    h' = h ∨ ∃ a b q, h' = merged h a b q ∧ a ∈ h.queue ∧ b ∈ h.queue ∧ (∀ j ∈ q, j ∈ h.queue) ∧
      h.innerCount ≠ hufInnerSlots := by
  unfold hufMerge at hm
  split at hm
  · cases hm; exact .inl rfl
  · next a q1 ha =>
    split at hm
    · cases hm; exact .inl rfl
    · next b q2 hb =>
      split at hm
      · cases hm
      · next hroom =>
        cases hm
        obtain ⟨ha, hq1⟩ := hufExtract_some ha
        obtain ⟨hb, hq2⟩ := hufExtract_some hb
        exact .inr ⟨a, b, q2, rfl, ha, hq1 b hb, fun j hj => hq1 j (hq2 j hj), hroom⟩

/-- A merge makes one more inner node, of two valid ones, and takes no node away. -/
theorem BuildInv.merged {input : List Byte} {h : HufScratch} (hi : BuildInv input h) {a b : Nat} {q : List Nat}
    (ha : a ∈ h.queue) (hb : b ∈ h.queue) (hq : ∀ j ∈ q, j ∈ h.queue) (hroom : h.innerCount ≠ hufInnerSlots) :
    BuildInv input (merged h a b q) := by
  have hcount := hi.innerCount
  have hsize := hi.poolSize
  have hnew : hufLeaves + h.innerCount < h.pool.length := by
    simp only [hufLeaves, hufInnerSlots, hufPool] at *; omega
  have hpool : ∀ i, poolAt (Machine.merged h a b q).pool i =
      if i = hufLeaves + h.innerCount then hufJoin h.pool a b else poolAt h.pool i := poolAt_set hnew _
  have hkeep : ∀ i, (poolAt h.pool i).valid = true → (poolAt (Machine.merged h a b q).pool i).valid = true := by
    intro i hvalid
    rw [hpool]; split
    · rfl
    · exact hvalid
  constructor
  case poolSize => exact (List.length_set).trans hsize
  case innerCount => exact Nat.lt_of_le_of_ne hcount hroom
  case leaves =>
    intro i hlt
    rw [hpool, if_neg (by rw [hufLeaves]; omega)]
    exact hi.leaves i hlt
  case noCodes =>
    intro i
    rw [hpool]; split
    · rfl
    · exact hi.noCodes i
  case children =>
    intro i hge hvalid
    rw [hpool] at hvalid ⊢
    split at hvalid
    · next hnode =>
      rw [if_pos hnode]
      exact ⟨a, b, rfl, rfl, hkeep a (hi.queueValid a ha), hkeep b (hi.queueValid b hb)⟩
    · next hnode =>
      rw [if_neg hnode]
      obtain ⟨l, r, hl, hr, hvl, hvr⟩ := hi.children i hge hvalid
      exact ⟨l, r, hl, hr, hkeep l hvl, hkeep r hvr⟩
  case queueValid =>
    intro i hmem
    obtain hmem | hmem := List.mem_append.1 hmem
    · exact hkeep i (hi.queueValid i (hq i hmem))
    · rw [hpool, if_pos (List.mem_singleton.1 hmem)]; rfl
  case queueNonempty => exact List.append_ne_nil_of_right_ne_nil _ (List.cons_ne_nil _ _)

theorem BuildInv.hufMerges {input : List Byte} {n : Nat} {h h' : HufScratch} (hi : BuildInv input h)
    (hm : hufMerges n h = .ok h') : BuildInv input h' := by
  induction n generalizing h with
  | zero => cases hm; exact hi
  | succ n ih =>
    unfold Machine.hufMerges at hm
    split at hm
    · split at hm
      · next h1 h1m =>
        obtain rfl | ⟨a, b, q, rfl, ha, hb, hq, hroom⟩ := hufMerge_cases h1m
        · exact ih hi hm
        · exact ih (hi.merged ha hb hq hroom) hm
      · cases hm
    · cases hm; exact hi

/-! ### Phase ASSIGN -/

/-- `pool'` is `pool` but for the codes of some valid nodes, which have 1 to `bound` bits. -/
def CodesGiven (bound : Nat) (pool pool' : List HufNode) : Prop :=
  ∀ i, poolAt pool' i = poolAt pool i ∨
    (poolAt pool i).valid = true ∧ ∃ code : HuffmanCode, 1 ≤ code.length ∧ code.length ≤ bound ∧
      poolAt pool' i = { poolAt pool i with code := code }

/-- Codes do not touch the tree. -/
theorem CodesGiven.sameTree {bound : Nat} {pool pool' : List HufNode} (h : CodesGiven bound pool pool') (i : Nat) :
    (poolAt pool' i).valid = (poolAt pool i).valid ∧ (poolAt pool' i).left = (poolAt pool i).left ∧
      (poolAt pool' i).right = (poolAt pool i).right := by
  obtain h | ⟨-, code, -, -, h⟩ := h i <;> rw [h] <;> exact ⟨rfl, rfl, rfl⟩

theorem CodesGiven.valid_eq {bound : Nat} {pool pool' : List HufNode} (h : CodesGiven bound pool pool') (i : Nat) :
    (poolAt pool' i).valid = (poolAt pool i).valid := (h.sameTree i).1

theorem CodesGiven.trans {bound : Nat} {pool pool' pool'' : List HufNode} (h : CodesGiven bound pool pool')
    (h' : CodesGiven bound pool' pool'') : CodesGiven bound pool pool'' := by
  intro i
  obtain hi' | ⟨hvalid, code, hlow, hhigh, hi'⟩ := h' i
  · rw [hi']; exact h i
  · rw [h.valid_eq] at hvalid
    refine .inr ⟨hvalid, code, hlow, hhigh, ?_⟩
    obtain hi | ⟨-, _, -, -, hi⟩ := h i <;> rw [hi', hi]

theorem CodesGiven.validChildren {bound : Nat} {pool pool' : List HufNode} (h : CodesGiven bound pool pool')
    (hc : ValidChildren pool) : ValidChildren pool' := by
  intro i hge hvalid
  obtain ⟨hv, hl, hr⟩ := h.sameTree i
  rw [hv] at hvalid
  obtain ⟨l, r, hleft, hright, hvl, hvr⟩ := hc i hge hvalid
  exact ⟨l, r, hl.trans hleft, hr.trans hright, (h.valid_eq l).trans hvl, (h.valid_eq r).trans hvr⟩

/-- The pool with the code of node `n` set. -/
def withCode (pool : List HufNode) (n : Nat) (code : HuffmanCode) : List HufNode :=
  pool.modify n (fun nd => { nd with code := code })

theorem poolAt_withCode {pool : List HufNode} {n : Nat} (hn : n < pool.length) (code : HuffmanCode) (i : Nat) :
    poolAt (withCode pool n code) i = if i = n then { poolAt pool i with code := code } else poolAt pool i :=
  poolAt_modify hn _ i

theorem codesGiven_withCode {bound : Nat} {pool : List HufNode} {n : Nat} {code : HuffmanCode}
    (hn : (poolAt pool n).valid = true) (hlow : 1 ≤ code.length) (hhigh : code.length ≤ bound) :
    CodesGiven bound pool (withCode pool n code) := by
  intro i
  rw [poolAt_withCode (lt_length_of_valid hn)]
  split
  · next hi => subst hi; exact .inr ⟨hn, code, hlow, hhigh, rfl⟩
  · exact .inl rfl

theorem hufAssignNode_leaf {room n : Nat} {pool : List HufNode} {parent : HuffmanCode} {bit : Bool} (hn : n < 256) :
    hufAssignNode (room + 1) pool n parent bit = .ok (withCode pool n (parent.append bit)) :=
  if_pos (decide_eq_true hn)

/-- An inner node gets its code, then its left subtree, then its right one (R175). -/
theorem hufAssignNode_inner {room n l r : Nat} {pool pool' : List HufNode} {parent : HuffmanCode} {bit : Bool}
    (hn : 256 ≤ n) (hl : (poolAt pool n).left = some l) (hr : (poolAt pool n).right = some r)
    (h : hufAssignNode (room + 1) pool n parent bit = .ok pool') :
    ∃ mid, hufAssignNode room (withCode pool n (parent.append bit)) l (parent.append bit) false = .ok mid ∧
      hufAssignNode room mid r (parent.append bit) true = .ok pool' := by
  have hleaf : ¬ nodeIsLeaf n = true := not_nodeIsLeaf hn
  simp only [hufAssignNode, if_neg hleaf, hl, hr] at h
  split at h
  · next mid hmid => exact ⟨mid, hmid, h⟩
  · cases h

/-- `assign` gives codes of 1 to 64 bits to valid nodes only (R175, R176), and it reaches a leaf. -/
theorem hufAssignNode_codes {bound room : Nat} {pool pool' : List HufNode} {n : Nat} {parent : HuffmanCode} {bit : Bool}
    (hc : ValidChildren pool) (hn : (poolAt pool n).valid = true) (hbound : parent.length + room = bound)
    (h : hufAssignNode room pool n parent bit = .ok pool') :
    CodesGiven bound pool pool' ∧
      ∃ i < 256, (poolAt pool i).valid = true ∧ 1 ≤ (poolAt pool' i).code.length := by
  induction room generalizing pool pool' n parent bit with
  | zero => cases h
  | succ room ih =>
    have hlen : (parent.append bit).length = parent.length + 1 := rfl
    have hself : CodesGiven bound pool (withCode pool n (parent.append bit)) :=
      codesGiven_withCode hn (by omega) (by omega)
    obtain hleaf | hinner := Nat.lt_or_ge n 256
    · rw [hufAssignNode_leaf hleaf] at h
      cases h
      refine ⟨hself, n, hleaf, hn, ?_⟩
      rw [poolAt_withCode (lt_length_of_valid hn), if_pos rfl]
      exact Nat.le_add_left 1 parent.length
    · obtain ⟨l, r, hl, hr, hvl, hvr⟩ := hc n hinner hn
      obtain ⟨mid, hleft, hright⟩ := hufAssignNode_inner hinner hl hr h
      obtain ⟨hgivenL, -⟩ := ih (hself.validChildren hc) ((hself.valid_eq l).trans hvl) (by omega) hleft
      have hmid := hself.trans hgivenL
      obtain ⟨hgivenR, i, hi, hvi, hone⟩ :=
        ih (hmid.validChildren hc) ((hmid.valid_eq r).trans hvr) (by omega) hright
      exact ⟨hmid.trans hgivenR, i, hi, (hmid.valid_eq i).symm.trans hvi, hone⟩

/-! ### The finished tables -/

theorem hufBuild_ok {h h' : HufScratch} (hb : hufBuild h = .ok h') :
    ∃ last, hufMerges h.queue.length h = .ok last ∧ h' = { last with root := last.queue.head? } := by
  unfold hufBuild at hb
  split at hb
  · next last hlast => cases hb; exact ⟨last, hlast, rfl⟩
  · cases hb

theorem hufAssign_ok {h h' : HufScratch} {n : Nat} (ha : hufAssign h = .ok h') (hroot : h.root = some n) :
    hufAssignNode maxCodeLen h.pool n HuffmanCode.empty false = .ok h'.pool ∧
      h'.maxLen = (hufLengths h'.pool).foldl max 0 := by
  rw [hufAssign, hroot] at ha
  simp only at ha
  split at ha
  · next pool hpool => cases ha; exact ⟨hpool, rfl⟩
  · cases ha

theorem hufTables_phases {input : List Byte} {h : HufScratch} (ht : hufTables input = .ok h) :
    ∃ built assigned, hufBuild (hufSort (hufCount input hufInit)) = .ok built ∧ hufAssign built = .ok assigned ∧
      h = hufFieldWidth assigned := by
  unfold hufTables at ht
  split at ht
  · next built hbuilt =>
    split at ht
    · next assigned hassigned => cases ht; exact ⟨built, assigned, hbuilt, hassigned, rfl⟩
    · cases ht
  · cases ht

/-- `L` is the bit length of `max_len` (R178). -/
theorem hufTables_fieldWidth {input : List Byte} {h : HufScratch} (ht : hufTables input = .ok h) :
    h.fieldWidth = bitlen h.maxLen := by
  obtain ⟨-, assigned, -, -, rfl⟩ := hufTables_phases ht
  rfl

/-- The finished pool is that of a built tree with the codes given out from a valid root (R165, R171, R175). -/
theorem hufTables_ok {input : List Byte} {h : HufScratch} (hne : input ≠ []) (ht : hufTables input = .ok h) :
    ∃ built n, BuildInv input built ∧ (poolAt built.pool n).valid = true ∧
      hufAssignNode maxCodeLen built.pool n HuffmanCode.empty false = .ok h.pool ∧
      h.maxLen = (hufLengths h.pool).foldl max 0 := by
  obtain ⟨built, assigned, hbuild, hassign, rfl⟩ := hufTables_phases ht
  obtain ⟨last, hmerges, rfl⟩ := hufBuild_ok hbuild
  have hinv := (buildInv_start hne).hufMerges hmerges
  obtain ⟨n, rest, hqueue⟩ := List.exists_cons_of_ne_nil hinv.queueNonempty
  have hroot : last.queue.head? = some n := by rw [hqueue, List.head?_cons]
  have hcodes := hufAssign_ok hassign hroot
  exact ⟨last, n, hinv, hinv.queueValid n (hqueue ▸ List.mem_cons_self), hcodes⟩

theorem mem_hufLengths {pool : List HufNode} {x : Nat} :
    x ∈ hufLengths pool ↔ ∃ i < 256, (poolAt pool i).valid = true ∧ (poolAt pool i).code.length = x := by
  simp [hufLengths, hufLeaves, and_assoc]

/-- The largest element of a non-empty list of numbers. -/
theorem foldl_max_spec {xs : List Nat} (h : xs ≠ []) :
    xs.foldl max 0 ∈ xs ∧ ∀ x ∈ xs, x ≤ xs.foldl max 0 := by
  obtain ⟨m, hm⟩ := Option.isSome_iff_exists.1 (List.isSome_max?_of_ne_nil h)
  rw [List.foldl_max, hm, Option.getD_some, Nat.zero_max]
  exact List.max?_eq_some_iff.1 hm

/-- In the finished tables the valid leaves are those of the bytes that occur. -/
theorem hufTables_leavesOf {input : List Byte} {h : HufScratch} (hne : input ≠ []) (ht : hufTables input = .ok h) :
    LeavesOf input h.pool := by
  obtain ⟨built, n, hinv, hn, hassign, -⟩ := hufTables_ok hne ht
  obtain ⟨hgiven, -⟩ := hufAssignNode_codes hinv.children hn rfl hassign
  intro i hi
  rw [hgiven.valid_eq]
  exact hinv.leaves i hi

/-- In the finished tables a code has at most 64 bits, and none if its node is not valid. -/
theorem hufTables_code_length {input : List Byte} {h : HufScratch} (hne : input ≠ []) (ht : hufTables input = .ok h)
    (i : Nat) : (poolAt h.pool i).code.length = 0 ∨
      (poolAt h.pool i).valid = true ∧ (poolAt h.pool i).code.length ≤ maxCodeLen := by
  obtain ⟨built, n, hinv, hn, hassign, -⟩ := hufTables_ok hne ht
  obtain ⟨hgiven, -⟩ := hufAssignNode_codes hinv.children hn rfl hassign
  rw [hgiven.valid_eq]
  obtain hsame | ⟨hvalid, code, -, hhigh, hcode⟩ := hgiven i
  · rw [hsame, hinv.noCodes]; exact .inl rfl
  · rw [hcode]; exact .inr ⟨hvalid, hhigh⟩

/-- `max_len` is attained by a leaf, bounds every leaf, and is not 0 (R175, R178). -/
theorem hufTables_maxLen {input : List Byte} {h : HufScratch} (hne : input ≠ []) (ht : hufTables input = .ok h) :
    (∃ i < 256, (poolAt h.pool i).valid = true ∧ (poolAt h.pool i).code.length = h.maxLen) ∧
      (∀ i < 256, (poolAt h.pool i).code.length ≤ h.maxLen) ∧ 1 ≤ h.maxLen := by
  obtain ⟨built, n, hinv, hn, hassign, hmax⟩ := hufTables_ok hne ht
  obtain ⟨hgiven, i, hi, hvalid, hone⟩ := hufAssignNode_codes hinv.children hn rfl hassign
  have hmem := mem_hufLengths.2 ⟨i, hi, (hgiven.valid_eq i).trans hvalid, rfl⟩
  obtain ⟨hattained, hbound⟩ := foldl_max_spec (List.ne_nil_of_mem hmem)
  rw [← hmax] at hattained hbound
  refine ⟨mem_hufLengths.1 hattained, fun j hj => ?_, hone.trans (hbound _ hmem)⟩
  obtain hzero | ⟨hvalid, -⟩ := hufTables_code_length hne ht j
  · omega
  · exact hbound _ (mem_hufLengths.2 ⟨j, hj, hvalid, rfl⟩)

/-- Settles O42: `max_len` is the length of a valid leaf's code, between 1 and 64, so its bit length is between 1 and 7. -/
theorem hufFieldWidthHoldsEveryLength : Obligations.HufFieldWidthHoldsEveryLength := by
  intro input h hne ht
  have hleaves := hufTables_leavesOf hne ht
  obtain ⟨⟨i, hi, hvalid, hlen⟩, hbound, hone⟩ := hufTables_maxLen hne ht
  have hle : h.maxLen ≤ 64 := by
    obtain hzero | ⟨-, hle⟩ := hufTables_code_length hne ht i
    · omega
    · exact hlen ▸ hle
  have hwidth : h.fieldWidth = Nat.log2 h.maxLen + 1 := by
    rw [hufTables_fieldWidth ht, bitlen, if_neg (by omega)]
  have hlog : Nat.log2 h.maxLen < 7 := (Nat.log2_lt (by omega)).2 (by omega)
  refine ⟨fun v _ => hbound _ v.isLt, ⟨leafValue i, (hleaves i hi).1 hvalid, ?_⟩, hwidth, by omega, by omega,
    fun j hj => ?_⟩
  · rw [leafValue, BitVec.toNat_ofNat, Nat.mod_eq_of_lt hi, hlen]
  · rw [hwidth]
    exact (hbound j hj).trans_lt Nat.lt_log2_self

end Sys2Proof.Machine
end

section
/-! The ends of the commands that append, past what has room: the size of the buffer after growth, `CAP_ALLOC`, and the
joining of two values (40_bitstream_writer.md R132, R134; 60_exceptions.md R311). -/

namespace Sys2Proof.Machine

theorem CanAppend.legal {s : State} (h : CanAppend s) : s.cfg.Legal := h.1

theorem CanAppend.unfaulted {s : State} (h : CanAppend s) : s.status.fault = false := by
  obtain ⟨-, -, hf⟩ := h
  exact hf

/-! ### The size of the buffer (R132) -/

/-- `a'` is the least of the sizes `a`, `a * g`, `a * g ^ 2`, … in bytes that `n` bits do not fill. -/
def LeastGrowth (g a n a' : Nat) : Prop :=
  ∃ j, a' = a * g ^ j ∧ n < 8 * a' ∧ ∀ k < j, 8 * (a * g ^ k) ≤ n

theorem LeastGrowth.of_lt {g a n : Nat} (h : n < 8 * a) : LeastGrowth g a n a :=
  ⟨0, by simp, h, fun _ hk => absurd hk (Nat.not_lt_zero _)⟩

/-- Bits that fill the buffer need the growth after it. -/
theorem LeastGrowth.of_le {g a n a' : Nat} (hfill : 8 * a ≤ n) (h : LeastGrowth g (a * g) n a') :
    LeastGrowth g a n a' := by
  have hpow : ∀ k, a * g ^ (k + 1) = a * g * g ^ k := fun k => by ring
  obtain ⟨j, hsize, hroom, hleast⟩ := h
  refine ⟨j + 1, by rw [hsize, hpow], hroom, fun k hk => ?_⟩
  cases k with
  | zero => simpa using hfill
  | succ k => rw [hpow]; exact hleast k (by omega)

/-- Appends that are done leave the least size that holds their bits, since growth is eager and one factor at a time. -/
theorem appendBits_leastGrowth {c : Config} {w w' : Writer} {bits : List Bool} (h : w.Ready c)
    (hd : w.appendBits c bits = .done w') :
    LeastGrowth (growthFactor c) w.bytesAllocated w'.bitsWritten w'.bytesAllocated := by
  induction bits generalizing w with
  | nil =>
    obtain rfl : w = w' := by simpa using hd
    exact .of_lt h.notFull
  | cons b rest ih =>
    rw [appendBits_cons] at hd
    obtain ⟨w₁, hbit, ⟨hone, -⟩, hready, hsize⟩ | ⟨hbit, -⟩ := appendBit_cases h b
    · rw [hbit] at hd
      have hleast := ih hready hd
      obtain ⟨⟨hrest, -⟩, -⟩ := appendBits_done hready hd
      obtain ⟨-, hkept⟩ | ⟨hfill, hgrown⟩ := hsize
      · rwa [hkept] at hleast
      · rw [hgrown] at hleast
        exact .of_le (by rw [hrest, hone, ← hfill]; exact Nat.le_add_right _ _) hleast
    · rw [hbit] at hd
      cases hd

theorem appendBits_singleton (c : Config) (b : Bool) (w : Writer) : w.appendBits c [b] = w.appendBit c b := by
  rw [appendBits_cons]
  cases w.appendBit c b <;> rfl

/-- The buffer of `t` has its length in `bytes_allocated`, the least growth of the size in `s` that the bits do not fill. -/
def BufferFits (s t : State) : Prop :=
  t.w.wbuf.length = t.w.bytesAllocated ∧
    LeastGrowth (growthFactor s.cfg) s.w.bytesAllocated t.w.bitsWritten t.w.bytesAllocated

theorem appendAndEnd_bufferFits {s : State} {bits : List Bool} (h : CanAppend s)
    (hf : (s.appendAndEnd bits).status.fault = false) : BufferFits s (s.appendAndEnd bits) := by
  cases hd : s.w.appendBits s.cfg bits with
  | done w =>
    obtain ⟨-, ⟨hlen, -⟩, -⟩ := appendBits_done h.ready hd
    rw [appendAndEnd_done hd]
    exact ⟨hlen, appendBits_leastGrowth h.ready hd⟩
  | full w =>
    rw [appendAndEnd_full hd] at hf
    cases hf

/-! ### Without room, an append command ends in `CAP_ALLOC` (R132, R311) -/

theorem ReportsCounts.counts {t : State} (h : ReportsCounts t) (hlt : t.w.bitsWritten < 2 ^ 64) :
    Counts t t.w.bitsWritten := by
  obtain ⟨hres0, hres1⟩ := h
  exact ⟨by rw [hres0, word64_toNat ((ceil8_le _).trans_lt hlt), ceil8], by rw [hres1, word64_toNat hlt]⟩

theorem appendAndEnd_faults {s : State} {bits : List Bool} (h : CanAppend s) (hr : ¬ RoomFor s bits.length) :
    AppendFaults s bits (s.appendAndEnd bits) := by
  obtain ⟨w, m, hm, hle, hext, hfull, -, -, hmax, hlimit, hend⟩ := appendAndEnd_noRoom h.ready hr
  obtain ⟨-, -, -, -, -, -, hbuf⟩ := h.legal
  have hcounts := (appendAndEnd_reportsCounts s bits).counts (by rw [hend]; simp only [raise_w]; omega)
  rw [hend] at hcounts ⊢
  exact ⟨⟨m, hm, hle, hext⟩, hfull, hlimit, hcounts, rfl, rfl⟩

/-! ### The writer commands of an accepting core -/

theorem exec_bswBit_of_unfaulted {s : State} (hf : s.status.fault = false) (b : Bool) :
    exec (.bswBit b) s = .next (s.appendAndEnd [b]) := unlessFaulted_ok hf _

theorem exec_bswBits_of_unfaulted {s : State} {n : Nat} (hf : s.status.fault = false) (hn : n ≤ 64) :
    exec (.bswBits n) s = .next (s.appendAndEnd (lsbBits s.arg0.toNat n)) :=
  (unlessFaulted_ok hf _).trans (congrArg _ (if_neg (Nat.not_lt.2 hn)))

theorem exec_bswCode_of_unfaulted {s : State} (hf : s.status.fault = false) (hn : s.arg1.toNat ≤ 64) :
    exec .bswCode s = .next (s.appendAndEnd (lsbBits s.arg0.toNat s.arg1.toNat)) :=
  (unlessFaulted_ok hf _).trans (congrArg _ (if_neg (Nat.not_lt.2 hn)))

theorem exec_bswCnt_of_unfaulted {s : State} (hf : s.status.fault = false) :
    exec .bswCnt s = .next s.completeCounts := unlessFaulted_ok hf _

/-! ### Two values in one (R134) -/

/-- The low `n` bits of `v`, then the low `m` bits of `u`, are the low `n + m` bits of the joined value. -/
theorem lsbBits_append (v u n m : Nat) :
    lsbBits v n ++ lsbBits u m = lsbBits (v % 2 ^ n ||| u <<< n) (n + m) := by
  simp only [lsbBits, List.range_add, List.map_append, List.map_map]
  congr 1
  · refine List.map_congr_left fun i hi => ?_
    have hi : i < n := List.mem_range.1 hi
    simp [Nat.testBit_mod_two_pow, hi]
  · refine List.map_congr_left fun i _ => ?_
    simp [Nat.testBit_mod_two_pow]

end Sys2Proof.Machine
end

section
/-! The obligations of the writer. -/

namespace Sys2Proof.Machine

/-- Settles O15: `appendBit_cases` gives the new size, the rest holds of every append with room. -/
theorem bswBitAppendsOneBit : Obligations.BswBitAppendsOneBit := by
  intro b s hs hroom
  refine ⟨_, exec_bswBit_of_unfaulted hs.unfaulted b, appendAndEnd_completes hs hroom, ?_⟩
  obtain ⟨w, hdone⟩ := (appendBits_done_iff (bits := [b]) hs.ready).2 hroom
  rw [appendAndEnd_done hdone]
  rw [appendBits_singleton] at hdone
  obtain ⟨w', hbit, -, ⟨⟨hlen, -⟩, -⟩, hsize⟩ | ⟨hbit, -⟩ := appendBit_cases hs.ready b
  · cases hbit.symm.trans hdone
    refine ⟨hlen, ?_⟩
    obtain ⟨hlt, hkept⟩ | ⟨hfill, hgrown⟩ := hsize
    · rw [if_neg hlt.ne]; exact hkept
    · rw [if_pos hfill]; exact hgrown
  · cases hbit.symm.trans hdone

/-- Settles O16. -/
theorem bswBitsAppendsLowBitsFirst : Obligations.BswBitsAppendsLowBitsFirst := by
  intro n s hs hn hroom
  exact ⟨_, exec_bswBits_of_unfaulted hs.unfaulted hn, appendAndEnd_completes hs (by simpa using hroom)⟩

/-- Settles O17. -/
theorem bswCodeAppendsTheCode : Obligations.BswCodeAppendsTheCode := by
  intro s hs hn hroom
  exact ⟨_, exec_bswCode_of_unfaulted hs.unfaulted hn, appendAndEnd_completes hs (by simpa using hroom)⟩

/-- Settles O19: the three commands differ in their bits only. -/
theorem appendPastTheLimitFaults : Obligations.AppendPastTheLimitFaults := by
  intro s hs
  exact ⟨fun b hroom => ⟨_, exec_bswBit_of_unfaulted hs.unfaulted b, appendAndEnd_faults hs hroom⟩,
    fun n hn hroom => ⟨_, exec_bswBits_of_unfaulted hs.unfaulted hn, appendAndEnd_faults hs (by simpa using hroom)⟩,
    fun hn hroom => ⟨_, exec_bswCode_of_unfaulted hs.unfaulted hn, appendAndEnd_faults hs (by simpa using hroom)⟩⟩

/-- Settles O20, by the ends of a command: a refusal sets `ARGERR`, a fault of the Huffman tables `FAULT`, and every other
end of a command that appends is that of its appends. -/
theorem bufferSizeIsTheLeastPowerThatFits : Obligations.BufferSizeIsTheLeastPowerThatFits := by
  intro i s t hs hi ht hf harg
  cases exec_ends ht with
  | bit | bits | code | huf | lzw | rice => exact appendAndEnd_bufferFits hs hf
  | faulted | bitsCount | codeCount | encSize | encNotEmpty => exact absurd harg (by simp)
  | hufFault => exact absurd hf (by simp)
  | _ => exact absurd hi (by simp [Appends, IsEncoder])

/-- Settles O23: both sides are the appends of `lsbBits v n ++ lsbBits u m`. -/
theorem appendingTwiceIsAppendingOnce : Obligations.AppendingTwiceIsAppendingOnce := by
  intro c w v u n m
  have hjoin := (appendBits_append c (lsbBits v n) (lsbBits u m) w).symm
  exact ⟨hjoin, fun _ => lsbBits_append v u n m ▸ hjoin⟩

/-- Settles O34: the three commands differ in their streams only. -/
theorem encodersPastTheLimitFault : Obligations.EncodersPastTheLimitFault := by
  intro s hs
  exact ⟨fun tables htables hroom => ⟨_, hs.exec_hufEnc htables, appendAndEnd_faults hs.canAppend hroom⟩,
    fun hroom => ⟨_, hs.exec_lzwEnc, appendAndEnd_faults hs.canAppend hroom⟩,
    fun hroom => ⟨_, hs.exec_riceEnc, appendAndEnd_faults hs.canAppend hroom⟩⟩

/-- Settles O21. -/
theorem bswRelDeliversTheBuffer : Obligations.BswRelDeliversTheBuffer := by
  intro s hs
  have hcounts := counts_completeCounts (hs.ready.bitsWritten_lt hs.legal)
  exact ⟨_, exec_bswRel_of_unfaulted hs.unfaulted, rfl, rfl, rfl, rfl, hcounts,
    Status.completed_of_unfaulted hs.unfaulted false, rfl⟩

/-- Settles O22. -/
theorem bswCntReportsTheCounts : Obligations.BswCntReportsTheCounts := by
  intro s hs
  have hcounts := counts_completeCounts (hs.ready.bitsWritten_lt hs.legal)
  exact ⟨_, exec_bswCnt_of_unfaulted hs.unfaulted, hcounts, Status.completed_of_unfaulted hs.unfaulted false, rfl⟩

end Sys2Proof.Machine
end

section
/-! The commands and the bits of the reader (41_bitstream_reader.md R150 to R156). -/

namespace Sys2Proof.Machine

/-! ### The reader commands of an unfaulted core -/

theorem exec_bsrOpen_inside {s : State} (hf : s.status.fault = false)
    (hr : sliceRangeOk s.cfg s.arg0.toNat s.arg1.toNat = true) :
    exec .bsrOpen s = .next (({ s with r := ⟨s.arg0.toNat, s.arg1.toNat, 0⟩ } : State).complete 0 0 false) :=
  (unlessFaulted_ok hf _).trans (congrArg _ (if_neg (by simp [hr])))

theorem exec_bsrOpen_outside {s : State} (hf : s.status.fault = false)
    (hr : sliceRangeOk s.cfg s.arg0.toNat s.arg1.toNat = false) : exec .bsrOpen s = .next (s.refuse .argSize) :=
  (unlessFaulted_ok hf _).trans (congrArg _ (if_pos hr))

/-- On a slice that `BSR.OPEN` accepted, `BSR.BIT` is its end (R152, R155). -/
theorem exec_bsrBit_of_readerInv {s : State} (hr : ReaderInv s) (hf : s.status.fault = false) :
    exec .bsrBit s = .next s.readBitEnd :=
  (exec_bsrBit_of_unfaulted hf).trans (withSlice_next hr _ _)

/-- On a slice that `BSR.OPEN` accepted, `BSR.BITS` is its end (R154, R155). -/
theorem exec_bsrBits_of_readerInv {s : State} {n : Nat} (hr : ReaderInv s) (hf : s.status.fault = false)
    (hn : n ≤ 64) : exec (.bsrBits n) s = .next (s.readBitsEnd n) :=
  (exec_bsrBits_of_unfaulted hf hn).trans (withSlice_next hr _ _)

/-- With enough bits left, `BSR.BITS` completes with them as the low bits of its value (R154). -/
theorem readBitsEnd_value {s : State} {n : Nat} (hleft : s.r.bitsRead + n ≤ s.r.sizeInBits) (hn : n ≤ 64) :
    ∃ v, s.readBitsEnd n = ({ s with r := { s.r with bitsRead := s.r.bitsRead + n } } : State).complete v
        (word64 (s.r.bitsRead + n)) false ∧
      ∀ i < 64, v.getLsbD i = (decide (i < n) && s.r.bitOf s.mem (s.r.bitsRead + i)) := by
  obtain ⟨v, hread, hbits⟩ := readBits_some (m := s.mem) hleft hn
  exact ⟨v, by rw [State.readBitsEnd, hread], hbits⟩

/-- With too few bits left, `BSR.BITS` faults at the end of the slice (R154, R311). -/
theorem readBitsEnd_fault {s : State} {n : Nat} (hle : s.r.bitsRead ≤ s.r.sizeInBits)
    (hpast : s.r.sizeInBits < s.r.bitsRead + n) :
    s.readBitsEnd n = ({ s with r := { s.r with bitsRead := s.r.sizeInBits } } : State).raiseUnexpectedEnd := by
  rw [State.readBitsEnd, readBits_none hle hpast]

/-- A position in the slice fits the 64-bit register that reports it (R34). -/
theorem ReaderInv.position_toNat {s : State} (hr : ReaderInv s) {p : Nat} (hp : p ≤ s.r.sizeInBits) :
    (word64 p).toNat = p := by
  obtain ⟨-, hsize, -⟩ := hr
  exact word64_toNat (hp.trans_lt hsize)

/-! ### The bits of the slice -/

/-- A bit of the slice as a number in a register (R152). -/
theorem word64_bitOf_toNat (m : Memory) (r : Reader) (p : Nat) :
    (word64 (r.bitOf m p).toNat).toNat = (Memory.read m (r.base + p / 8)).toNat / 2 ^ (p % 8) % 2 := by
  rw [word64_toNat ((Bool.toNat_le _).trans_lt (by decide)), Reader.bitOf, BitVec.getLsbD, Nat.toNat_testBit]

/-- Where `MEM` at the slice holds the bytes of a buffer, the bits of the slice are the stream positions of the buffer
(R67, R70). -/
theorem bitOf_eq_bitAt {m : Memory} {r : Reader} {bytes : List Byte}
    (hmem : ∀ i < ceil8 r.sizeInBits, Memory.read m (r.base + i) = bytes.getD i 0#8) {p : Nat}
    (hp : p < r.sizeInBits) : r.bitOf m p = bitAt bytes p := by
  rw [Reader.bitOf, hmem (p / 8) (by unfold ceil8; omega)]
  rfl

/-- Appended to a fresh writer, the bits are those of its buffer (R33 (c)). -/
theorem bitAt_appendBits_fresh {c : Config} (hc : c.Legal) {bits : List Bool} {w : Writer}
    (hd : (Writer.fresh c).appendBits c bits = .done w) (p : Nat) : bitAt w.wbuf p = bits.getD p false := by
  obtain ⟨⟨-, hbits⟩, -⟩ := appendBits_done (fresh_ready hc) hd
  exact hbits p

/-- When the bits left in the slice are `bits`, that many calls of `read_bit()` return them, and the next call nothing. -/
theorem readTimes_eq {m : Memory} {bits : List Bool} {r : Reader} (hsize : r.bitsRead + bits.length = r.sizeInBits)
    (hbits : ∀ i < bits.length, r.bitOf m (r.bitsRead + i) = bits.getD i false) :
    readTimes m (bits.length + 1) r = bits.map some ++ [none] := by
  induction bits generalizing r with
  | nil => simp [readTimes, readBit_none (m := m) hsize.ge]
  | cons b rest ih =>
    rw [List.length_cons] at hsize hbits
    have hfirst : r.bitOf m r.bitsRead = b := hbits 0 (Nat.succ_pos _)
    have hrest : readTimes m (rest.length + 1) { r with bitsRead := r.bitsRead + 1 } = rest.map some ++ [none] := by
      refine ih (by simp only; omega) fun i hi => ?_
      have hnext := hbits (i + 1) (by omega)
      rwa [← Nat.add_assoc, Nat.add_right_comm] at hnext
    rw [List.length_cons, readTimes, readBit_some (by omega)]
    simp [hfirst, hrest]

end Sys2Proof.Machine
end

section
/-! The obligations of the reader. -/

namespace Sys2Proof.Machine

/-- Settles O29: the bits of the slice are those of the writer's buffer, which are the bits appended. -/
theorem writerAndReaderAreInverse : Obligations.WriterAndReaderAreInverse := by
  intro c bits w m a hc hd hmem
  refine readTimes_eq (Nat.zero_add _) fun i hi => ?_
  rw [Nat.zero_add, bitOf_eq_bitAt (r := ⟨a, bits.length, 0⟩) hmem hi, bitAt_appendBits_fresh hc hd]

/-- Settles O25: with bits left the end is `readBitEnd_bit`, at the end of the slice `readBitEnd_eos`. -/
theorem bsrBitReadsTheNextBit : Obligations.BsrBitReadsTheNextBit := by
  intro s hr hf
  refine ⟨fun hleft => ⟨_, exec_bsrBit_of_readerInv hr hf, ?_⟩, fun hend => ⟨_, exec_bsrBit_of_readerInv hr hf, ?_⟩⟩
  · rw [readBitEnd_bit hleft]
    exact ⟨rfl, word64_bitOf_toNat _ _ _, hr.position_toNat hleft, Status.completed_of_unfaulted hf false, rfl⟩
  · rw [readBitEnd_eos hend.ge]
    exact ⟨rfl, rfl, hr.position_toNat hend.le, Status.completed_of_unfaulted hf true, rfl⟩

/-- Settles O26. -/
theorem bsrBitsReadsLowBitsFirst : Obligations.BsrBitsReadsLowBitsFirst := by
  intro n s hr hf hn hleft
  refine ⟨_, exec_bsrBits_of_readerInv hr hf hn, ?_⟩
  obtain ⟨v, hend, hbits⟩ := readBitsEnd_value hleft hn
  rw [hend]
  exact ⟨rfl, hbits, hr.position_toNat hleft, Status.completed_of_unfaulted hf false, rfl⟩

/-- Settles O27. -/
theorem bsrBitsPastTheEndFaults : Obligations.BsrBitsPastTheEndFaults := by
  intro n s hr hf hn hpast
  refine ⟨_, exec_bsrBits_of_readerInv hr hf hn, ?_⟩
  rw [readBitsEnd_fault hr.1 hpast]
  exact ⟨rfl, hr.position_toNat le_rfl, rfl, rfl⟩

/-- Settles O24, by the range check. -/
theorem bsrOpenSetsTheSlice : Obligations.BsrOpenSetsTheSlice := by
  intro s hf
  refine ⟨fun hbase hend => ?_, fun hout => ⟨_, exec_bsrOpen_outside hf ?_, rfl⟩⟩
  · rw [exec_bsrOpen_inside hf ((sliceRangeOk_iff _ _ _).2 ⟨hbase, hend⟩), State.complete,
      Status.completed_of_unfaulted hf]
    rfl
  · rw [Bool.eq_false_iff, ne_eq, sliceRangeOk_iff, not_and_or, Nat.not_lt, Nat.not_le]
    exact hout

end Sys2Proof.Machine
end

section
/-! How `HUF.ENC` ends once its checks have passed (42_huffman_encoder.md R165, R176, R182). -/

namespace Sys2Proof.Machine

/-- Tables that fault leave the writer untouched and empty, so both counts are 0 (R176, R311). -/
theorem CanEncode.exec_hufEnc_error {s : State} {k : Cause} (h : CanEncode s) (ht : hufTables s.input = .error k) :
    exec .hufEnc s = .next (s.raise k 0#64 0#64) := by
  have hcounts : s.raiseCounts k = s.raise k 0#64 0#64 := by rw [State.raiseCounts, h.empty]; rfl
  rw [exec_hufEnc_of_error h ht, hcounts, dropHuf_of_scratchInv (s := s.raise k 0#64 0#64) h.scratch]

/-- Settles O35: by whether the tables are built, and if so by the room for the stream. -/
theorem hufEncEndsInOneOfThreeWays : Obligations.HufEncEndsInOneOfThreeWays := by
  intro s hs
  cases htables : hufTables s.input with
  | ok tables =>
    refine ⟨_, hs.exec_hufEnc htables, ?_⟩
    by_cases hroom : RoomFor s (hufStream tables s.input).length
    · exact .inl ⟨tables, rfl, hroom, appendAndEnd_completes hs.canAppend hroom⟩
    · exact .inr (.inl ⟨tables, rfl, hroom, appendAndEnd_faults hs.canAppend hroom⟩)
  | error k =>
    exact ⟨_, hs.exec_hufEnc_error htables,
      .inr (.inr ⟨k, rfl, hufTables_error htables, rfl, rfl, rfl, rfl, rfl⟩)⟩

end Sys2Proof.Machine
end

section
/-! `extract_min()` of the tree builder (42_huffman_encoder.md R170). -/

namespace Sys2Proof.Machine

/-- `i` is in the queue, and its pair `(frequency, index)` is the smallest there. -/
def IsMin (pool : List HufNode) (queue : List Nat) (i : Nat) : Prop :=
  i ∈ queue ∧ ∀ j ∈ queue, (poolAt pool i).frequency < (poolAt pool j).frequency ∨
    ((poolAt pool i).frequency = (poolAt pool j).frequency ∧ i ≤ j)

theorem hufBefore_iff {pool : List HufNode} {i j : Nat} : hufBefore pool i j = true ↔
    (poolAt pool i).frequency < (poolAt pool j).frequency ∨
      ((poolAt pool i).frequency = (poolAt pool j).frequency ∧ i < j) := by
  simp [hufBefore]

theorem hufMin_isMin {pool : List HufNode} {queue : List Nat} (hne : queue ≠ []) :
    ∃ i, hufMin pool queue = some i ∧ IsMin pool queue i := by
  induction queue with
  | nil => exact absurd rfl hne
  | cons i rest ih =>
    obtain rfl | hrest := eq_or_ne rest []
    · exact ⟨i, rfl, by simp [IsMin]⟩
    obtain ⟨j, hj, hmem, hleast⟩ := ih hrest
    rw [hufMin, hj]
    simp only
    by_cases hbefore : hufBefore pool i j = true
    · refine ⟨i, if_pos hbefore, List.mem_cons_self, ?_⟩
      rw [hufBefore_iff] at hbefore
      rintro k hk
      obtain rfl | hk := List.mem_cons.1 hk
      · exact .inr ⟨rfl, le_rfl⟩
      · have := hleast k hk
        omega
    · refine ⟨j, if_neg hbefore, List.mem_cons_of_mem i hmem, ?_⟩
      rw [hufBefore_iff] at hbefore
      rintro k hk
      obtain rfl | hk := List.mem_cons.1 hk
      · omega
      · exact hleast k hk

theorem hufExtract_isMin {pool : List HufNode} {queue : List Nat} (hne : queue ≠ []) :
    ∃ i, hufExtract pool queue = some (i, queue.erase i) ∧ IsMin pool queue i := by
  obtain ⟨i, hi, hmin⟩ := hufMin_isMin (pool := pool) hne
  exact ⟨i, by rw [hufExtract, hi, Option.map_some], hmin⟩

/-- Settles O39. -/
theorem hufExtractTakesTheSmallestPair : Obligations.HufExtractTakesTheSmallestPair := by
  intro pool queue
  exact ⟨fun hempty => by rw [hempty]; rfl, fun hne => hufExtract_isMin hne⟩

end Sys2Proof.Machine
end

section
/-! When phase ASSIGN faults (42_huffman_encoder.md R175, R176), on any pool. -/

namespace Sys2Proof.Machine

/-- The two pools have the same child links. -/
def SameLinks (pool pool' : List HufNode) : Prop :=
  ∀ i, (poolAt pool' i).left = (poolAt pool i).left ∧ (poolAt pool' i).right = (poolAt pool i).right

theorem SameLinks.trans {pool pool' pool'' : List HufNode} (h : SameLinks pool pool') (h' : SameLinks pool' pool'') :
    SameLinks pool pool'' :=
  fun i => ⟨(h' i).1.trans (h i).1, (h' i).2.trans (h i).2⟩

theorem sameLinks_withCode (pool : List HufNode) (n : Nat) (code : HuffmanCode) :
    SameLinks pool (withCode pool n code) := by
  intro i
  obtain hn | hn := Nat.lt_or_ge n pool.length
  · rw [poolAt_withCode hn]; split <;> exact ⟨rfl, rfl⟩
  · rw [withCode, List.modify_eq_self hn]; exact ⟨rfl, rfl⟩

theorem SameLinks.hasNodeAtDepth_iff {pool pool' : List HufNode} (h : SameLinks pool pool') {d n : Nat} :
    HasNodeAtDepth pool' d n ↔ HasNodeAtDepth pool d n := by
  induction d generalizing n with
  | zero => exact Iff.rfl
  | succ d ih => simp only [HasNodeAtDepth, h n, ih]

/-- An inner node without two children gets its code and has no node below it. -/
theorem hufAssignNode_childless {room n : Nat} {pool : List HufNode} {parent : HuffmanCode} {bit : Bool} (hn : 256 ≤ n)
    (hc : ∀ l r, ¬ ((poolAt pool n).left = some l ∧ (poolAt pool n).right = some r)) :
    hufAssignNode (room + 1) pool n parent bit = .ok (withCode pool n (parent.append bit)) := by
  simp only [hufAssignNode, if_neg (not_nodeIsLeaf hn)]
  split
  · next hl hr => exact absurd ⟨hl, hr⟩ (hc _ _)
  · rfl

/-- The steps of `assign` at an inner node: its code, the left subtree, and if that did not fault the right one. -/
theorem hufAssignNode_inner_eq {room n l r : Nat} {pool : List HufNode} {parent : HuffmanCode} {bit : Bool}
    (hn : 256 ≤ n) (hl : (poolAt pool n).left = some l) (hr : (poolAt pool n).right = some r) :
    hufAssignNode (room + 1) pool n parent bit =
      (hufAssignNode room (withCode pool n (parent.append bit)) l (parent.append bit) false).bind
        fun mid => hufAssignNode room mid r (parent.append bit) true := by
  simp only [hufAssignNode, if_neg (not_nodeIsLeaf hn), hl, hr, withCode]
  split <;> next h => rw [h]; rfl

/-- `assign` with `room` bits left faults when there is a node `room` links below, and otherwise keeps the links. -/
theorem hufAssignNode_depth (room : Nat) (pool : List HufNode) (n : Nat) (parent : HuffmanCode) (bit : Bool) :
    (HasNodeAtDepth pool room n ∧ hufAssignNode room pool n parent bit = .error .capCodeLen) ∨
      (¬ HasNodeAtDepth pool room n ∧
        ∃ pool', hufAssignNode room pool n parent bit = .ok pool' ∧ SameLinks pool pool') := by
  induction room generalizing pool n parent bit with
  | zero => exact .inl ⟨trivial, rfl⟩
  | succ room ih =>
    have hself := sameLinks_withCode pool n (parent.append bit)
    obtain hleaf | hinner := Nat.lt_or_ge n 256
    · exact .inr ⟨fun hdeep => absurd hdeep.1 (by omega), _, hufAssignNode_leaf hleaf, hself⟩
    by_cases hc : ∃ l r, (poolAt pool n).left = some l ∧ (poolAt pool n).right = some r
    case neg =>
      push Not at hc
      exact .inr ⟨fun ⟨_, l, r, hl, hr, _⟩ => hc l r hl hr, _,
        hufAssignNode_childless hinner fun l r h => hc l r h.1 h.2, hself⟩
    obtain ⟨l, r, hl, hr⟩ := hc
    have hdeep : HasNodeAtDepth pool (room + 1) n ↔ HasNodeAtDepth pool room l ∨ HasNodeAtDepth pool room r := by
      simp [HasNodeAtDepth, hinner, hl, hr]
    rw [hufAssignNode_inner_eq hinner hl hr, hdeep]
    obtain ⟨hdeepL, hfault⟩ | ⟨hshallowL, mid, hmid, hlinks⟩ :=
      ih (withCode pool n (parent.append bit)) l (parent.append bit) false
    · rw [hself.hasNodeAtDepth_iff] at hdeepL
      exact .inl ⟨.inl hdeepL, by rw [hfault]; rfl⟩
    rw [hself.hasNodeAtDepth_iff] at hshallowL
    have hlinks := hself.trans hlinks
    rw [hmid, Except.bind]
    obtain ⟨hdeepR, hfault⟩ | ⟨hshallowR, pool', hok, hlinksR⟩ := ih mid r (parent.append bit) true
    · rw [hlinks.hasNodeAtDepth_iff] at hdeepR
      exact .inl ⟨.inr hdeepR, hfault⟩
    · rw [hlinks.hasNodeAtDepth_iff] at hshallowR
      exact .inr ⟨not_or.2 ⟨hshallowL, hshallowR⟩, pool', hok, hlinks.trans hlinksR⟩

/-- Settles O44: the 64 bits of a code are the room `assign` starts with. -/
theorem hufCodeLengthFaultIsADeepNode : Obligations.HufCodeLengthFaultIsADeepNode := by
  intro h n hroot
  rw [hufAssign, hroot]
  obtain ⟨hdeep, hfault⟩ | ⟨hshallow, pool', hok, -⟩ := hufAssignNode_depth 64 h.pool n HuffmanCode.empty false
  · simpa only [maxCodeLen, hfault, true_iff] using hdeep
  · simpa only [maxCodeLen, hok, reduceCtorEq, false_iff] using hshallow

end Sys2Proof.Machine
end

section
/-! Phase BUILD, pass by pass (42_huffman_encoder.md R170 to R173): the two nodes a pass takes and the pool it leaves.
-/

namespace Sys2Proof.Machine

/-- `a`, then `b`, is what `extract_min()` takes out of the queue (R171). -/
structure Picks (h : HufScratch) (a b : Nat) : Prop where
  first : IsMin h.pool h.queue a
  second : IsMin h.pool (h.queue.erase a) b

/-- The scratch after the pass that takes `a` and `b`. -/
def afterPass (h : HufScratch) (a b : Nat) : HufScratch := merged h a b ((h.queue.erase a).erase b)

/-- A pass on a queue of two or more merges the two smallest, unless the pool is exhausted (R171, R173). -/
theorem hufMerge_eq {h : HufScratch} (hlen : 1 < h.queue.length) (hroom : h.innerCount ≠ hufInnerSlots) :
    ∃ a b, Picks h a b ∧ hufMerge h = .ok (afterPass h a b) := by
  have hne : h.queue ≠ [] := List.ne_nil_of_length_pos (by omega)
  obtain ⟨a, ha, hmina⟩ := hufExtract_isMin (pool := h.pool) hne
  have hlen' : (h.queue.erase a).length = h.queue.length - 1 := List.length_erase_of_mem hmina.1
  have hne' : h.queue.erase a ≠ [] := List.ne_nil_of_length_pos (by omega)
  obtain ⟨b, hb, hminb⟩ := hufExtract_isMin (pool := h.pool) hne'
  refine ⟨a, b, ⟨hmina, hminb⟩, ?_⟩
  simp only [hufMerge, ha, hb, if_neg hroom]
  rfl

section
variable {h : HufScratch} {a b : Nat}

theorem Picks.perm (hp : Picks h a b) : h.queue.Perm (a :: b :: (h.queue.erase a).erase b) :=
  (List.perm_cons_erase hp.first.1).trans ((List.perm_cons_erase hp.second.1).cons a)

theorem Picks.mem_left (hp : Picks h a b) : a ∈ h.queue := hp.first.1

theorem Picks.mem_right (hp : Picks h a b) : b ∈ h.queue := List.mem_of_mem_erase hp.second.1

theorem Picks.mem_of_mem_rest {x : Nat} (hx : x ∈ (h.queue.erase a).erase b) : x ∈ h.queue :=
  List.mem_of_mem_erase (List.mem_of_mem_erase hx)

/-- The left child comes before the right one in the order of `(frequency, index)`. -/
theorem Picks.before (hp : Picks h a b) (hnd : h.queue.Nodup) :
    (poolAt h.pool a).frequency < (poolAt h.pool b).frequency ∨
      ((poolAt h.pool a).frequency = (poolAt h.pool b).frequency ∧ a < b) := by
  have hne : b ≠ a := ((List.Nodup.mem_erase_iff hnd).1 hp.second.1).1
  have hle := hp.first.2 b hp.mem_right
  omega

theorem Picks.left_le_right (hp : Picks h a b) :
    (poolAt h.pool a).frequency ≤ (poolAt h.pool b).frequency := by
  have hle := hp.first.2 b hp.mem_right
  omega

theorem Picks.right_le (hp : Picks h a b) {x : Nat} (hx : x ∈ (h.queue.erase a).erase b) :
    (poolAt h.pool b).frequency ≤ (poolAt h.pool x).frequency := by
  have hle := hp.second.2 x (List.mem_of_mem_erase hx)
  omega

theorem Picks.rest_nodup (hp : Picks h a b) (hnd : h.queue.Nodup) :
    a ∉ b :: (h.queue.erase a).erase b ∧ b ∉ (h.queue.erase a).erase b ∧ ((h.queue.erase a).erase b).Nodup := by
  have hcons := hp.perm.nodup_iff.1 hnd
  rw [List.nodup_cons, List.nodup_cons] at hcons
  exact hcons

/-- A pass takes two nodes out of the queue and puts one in (R173). -/
theorem Picks.length_queue (hp : Picks h a b) : (afterPass h a b).queue.length + 1 = h.queue.length := by
  simp [hp.perm.length_eq, afterPass, merged]

theorem mem_queue_afterPass {x : Nat} :
    x ∈ (afterPass h a b).queue ↔ x ∈ (h.queue.erase a).erase b ∨ x = 256 + h.innerCount := by
  rw [afterPass, merged, List.mem_append, List.mem_singleton, hufLeaves]

theorem poolAt_afterPass (hnew : 256 + h.innerCount < h.pool.length) (i : Nat) : poolAt (afterPass h a b).pool i =
    if i = 256 + h.innerCount then hufJoin h.pool a b else poolAt h.pool i :=
  poolAt_set hnew _ i

end

/-! ### The nodes -/

/-- Leaf `i` after phase COUNT (R167). -/
def leafNode (input : List Byte) (i : Nat) : HufNode :=
  { HufNode.absent with frequency := hufCountOf input i, valid := decide (0 < hufCountOf input i) }

/-- The indices of the bytes that occur. -/
def presentLeaves (input : List Byte) : List Nat :=
  (List.range 256).filter fun i => decide (leafValue i ∈ input)

/-- Node `i` is the inner node made of two older valid nodes, `l` before `r` (R171). -/
structure Joined (pool : List HufNode) (i l r : Nat) : Prop where
  node : poolAt pool i = hufJoin pool l r
  left_lt : l < i
  right_lt : r < i
  left_valid : (poolAt pool l).valid = true
  right_valid : (poolAt pool r).valid = true
  before : (poolAt pool l).frequency < (poolAt pool r).frequency ∨
    ((poolAt pool l).frequency = (poolAt pool r).frequency ∧ l < r)

theorem Joined.congr {pool pool' : List HufNode} {i l r : Nat} (hj : Joined pool i l r)
    (hi : poolAt pool' i = poolAt pool i) (hl : poolAt pool' l = poolAt pool l) (hr : poolAt pool' r = poolAt pool r) :
    Joined pool' i l r where
  node := by rw [hi, hj.node, hufJoin, hufJoin, hl, hr]
  left_lt := hj.left_lt
  right_lt := hj.right_lt
  left_valid := by rw [hl]; exact hj.left_valid
  right_valid := by rw [hr]; exact hj.right_valid
  before := by rw [hl, hr]; exact hj.before

/-- The pool, the queue and the counts before and after every pass of phase BUILD (R167 to R173). -/
structure Nodes (input : List Byte) (h : HufScratch) : Prop where
  poolSize : h.pool.length = hufPool
  leaf : ∀ i < 256, poolAt h.pool i = leafNode input i
  inner : ∀ j < h.innerCount, ∃ l r, Joined h.pool (256 + j) l r
  unallocated : ∀ j, h.innerCount ≤ j → poolAt h.pool (256 + j) = HufNode.absent
  queueNodup : h.queue.Nodup
  queueValid : ∀ i ∈ h.queue, (poolAt h.pool i).valid = true
  mass : (h.queue.map fun i => (poolAt h.pool i).frequency).sum = input.length
  count : h.innerCount + h.queue.length = (presentLeaves input).length

theorem presentLeaves_length_le (input : List Byte) : (presentLeaves input).length ≤ 256 :=
  (List.length_filter_le _ _).trans_eq List.length_range

/-- The bytes of the present leaves are the distinct bytes of the input. -/
theorem map_leafValue_presentLeaves (input : List Byte) : ((presentLeaves input).map leafValue).Perm input.dedup := by
  refine (List.perm_ext_iff_of_nodup ?_ input.nodup_dedup).2 fun v => ?_
  · refine List.Nodup.map_on (fun i hi j hj hij => ?_) (List.nodup_range.filter _)
    rw [presentLeaves, List.mem_filter, List.mem_range] at hi hj
    have hval := congrArg BitVec.toNat hij
    simp only [leafValue, BitVec.toNat_ofNat] at hval
    omega
  · rw [List.mem_dedup, List.mem_map]
    constructor
    · rintro ⟨i, hi, rfl⟩
      rw [presentLeaves, List.mem_filter, decide_eq_true_iff] at hi
      exact hi.2
    · intro hv
      exact ⟨v.toNat, List.mem_filter.2 ⟨List.mem_range.2 v.isLt, by simpa using hv⟩, leafValue_toNat v⟩

/-- The frequencies of the leaves in the queue sum up to the length of the input (R168). -/
theorem sum_count_presentLeaves (input : List Byte) :
    ((presentLeaves input).map (hufCountOf input)).sum = input.length := by
  have hmap : (presentLeaves input).map (hufCountOf input) =
      ((presentLeaves input).map leafValue).map fun v => input.count v := by rw [List.map_map]; rfl
  rw [hmap, ((map_leafValue_presentLeaves input).map _).sum_eq, List.sum_map_count_dedup_eq_length]

theorem hufSort_queue (h : HufScratch) :
    (hufSort h).queue = (List.range 256).filter fun i => (poolAt h.pool i).valid := rfl

theorem queue_start (input : List Byte) : (hufSort (hufCount input hufInit)).queue = presentLeaves input := by
  have hvalid : ∀ i ∈ List.range 256,
      (poolAt (hufCount input hufInit).pool i).valid = decide (leafValue i ∈ input) := fun i hi => by
    have hleaf := leavesOf_hufCount input i (List.mem_range.1 hi)
    rwa [Bool.eq_iff_iff, decide_eq_true_iff]
  rw [hufSort_queue, presentLeaves, List.filter_congr hvalid]

theorem nodes_start (input : List Byte) : Nodes input (hufSort (hufCount input hufInit)) where
  poolSize := by rw [hufSort_pool, hufCount_pool_length]
  leaf _ hi := by rw [hufSort_pool, poolAt_hufCount_leaf input hi, leafNode]
  inner _ hj := absurd hj (by rw [hufSort_hufCount_innerCount]; exact Nat.not_lt_zero _)
  unallocated j _ := by
    rw [hufSort_pool]
    exact poolAt_hufCount_inner input (Nat.le_add_right 256 j)
  queueNodup := by rw [queue_start]; exact List.nodup_range.filter _
  queueValid _ hi := by
    rw [hufSort_pool]
    exact (mem_queue_hufSort.1 hi).2
  mass := by
    rw [← sum_count_presentLeaves input, queue_start]
    refine congrArg List.sum (List.map_congr_left fun i hi => ?_)
    rw [← queue_start] at hi
    rw [hufSort_pool, poolAt_hufCount_leaf input (mem_queue_hufSort.1 hi).1]
  count := by rw [queue_start, hufSort_hufCount_innerCount, Nat.zero_add]

section
variable {input : List Byte} {h : HufScratch} {a b : Nat}

theorem Nodes.innerCount_le (hn : Nodes input h) : h.innerCount ≤ 256 := by
  have hcount := hn.count
  have hle := presentLeaves_length_le input
  omega

theorem Nodes.leavesOf (hn : Nodes input h) : LeavesOf input h.pool := by
  intro i hi
  rw [hn.leaf i hi]
  exact decide_eq_true_iff.trans List.count_pos_iff

/-- Valid nodes lie below the first free slot. -/
theorem Nodes.lt_of_valid (hn : Nodes input h) {i : Nat} (hi : (poolAt h.pool i).valid = true) :
    i < 256 + h.innerCount := by
  by_contra hge
  obtain ⟨j, rfl⟩ := Nat.exists_eq_add_of_le (by omega : 256 ≤ i)
  rw [hn.unallocated j (by omega)] at hi
  cases hi

theorem Nodes.poolAt_new (hn : Nodes input h) :
    poolAt (afterPass h a b).pool (256 + h.innerCount) = hufJoin h.pool a b := by
  have hle := hn.innerCount_le
  rw [poolAt_afterPass (by rw [hn.poolSize, hufPool]; omega), if_pos rfl]

/-- A pass changes the slot it allocates only. -/
theorem Nodes.poolAt_old (hn : Nodes input h) {i : Nat} (hi : i ≠ 256 + h.innerCount) :
    poolAt (afterPass h a b).pool i = poolAt h.pool i := by
  have hle := hn.innerCount_le
  rw [poolAt_afterPass (by rw [hn.poolSize, hufPool]; omega), if_neg hi]

theorem Nodes.poolAt_valid (hn : Nodes input h) {i : Nat} (hi : (poolAt h.pool i).valid = true) :
    poolAt (afterPass h a b).pool i = poolAt h.pool i :=
  hn.poolAt_old (hn.lt_of_valid hi).ne

theorem Nodes.poolAt_queue (hn : Nodes input h) {i : Nat} (hi : i ∈ h.queue) :
    poolAt (afterPass h a b).pool i = poolAt h.pool i :=
  hn.poolAt_valid (hn.queueValid i hi)

/-- The node a pass allocates (R171). -/
theorem Nodes.joined_new (hn : Nodes input h) (hp : Picks h a b) :
    Joined (afterPass h a b).pool (256 + h.innerCount) a b where
  node := by rw [hn.poolAt_new, hufJoin, hufJoin, hn.poolAt_queue hp.mem_left, hn.poolAt_queue hp.mem_right]
  left_lt := hn.lt_of_valid (hn.queueValid a hp.mem_left)
  right_lt := hn.lt_of_valid (hn.queueValid b hp.mem_right)
  left_valid := by rw [hn.poolAt_queue hp.mem_left]; exact hn.queueValid a hp.mem_left
  right_valid := by rw [hn.poolAt_queue hp.mem_right]; exact hn.queueValid b hp.mem_right
  before := by
    rw [hn.poolAt_queue hp.mem_left, hn.poolAt_queue hp.mem_right]
    exact hp.before hn.queueNodup

/-- A pass keeps the sum of the frequencies in the queue (R168). -/
theorem Nodes.sum_afterPass (hn : Nodes input h) (hp : Picks h a b) :
    ((afterPass h a b).queue.map fun i => (poolAt (afterPass h a b).pool i).frequency).sum =
      (h.queue.map fun i => (poolAt h.pool i).frequency).sum := by
  have hrest : ((h.queue.erase a).erase b).map (fun i => (poolAt (afterPass h a b).pool i).frequency) =
      ((h.queue.erase a).erase b).map fun i => (poolAt h.pool i).frequency :=
    List.map_congr_left fun i hi => by rw [hn.poolAt_queue (Picks.mem_of_mem_rest hi)]
  have hnew : (poolAt (afterPass h a b).pool (256 + h.innerCount)).frequency =
      (poolAt h.pool a).frequency + (poolAt h.pool b).frequency := by rw [hn.poolAt_new, hufJoin]
  have hqueue : (afterPass h a b).queue = (h.queue.erase a).erase b ++ [256 + h.innerCount] := rfl
  rw [hqueue, List.map_append, hrest, List.sum_append, List.map_singleton, List.sum_singleton, hnew,
    (hp.perm.map _).sum_eq, List.map_cons, List.map_cons, List.sum_cons, List.sum_cons]
  omega

/-- A pass of phase BUILD keeps the nodes, the queue and the counts as they should be. -/
theorem Nodes.afterPass (hn : Nodes input h) (hp : Picks h a b) : Nodes input (afterPass h a b) where
  poolSize := List.length_set.trans hn.poolSize
  leaf i hi := (hn.poolAt_old (by omega)).trans (hn.leaf i hi)
  inner j hj := by
    obtain rfl | hj : j = h.innerCount ∨ j < h.innerCount := Nat.lt_succ_iff_lt_or_eq.1 hj |>.symm
    · exact ⟨a, b, hn.joined_new hp⟩
    · obtain ⟨l, r, hjoined⟩ := hn.inner j hj
      exact ⟨l, r, hjoined.congr (hn.poolAt_old (by omega)) (hn.poolAt_valid hjoined.left_valid)
        (hn.poolAt_valid hjoined.right_valid)⟩
  unallocated j hj := by
    have hj : h.innerCount + 1 ≤ j := hj
    rw [hn.poolAt_old (by omega), hn.unallocated j (by omega)]
  queueNodup := by
    obtain ⟨-, -, hrest⟩ := hp.rest_nodup hn.queueNodup
    have hfresh : 256 + h.innerCount ∉ (h.queue.erase a).erase b := fun hmem =>
      (hn.lt_of_valid (hn.queueValid _ (Picks.mem_of_mem_rest hmem))).ne rfl
    have hqueue : (Machine.afterPass h a b).queue = (h.queue.erase a).erase b ++ [256 + h.innerCount] := rfl
    rw [hqueue, ← List.concat_eq_append]
    exact hrest.concat hfresh
  queueValid i hi := by
    obtain hi | rfl := mem_queue_afterPass.1 hi
    · have hi := Picks.mem_of_mem_rest hi
      rw [hn.poolAt_queue hi]
      exact hn.queueValid i hi
    · rw [hn.poolAt_new]; rfl
  mass := (hn.sum_afterPass hp).trans hn.mass
  count := by
    have hinner : (Machine.afterPass h a b).innerCount = h.innerCount + 1 := rfl
    have hlen := hp.length_queue
    rw [← hn.count, hinner]
    omega

end

end Sys2Proof.Machine
end

section
/-! The children of the inner nodes through phase BUILD: every node but the queue's has one parent, and no node is
heavier than a node that is still in the queue when it has a parent (42_huffman_encoder.md R171, R174). -/

namespace Sys2Proof.Machine

/-- The child of inner node `i` that branch bit `c` leads to (R175). -/
def childOf (pool : List HufNode) (i : Nat) (c : Bool) : Option Nat :=
  if i < 256 then none else if c then (poolAt pool i).right else (poolAt pool i).left

theorem childOf_leaf {pool : List HufNode} {i : Nat} (hi : i < 256) (c : Bool) : childOf pool i c = none := if_pos hi

theorem childOf_false {pool : List HufNode} {i : Nat} (hi : 256 ≤ i) : childOf pool i false = (poolAt pool i).left := by
  rw [childOf, if_neg (by omega), if_neg Bool.false_ne_true]

theorem childOf_true {pool : List HufNode} {i : Nat} (hi : 256 ≤ i) : childOf pool i true = (poolAt pool i).right := by
  rw [childOf, if_neg (by omega), if_pos rfl]

theorem SameLinks.childOf_eq {pool pool' : List HufNode} (h : SameLinks pool pool') : childOf pool' = childOf pool := by
  funext i c
  obtain ⟨hl, hr⟩ := h i
  rw [childOf, childOf, hl, hr]

theorem Joined.childOf_eq {pool : List HufNode} {i l r : Nat} (hj : Joined pool i l r) (hi : 256 ≤ i) (c : Bool) :
    childOf pool i c = some (if c then r else l) := by
  cases c
  · rw [childOf_false hi, hj.node]; rfl
  · rw [childOf_true hi, hj.node]; rfl

section
variable {input : List Byte} {h : HufScratch} {a b : Nat}

/-- Every child link is that of an allocated inner node. -/
theorem Nodes.joined_of_childOf (hn : Nodes input h) {k x : Nat} {c : Bool} (hx : childOf h.pool k c = some x) :
    256 ≤ k ∧ ∃ l r, Joined h.pool k l r ∧ (if c then r else l) = x := by
  by_cases hk : k < 256
  · rw [childOf_leaf hk] at hx
    cases hx
  obtain ⟨j, rfl⟩ := Nat.exists_eq_add_of_le (Nat.not_lt.1 hk)
  obtain hj | hj := Nat.lt_or_ge j h.innerCount
  · obtain ⟨l, r, hjoined⟩ := hn.inner j hj
    rw [hjoined.childOf_eq (by omega)] at hx
    exact ⟨by omega, l, r, hjoined, Option.some.inj hx⟩
  · rw [childOf, hn.unallocated j hj] at hx
    cases c <;> simp [HufNode.absent] at hx

/-- A child is valid and older than its parent, which is valid too (R174). -/
theorem Nodes.child_spec (hn : Nodes input h) {k x : Nat} {c : Bool} (hx : childOf h.pool k c = some x) :
    x < k ∧ (poolAt h.pool x).valid = true ∧ (poolAt h.pool k).valid = true := by
  obtain ⟨-, l, r, hjoined, hside⟩ := hn.joined_of_childOf hx
  have hvalid : (poolAt h.pool k).valid = true := by rw [hjoined.node]; rfl
  subst hside
  cases c
  · exact ⟨hjoined.left_lt, hjoined.left_valid, hvalid⟩
  · exact ⟨hjoined.right_lt, hjoined.right_valid, hvalid⟩

theorem Nodes.child_valid (hn : Nodes input h) {k x : Nat} {c : Bool} (hx : childOf h.pool k c = some x) :
    (poolAt h.pool x).valid = true := by
  obtain ⟨-, hvalid, -⟩ := hn.child_spec hx
  exact hvalid

theorem Nodes.parent_lt (hn : Nodes input h) {k x : Nat} {c : Bool} (hx : childOf h.pool k c = some x) :
    k < 256 + h.innerCount := by
  obtain ⟨-, -, hvalid⟩ := hn.child_spec hx
  exact hn.lt_of_valid hvalid

theorem Nodes.validChildren (hn : Nodes input h) : ValidChildren h.pool := by
  intro i hi hvalid
  obtain ⟨j, rfl⟩ := Nat.exists_eq_add_of_le hi
  obtain ⟨l, r, hjoined⟩ := hn.inner j (by have := hn.lt_of_valid hvalid; omega)
  exact ⟨l, r, by rw [hjoined.node]; rfl, by rw [hjoined.node]; rfl, hjoined.left_valid, hjoined.right_valid⟩

/-- The one pair of links a pass adds. -/
theorem Nodes.childOf_afterPass (hn : Nodes input h) (hp : Picks h a b) (k : Nat) (c : Bool) :
    childOf (Machine.afterPass h a b).pool k c =
      if k = 256 + h.innerCount then some (if c then b else a) else childOf h.pool k c := by
  split
  · next hk => rw [hk, (hn.joined_new hp).childOf_eq (by omega)]
  · next hk => rw [childOf, hn.poolAt_old hk, childOf]

theorem Nodes.childOf_afterPass_cases (hn : Nodes input h) (hp : Picks h a b) {k x : Nat} {c : Bool}
    (hx : childOf (Machine.afterPass h a b).pool k c = some x) :
    (k = 256 + h.innerCount ∧ (if c then b else a) = x) ∨ (k ≠ 256 + h.innerCount ∧ childOf h.pool k c = some x) := by
  rw [hn.childOf_afterPass hp] at hx
  split at hx
  · next hk => exact .inl ⟨hk, Option.some.inj hx⟩
  · next hk => exact .inr ⟨hk, hx⟩

/-- The child of a new node was in the queue. -/
theorem Picks.side_mem (hp : Picks h a b) (c : Bool) : (if c then b else a) ∈ h.queue := by
  cases c
  · exact hp.mem_left
  · exact hp.mem_right

/-- The child of a new node leaves the queue. -/
theorem Picks.side_not_mem (hp : Picks h a b) (hnd : h.queue.Nodup) (c : Bool) :
    (if c then b else a) ∉ (h.queue.erase a).erase b := by
  obtain ⟨ha, hb, -⟩ := hp.rest_nodup hnd
  cases c
  · exact fun hmem => ha (List.mem_cons_of_mem b hmem)
  · exact hb

theorem Picks.side_injective (hp : Picks h a b) (hnd : h.queue.Nodup) {c c' : Bool}
    (heq : (if c then b else a) = if c' then b else a) : c = c' := by
  obtain ⟨ha, -⟩ := hp.rest_nodup hnd
  have hne : a ≠ b := fun hab => ha (hab ▸ List.mem_cons_self)
  cases c <;> cases c'
  · rfl
  · exact absurd heq hne
  · exact absurd heq.symm hne
  · rfl

theorem Picks.side_le_right (hp : Picks h a b) (c : Bool) :
    (poolAt h.pool (if c then b else a)).frequency ≤ (poolAt h.pool b).frequency := by
  cases c
  · exact hp.left_le_right
  · exact le_rfl

end

/-! ### Parents -/

/-- Every valid node has one parent, but for those in the queue, which have none (R174). -/
structure Parents (h : HufScratch) : Prop where
  orphan : ∀ i ∈ h.queue, ∀ k c, childOf h.pool k c ≠ some i
  exists_parent : ∀ i, (poolAt h.pool i).valid = true → i ∈ h.queue ∨ ∃ k c, childOf h.pool k c = some i
  unique : ∀ i k c k' c', childOf h.pool k c = some i → childOf h.pool k' c' = some i → k = k' ∧ c = c'

/-- No child is heavier than a node in the queue, nor a child of a right child than the left one: nodes leave the
queue in the order of their frequencies. -/
structure FrequencyOrder (h : HufScratch) : Prop where
  le_queue : ∀ k c x, childOf h.pool k c = some x → ∀ y ∈ h.queue,
    (poolAt h.pool x).frequency ≤ (poolAt h.pool y).frequency
  nephew : ∀ k l r, childOf h.pool k false = some l → childOf h.pool k true = some r →
    ∀ c x, childOf h.pool r c = some x → (poolAt h.pool x).frequency ≤ (poolAt h.pool l).frequency

section
variable {input : List Byte} {h : HufScratch} {a b : Nat}

theorem childOf_start (input : List Byte) (k : Nat) (c : Bool) :
    childOf (hufSort (hufCount input hufInit)).pool k c = none := by
  cases hx : childOf (hufSort (hufCount input hufInit)).pool k c with
  | none => rfl
  | some x =>
    have hparent := (nodes_start input).parent_lt hx
    rw [hufSort_hufCount_innerCount] at hparent
    rw [childOf_leaf (by omega)] at hx
    cases hx

theorem parents_start (input : List Byte) : Parents (hufSort (hufCount input hufInit)) where
  orphan i _ k c := by rw [childOf_start]; nofun
  exists_parent i hi := by
    have hlt := (nodes_start input).lt_of_valid hi
    rw [hufSort_hufCount_innerCount] at hlt
    exact .inl (mem_queue_hufSort.2 ⟨by omega, by rwa [hufSort_pool] at hi⟩)
  unique i k c k' c' hk := by rw [childOf_start] at hk; cases hk

theorem frequencyOrder_start (input : List Byte) : FrequencyOrder (hufSort (hufCount input hufInit)) where
  le_queue k c x hx := by rw [childOf_start] at hx; cases hx
  nephew k l r hl := by rw [childOf_start] at hl; cases hl

theorem Parents.afterPass (hpar : Parents h) (hn : Nodes input h) (hp : Picks h a b) : Parents (afterPass h a b) where
  orphan i hi k c hx := by
    obtain ⟨-, rfl⟩ | ⟨-, hx⟩ := hn.childOf_afterPass_cases hp hx
    · obtain hi | hi := mem_queue_afterPass.1 hi
      · exact hp.side_not_mem hn.queueNodup c hi
      · exact (hn.lt_of_valid (hn.queueValid _ (hp.side_mem c))).ne hi
    · obtain hi | hi := mem_queue_afterPass.1 hi
      · exact hpar.orphan i (Picks.mem_of_mem_rest hi) k c hx
      · exact (hn.lt_of_valid (hn.child_valid hx)).ne hi
  exists_parent i hi := by
    have hnew : ∀ c, childOf (Machine.afterPass h a b).pool (256 + h.innerCount) c = some (if c then b else a) :=
      fun c => by rw [hn.childOf_afterPass hp, if_pos rfl]
    by_cases hself : i = 256 + h.innerCount
    · exact .inl (mem_queue_afterPass.2 (.inr hself))
    rw [hn.poolAt_old hself] at hi
    obtain hqueue | ⟨k, c, hx⟩ := hpar.exists_parent i hi
    · have hsplit := hp.perm.mem_iff.1 hqueue
      rw [List.mem_cons, List.mem_cons] at hsplit
      obtain rfl | rfl | hrest := hsplit
      · exact .inr ⟨_, false, hnew false⟩
      · exact .inr ⟨_, true, hnew true⟩
      · exact .inl (mem_queue_afterPass.2 (.inl hrest))
    · exact .inr ⟨k, c, by rw [hn.childOf_afterPass hp, if_neg (hn.parent_lt hx).ne, hx]⟩
  unique i k c k' c' hx hx' := by
    obtain ⟨hk, hside⟩ | ⟨-, hx⟩ := hn.childOf_afterPass_cases hp hx <;>
      obtain ⟨hk', hside'⟩ | ⟨-, hx'⟩ := hn.childOf_afterPass_cases hp hx'
    · exact ⟨hk.trans hk'.symm, hp.side_injective hn.queueNodup (hside.trans hside'.symm)⟩
    · exact absurd hx' (hpar.orphan i (hside ▸ hp.side_mem c) k' c')
    · exact absurd hx (hpar.orphan i (hside' ▸ hp.side_mem c') k c)
    · exact hpar.unique i k c k' c' hx hx'

/-- The frequency of the node a pass makes (R171). -/
theorem Nodes.frequency_new (hn : Nodes input h) :
    (poolAt (Machine.afterPass h a b).pool (256 + h.innerCount)).frequency =
      (poolAt h.pool a).frequency + (poolAt h.pool b).frequency := by
  rw [hn.poolAt_new, hufJoin]

/-- What is not heavier than the right pick is not heavier than any node in the queue after the pass. -/
theorem Nodes.le_queue_afterPass (hn : Nodes input h) (hp : Picks h a b) {m y : Nat}
    (hm : m ≤ (poolAt h.pool b).frequency) (hy : y ∈ (Machine.afterPass h a b).queue) :
    m ≤ (poolAt (Machine.afterPass h a b).pool y).frequency := by
  obtain hy | rfl := mem_queue_afterPass.1 hy
  · rw [hn.poolAt_queue (Picks.mem_of_mem_rest hy)]
    exact hm.trans (hp.right_le hy)
  · rw [hn.frequency_new]
    exact hm.trans (Nat.le_add_left ..)

theorem FrequencyOrder.afterPass (hs : FrequencyOrder h) (hn : Nodes input h) (hp : Picks h a b) :
    FrequencyOrder (afterPass h a b) where
  le_queue k c x hx y hy := by
    obtain ⟨-, rfl⟩ | ⟨-, hx⟩ := hn.childOf_afterPass_cases hp hx
    · rw [hn.poolAt_queue (hp.side_mem c)]
      exact hn.le_queue_afterPass hp (hp.side_le_right c) hy
    · rw [hn.poolAt_valid (hn.child_valid hx)]
      exact hn.le_queue_afterPass hp (hs.le_queue k c x hx b hp.mem_right) hy
  nephew k l r hl hr c x hx := by
    obtain ⟨hk, hl⟩ | ⟨hk, hl⟩ := hn.childOf_afterPass_cases hp hl
    · obtain ⟨-, rfl⟩ | ⟨hk', -⟩ := hn.childOf_afterPass_cases hp hr
      · subst hl
        have hold := (hn.lt_of_valid (hn.queueValid _ (hp.side_mem true))).ne
        obtain ⟨hnew, -⟩ | ⟨-, hx⟩ := hn.childOf_afterPass_cases hp hx
        · exact absurd hnew hold
        · rw [hn.poolAt_valid (hn.child_valid hx), hn.poolAt_queue (hp.side_mem false)]
          exact hs.le_queue _ c x hx _ (hp.side_mem false)
      · exact absurd hk hk'
    · obtain ⟨hk', -⟩ | ⟨-, hr⟩ := hn.childOf_afterPass_cases hp hr
      · exact absurd hk' hk
      obtain ⟨hnew, -⟩ | ⟨-, hx⟩ := hn.childOf_afterPass_cases hp hx
      · exact absurd hnew (hn.lt_of_valid (hn.child_valid hr)).ne
      · rw [hn.poolAt_valid (hn.child_valid hx), hn.poolAt_valid (hn.child_valid hl)]
        exact hs.nephew k l r hl hr c x hx

end

/-! ### The whole of phase BUILD -/

/-- What holds before and after every pass of phase BUILD. -/
structure Forest (input : List Byte) (h : HufScratch) : Prop extends Nodes input h, Parents h, FrequencyOrder h

theorem forest_start (input : List Byte) : Forest input (hufSort (hufCount input hufInit)) :=
  { nodes_start input, parents_start input, frequencyOrder_start input with }

theorem Forest.afterPass {input : List Byte} {h : HufScratch} {a b : Nat} (hf : Forest input h) (hp : Picks h a b) :
    Forest input (afterPass h a b) :=
  { hf.toNodes.afterPass hp, hf.toParents.afterPass hf.toNodes hp, hf.toFrequencyOrder.afterPass hf.toNodes hp with }

/-- Enough passes end with at most one node in the queue; the pool is never exhausted (R173). -/
theorem Forest.hufMerges {input : List Byte} {n : Nat} {h : HufScratch} (hf : Forest input h)
    (hlen : h.queue.length ≤ n + 1) :
    ∃ h', hufMerges n h = .ok h' ∧ Forest input h' ∧ h'.queue.length ≤ 1 := by
  induction n generalizing h with
  | zero => exact ⟨h, rfl, hf, hlen⟩
  | succ n ih =>
    unfold Machine.hufMerges
    by_cases hmore : 1 < h.queue.length
    · have hle := hf.innerCount_le
      obtain ⟨a, b, hp, hpass⟩ := hufMerge_eq hmore (by rw [hufInnerSlots]; omega)
      have hshorter := hp.length_queue
      rw [if_pos hmore, hpass]
      exact ih (hf.afterPass hp) (by omega)
    · exact ⟨h, if_neg hmore, hf, by omega⟩

/-- The tree phase BUILD leaves: the queue holds its root, and nothing for an empty input (R171, R174). -/
structure HuffmanTree (input : List Byte) (h : HufScratch) : Prop extends Forest input h where
  queue_eq : h.queue = h.root.toList

theorem list_eq_head?_toList {l : List Nat} (h : l.length ≤ 1) : l = l.head?.toList := by
  match l, h with
  | [], _ => rfl
  | [x], _ => rfl

theorem hufBuild_tree (input : List Byte) :
    ∃ built, hufBuild (hufSort (hufCount input hufInit)) = .ok built ∧ HuffmanTree input built := by
  obtain ⟨last, hmerges, hf, hlen⟩ := (forest_start input).hufMerges (Nat.le_succ _)
  refine ⟨{ last with root := last.queue.head? }, by rw [hufBuild, hmerges], ?_⟩
  exact { hf with queue_eq := list_eq_head?_toList hlen }

section
variable {input : List Byte} {h : HufScratch}

theorem HuffmanTree.root_of_mem_queue (ht : HuffmanTree input h) {i : Nat} (hi : i ∈ h.queue) : h.root = some i := by
  rwa [ht.queue_eq, Option.mem_toList] at hi

theorem HuffmanTree.mem_queue_of_root (ht : HuffmanTree input h) {n : Nat} (hroot : h.root = some n) : n ∈ h.queue := by
  rw [ht.queue_eq, hroot]; exact List.mem_singleton_self n

theorem HuffmanTree.root_valid (ht : HuffmanTree input h) {n : Nat} (hroot : h.root = some n) :
    (poolAt h.pool n).valid = true := ht.queueValid n (ht.mem_queue_of_root hroot)

/-- The root carries every byte of the input (R168, R174). -/
theorem HuffmanTree.root_frequency (ht : HuffmanTree input h) {n : Nat} (hroot : h.root = some n) :
    (poolAt h.pool n).frequency = input.length := by
  rw [← ht.mass, ht.queue_eq, hroot]
  simp

theorem HuffmanTree.exists_root (ht : HuffmanTree input h) (hne : input ≠ []) : ∃ n, h.root = some n := by
  cases hroot : h.root with
  | some n => exact ⟨n, rfl⟩
  | none =>
    have hmass := ht.mass
    rw [ht.queue_eq, hroot] at hmass
    exact absurd (List.eq_nil_of_length_eq_zero hmass.symm) hne

/-- One inner node less than there are distinct bytes (R173). -/
theorem HuffmanTree.innerCount_eq (ht : HuffmanTree input h) (hne : input ≠ []) :
    h.innerCount + 1 = (presentLeaves input).length := by
  obtain ⟨n, hroot⟩ := ht.exists_root hne
  rw [← ht.count, ht.queue_eq, hroot, Option.toList_some, List.length_singleton]

end

/-! ### From the tree to the tables -/

/-- The pool of `h` is that of `built` after phase ASSIGN, which does nothing without a root (R175). -/
def AssignedFrom (built h : HufScratch) : Prop :=
  (built.root = none ∧ h.pool = built.pool) ∨
    ∃ n, built.root = some n ∧ hufAssignNode maxCodeLen built.pool n HuffmanCode.empty false = .ok h.pool

theorem hufAssign_cases {h h' : HufScratch} (ha : hufAssign h = .ok h') :
    h'.root = h.root ∧ h'.innerCount = h.innerCount ∧ AssignedFrom h h' := by
  unfold hufAssign at ha
  split at ha
  · next hroot => cases ha; exact ⟨rfl, rfl, .inl ⟨hroot, rfl⟩⟩
  · next n hroot =>
    split at ha
    · next hpool => cases ha; exact ⟨rfl, rfl, .inr ⟨n, hroot, hpool⟩⟩
    · cases ha

/-- The tables fault where the code generator faults on the tree, and otherwise are what it leaves (R165). -/
theorem hufTables_eq {input : List Byte} {built : HufScratch}
    (hb : hufBuild (hufSort (hufCount input hufInit)) = .ok built) :
    hufTables input = (hufAssign built).map hufFieldWidth := by
  unfold hufTables
  simp only [hb]
  cases hufAssign built with
  | ok h => rw [Except.map]
  | error k => rw [Except.map]

/-- Finished tables are a tree with its codes given out. -/
theorem hufTables_tree {input : List Byte} {h : HufScratch} (ht : hufTables input = .ok h) :
    ∃ built, HuffmanTree input built ∧ h.root = built.root ∧ h.innerCount = built.innerCount ∧
      AssignedFrom built h := by
  obtain ⟨built, hbuild, htree⟩ := hufBuild_tree input
  rw [hufTables_eq hbuild] at ht
  cases hassign : hufAssign built with
  | error k => rw [hassign] at ht; cases ht
  | ok assigned =>
    obtain ⟨hroot, hcount, hpool⟩ := hufAssign_cases hassign
    rw [hassign] at ht
    cases ht
    exact ⟨built, htree, hroot, hcount, hpool⟩

/-- A fault of the tables is one of the code generator (R173). -/
theorem hufTables_error_tree {input : List Byte} {k : Cause} (ht : hufTables input = .error k) :
    ∃ built, HuffmanTree input built ∧ hufAssign built = .error k := by
  obtain ⟨built, hbuild, htree⟩ := hufBuild_tree input
  rw [hufTables_eq hbuild] at ht
  cases hassign : hufAssign built with
  | error k' => rw [hassign] at ht; cases ht; exact ⟨built, htree, hassign⟩
  | ok assigned => rw [hassign] at ht; cases ht

theorem CodesGiven.left_eq {bound : Nat} {pool pool' : List HufNode} (h : CodesGiven bound pool pool') (i : Nat) :
    (poolAt pool' i).left = (poolAt pool i).left := by
  obtain ⟨-, hl, -⟩ := h.sameTree i
  exact hl

theorem CodesGiven.right_eq {bound : Nat} {pool pool' : List HufNode} (h : CodesGiven bound pool pool') (i : Nat) :
    (poolAt pool' i).right = (poolAt pool i).right := by
  obtain ⟨-, -, hr⟩ := h.sameTree i
  exact hr

theorem CodesGiven.frequency_eq {bound : Nat} {pool pool' : List HufNode} (h : CodesGiven bound pool pool') (i : Nat) :
    (poolAt pool' i).frequency = (poolAt pool i).frequency := by
  obtain h | ⟨-, code, -, -, h⟩ := h i <;> rw [h]

/-- Phase ASSIGN touches nothing but codes. -/
theorem HuffmanTree.codesGiven {input : List Byte} {built h : HufScratch} (ht : HuffmanTree input built)
    (ha : AssignedFrom built h) : CodesGiven maxCodeLen built.pool h.pool := by
  obtain ⟨-, hpool⟩ | ⟨n, hn, hassign⟩ := ha
  · rw [hpool]; exact fun _ => .inl rfl
  · exact (hufAssignNode_codes ht.validChildren (ht.root_valid hn) rfl hassign).1

end Sys2Proof.Machine
end

section
/-! The obligations of the tree builder. -/

namespace Sys2Proof.Machine

/-- Settles O40: a fault of the tables is one of the code generator, and each pass of phase BUILD trades two nodes for
one. -/
theorem hufNodePoolIsNeverExhausted : Obligations.HufNodePoolIsNeverExhausted := by
  refine fun input => ⟨fun hfault => ?_, fun h ht hne => ?_⟩
  · obtain ⟨built, -, hassign⟩ := hufTables_error_tree hfault
    cases hufAssign_error hassign
  · obtain ⟨built, htree, -, hcount, -⟩ := hufTables_tree ht
    have hinner := htree.innerCount_eq hne
    have hle := presentLeaves_length_le input
    rw [hcount]
    exact ⟨hinner, by omega⟩

/-- Settles O38: the facts of the tree, which the codes do not touch. -/
theorem hufNodesCarryTheInputCounts : Obligations.HufNodesCarryTheInputCounts := by
  intro input h hne ht
  obtain ⟨built, htree, hroot, hcount, hassigned⟩ := hufTables_tree ht
  have hgiven := htree.codesGiven hassigned
  simp only [hgiven.valid_eq, hgiven.frequency_eq, hgiven.left_eq, hgiven.right_eq, hroot, hcount]
  refine ⟨fun i hi => ?_, fun j _ => ⟨fun hvalid => ?_, fun hj => ?_⟩, fun j hj => ?_, ?_⟩
  · exact ⟨by rw [htree.leaf i hi]; rfl, htree.leavesOf i hi⟩
  · have hlt := htree.lt_of_valid hvalid
    omega
  · obtain ⟨l, r, hjoined⟩ := htree.inner j hj
    rw [hjoined.node]; rfl
  · obtain ⟨l, r, hjoined⟩ := htree.inner j hj
    refine ⟨l, r, ?_, ?_, hjoined.left_lt, hjoined.right_lt, hjoined.left_valid, hjoined.right_valid,
      hjoined.before, ?_⟩ <;> rw [hjoined.node] <;> rfl
  · obtain ⟨n, hn⟩ := htree.exists_root hne
    exact ⟨n, hn, htree.root_valid hn, htree.root_frequency hn⟩

end Sys2Proof.Machine
end

section
/-! How heavy a deep Huffman tree is (42_huffman_encoder.md R176): the bound by the Fibonacci numbers. -/

namespace Sys2Proof.Machine

section
variable {input : List Byte} {h : HufScratch}

/-- A valid node carries at least one byte of the input. -/
theorem Nodes.frequency_pos (hn : Nodes input h) {i : Nat} (hi : (poolAt h.pool i).valid = true) :
    0 < (poolAt h.pool i).frequency := by
  induction i using Nat.strong_induction_on with
  | _ i ih =>
    obtain hleaf | hinner := Nat.lt_or_ge i 256
    · rw [hn.leaf i hleaf] at hi ⊢
      exact of_decide_eq_true hi
    · obtain ⟨j, rfl⟩ := Nat.exists_eq_add_of_le hinner
      obtain ⟨l, r, hjoined⟩ := hn.inner j (by have := hn.lt_of_valid hi; omega)
      rw [hjoined.node, hufJoin]
      exact Nat.add_pos_left (ih l hjoined.left_lt hjoined.left_valid) _

/-- The children of a node with a node below it. -/
theorem Nodes.joined_of_deep (hn : Nodes input h) {d i : Nat} (hdeep : HasNodeAtDepth h.pool (d + 1) i) :
    ∃ l r, Joined h.pool i l r ∧ childOf h.pool i false = some l ∧ childOf h.pool i true = some r ∧
      (HasNodeAtDepth h.pool d l ∨ HasNodeAtDepth h.pool d r) := by
  obtain ⟨hinner, l, r, hl, hr, hdeep⟩ := hdeep
  rw [← childOf_false hinner] at hl
  rw [← childOf_true hinner] at hr
  obtain ⟨-, l', r', hjoined, hside⟩ := hn.joined_of_childOf hl
  have hr' := hr.symm.trans (hjoined.childOf_eq hinner true)
  obtain rfl : l' = l := hside
  obtain rfl : r = r' := Option.some.inj hr'
  exact ⟨l', r, hjoined, hl, hr, hdeep⟩

/-- A node with a node `d` links below it carries at least `Fib(d + 2)` bytes (R176). If the deep child is the left
one, the right one is at least as heavy; if it is the right one, the left one is at least as heavy as the deep child
of that. -/
theorem fib_le_frequency (hn : Nodes input h) (hs : FrequencyOrder h) (d : Nat) {i : Nat}
    (hi : (poolAt h.pool i).valid = true) (hdeep : HasNodeAtDepth h.pool d i) :
    Nat.fib (d + 2) ≤ (poolAt h.pool i).frequency := by
  induction d using Nat.strong_induction_on generalizing i with
  | _ d ih =>
    cases d with
    | zero => exact hn.frequency_pos hi
    | succ d =>
      obtain ⟨l, r, hjoined, hl, hr, hside⟩ := hn.joined_of_deep hdeep
      have hmono : Nat.fib (d + 1) ≤ Nat.fib (d + 2) := Nat.fib_le_fib_succ
      have hbefore := hjoined.before
      have hsum : (poolAt h.pool i).frequency = (poolAt h.pool l).frequency + (poolAt h.pool r).frequency := by
        rw [hjoined.node, hufJoin]
      rw [hsum, Nat.fib_add_two (n := d + 1)]
      change Nat.fib (d + 1) + Nat.fib (d + 2) ≤ _
      obtain hdeepL | hdeepR := hside
      · have hleft := ih d d.lt_succ_self hjoined.left_valid hdeepL
        omega
      · have hright := ih d d.lt_succ_self hjoined.right_valid hdeepR
        have hleft : Nat.fib (d + 1) ≤ (poolAt h.pool l).frequency := by
          cases d with
          | zero => exact hn.frequency_pos hjoined.left_valid
          | succ d =>
            obtain ⟨x, y, hchildren, hx, hy, hside⟩ := hn.joined_of_deep hdeepR
            obtain hdeepX | hdeepY := hside
            · exact (ih d (by omega) hchildren.left_valid hdeepX).trans (hs.nephew i l r hl hr false x hx)
            · exact (ih d (by omega) hchildren.right_valid hdeepY).trans (hs.nephew i l r hl hr true y hy)
        omega

end

/-- Settles O45: a fault means a node at depth 64, so a root that carries at least `Fib(66)` bytes. -/
theorem hufTablesAreBuiltBelowFib66Bytes : Obligations.HufTablesAreBuiltBelowFib66Bytes := by
  intro input hlt
  cases htables : hufTables input with
  | ok h => exact ⟨h, rfl⟩
  | error k =>
    obtain ⟨built, htree, hassign⟩ := hufTables_error_tree htables
    obtain rfl := hufAssign_error hassign
    obtain ⟨n, hroot⟩ : ∃ n, built.root = some n := by
      cases hroot : built.root with
      | some n => exact ⟨n, rfl⟩
      | none => rw [hufAssign, hroot] at hassign; cases hassign
    have hdeep := (hufCodeLengthFaultIsADeepNode built n hroot).1 hassign
    have hfib := fib_le_frequency htree.toNodes htree.toFrequencyOrder 64 (htree.root_valid hroot) hdeep
    have hfib66 : Nat.fib 66 = 27777890035288 := by norm_num [Nat.fib_add_two]
    rw [htree.root_frequency hroot, hfib66] at hfib
    omega

end Sys2Proof.Machine
end

section
/-! The codes as branch words: a node's code spells the way from the root to it, after a first 0
(42_huffman_encoder.md R175, R177). -/

namespace Sys2Proof.Machine

/-! ### Codes bit by bit -/

/-- The bits of the word, one after the other, appended to the code. -/
def HuffmanCode.extend (c : HuffmanCode) (bits : List Bool) : HuffmanCode := bits.foldl HuffmanCode.append c

theorem HuffmanCode.extend_cons (c : HuffmanCode) (b : Bool) (bits : List Bool) :
    c.extend (b :: bits) = (c.append b).extend bits := rfl

theorem HuffmanCode.extend_concat (c : HuffmanCode) (bits : List Bool) (b : Bool) :
    c.extend (bits ++ [b]) = (c.extend bits).append b := by
  rw [extend, List.foldl_append, extend, List.foldl_cons, List.foldl_nil]

/-- The bits of the code are those of the word, bit 0 first, and no other bit is set (R36). -/
def HuffmanCode.Spells (c : HuffmanCode) (bits : List Bool) : Prop :=
  c.length = bits.length ∧ ∀ j < 64, c.bits.getLsbD j = bits.getD j false

theorem HuffmanCode.spells_empty : HuffmanCode.empty.Spells [] := ⟨rfl, fun j _ => by simp [HuffmanCode.empty]⟩

theorem HuffmanCode.append_length (c : HuffmanCode) (b : Bool) : (c.append b).length = c.length + 1 := rfl

theorem HuffmanCode.Spells.append {c : HuffmanCode} {bits : List Bool} (h : c.Spells bits) (b : Bool) :
    (c.append b).Spells (bits ++ [b]) := by
  obtain ⟨hlen, hbits⟩ := h
  refine ⟨by rw [HuffmanCode.append_length, hlen, List.length_append, List.length_singleton], fun j hj => ?_⟩
  have hbit : (c.append b).bits.getLsbD j = (bits.getD j false || (decide (j = bits.length) && b)) := by
    rw [HuffmanCode.append, BitVec.getLsbD_or, hbits j hj, getLsbD_bitWord b c.length j hj, hlen]
  rw [hbit]
  obtain hlt | rfl | hgt := Nat.lt_trichotomy j bits.length
  · rw [List.getD_append _ _ _ _ hlt, decide_eq_false hlt.ne, Bool.false_and, Bool.or_false]
  · simp
  · rw [List.getD_eq_default _ _ hgt.le, List.getD_eq_default _ _ (by simpa using hgt), decide_eq_false hgt.ne',
      Bool.false_and, Bool.or_false]

theorem HuffmanCode.Spells.extend {c : HuffmanCode} {bits : List Bool} (h : c.Spells bits) (more : List Bool) :
    (c.extend more).Spells (bits ++ more) := by
  induction more generalizing c bits with
  | nil => rwa [List.append_nil]
  | cons b more ih =>
    rw [HuffmanCode.extend_cons, List.append_cons]
    exact ih (h.append b)

/-- A code of at most 64 bits emits the word it spells (R107). -/
theorem HuffmanCode.Spells.stream_eq {c : HuffmanCode} {bits : List Bool} (h : c.Spells bits) (hle : bits.length ≤ 64) :
    c.stream = bits := by
  obtain ⟨hlen, hbits⟩ := h
  refine List.ext_getElem (by rw [HuffmanCode.stream_length, hlen]) fun j _ hj => ?_
  have hbit := hbits j (by omega)
  simpa [HuffmanCode.stream, lsbBits, BitVec.getLsbD, List.getD_eq_getElem?_getD, hj] using hbit

/-- The code of a node the word leads to from the root (R177). -/
def codeOf (p : List Bool) : HuffmanCode := HuffmanCode.empty.extend (false :: p)

theorem codeOf_concat (p : List Bool) (b : Bool) : codeOf (p ++ [b]) = (codeOf p).append b :=
  HuffmanCode.extend_concat _ (false :: p) b

theorem codeOf_spells (p : List Bool) : (codeOf p).Spells (false :: p) := HuffmanCode.spells_empty.extend (false :: p)

theorem codeOf_length (p : List Bool) : (codeOf p).length = p.length + 1 := (codeOf_spells p).1

theorem codeOf_stream {p : List Bool} (hp : p.length < 64) : (codeOf p).stream = false :: p :=
  (codeOf_spells p).stream_eq hp

/-! ### Words as ways down the tree -/

/-- The node the word `p` leads to from node `n`. -/
def descend (pool : List HufNode) (n : Nat) (p : List Bool) : Option Nat := p.foldlM (childOf pool) n

theorem descend_cons_iff {pool : List HufNode} {n i : Nat} {c : Bool} {p : List Bool} :
    descend pool n (c :: p) = some i ↔ ∃ k, childOf pool n c = some k ∧ descend pool k p = some i :=
  Option.bind_eq_some_iff

theorem descend_append (pool : List HufNode) (n : Nat) (p q : List Bool) :
    descend pool n (p ++ q) = (descend pool n p).bind fun k => descend pool k q := by
  rw [descend, List.foldlM_append]; rfl

theorem descend_concat_iff {pool : List HufNode} {n i : Nat} {c : Bool} {p : List Bool} :
    descend pool n (p ++ [c]) = some i ↔ ∃ k, descend pool n p = some k ∧ childOf pool k c = some i := by
  rw [descend_append, Option.bind_eq_some_iff]
  simp [descend]

theorem CodesGiven.descend_eq {bound : Nat} {pool pool' : List HufNode} (h : CodesGiven bound pool pool') :
    descend pool' = descend pool := by
  have hlinks : SameLinks pool pool' := fun i => (h.sameTree i).2
  funext n p
  rw [descend, descend, hlinks.childOf_eq]

/-- No way leads down from a leaf. -/
theorem descend_leaf {pool : List HufNode} {n i : Nat} {p : List Bool} (hn : n < 256) (h : descend pool n p = some i) :
    p = [] ∧ i = n := by
  cases p with
  | nil => exact ⟨rfl, (Option.some.inj h).symm⟩
  | cons c p =>
    obtain ⟨k, hk, -⟩ := descend_cons_iff.1 h
    rw [childOf_leaf hn] at hk
    cases hk

/-! ### What `assign` writes -/

/-- With `code` the code of `n`: node `i` has the code of a way down from `n`, or none leads there and it was left
alone. -/
def CodedFrom (pool pool' : List HufNode) (room n : Nat) (code : HuffmanCode) (i : Nat) : Prop :=
  (∃ p, descend pool n p = some i ∧ p.length < room ∧ (poolAt pool' i).code = code.extend p) ∨
    ((∀ p, descend pool n p ≠ some i) ∧ (poolAt pool' i).code = (poolAt pool i).code)

/-- `assign` gives every node below `n` the code of a way that leads there, and touches no other (R175). -/
theorem hufAssignNode_codedFrom {room : Nat} {pool pool' : List HufNode} {n : Nat} {parent : HuffmanCode} {bit : Bool}
    (hc : ValidChildren pool) (hn : (poolAt pool n).valid = true)
    (h : hufAssignNode room pool n parent bit = .ok pool') (i : Nat) :
    CodedFrom pool pool' room n (parent.append bit) i := by
  induction room generalizing pool pool' n parent bit with
  | zero => cases h
  | succ room ih =>
    have hcode : ∀ k, (poolAt (withCode pool n (parent.append bit)) k).code =
        if k = n then parent.append bit else (poolAt pool k).code := fun k => by
      rw [poolAt_withCode (lt_length_of_valid hn)]; split <;> rfl
    obtain hleaf | hinner := Nat.lt_or_ge n 256
    · rw [hufAssignNode_leaf hleaf] at h
      cases h
      by_cases hi : i = n
      · exact .inl ⟨[], by rw [hi]; rfl, Nat.succ_pos _, by rw [hcode, if_pos hi]; rfl⟩
      · exact .inr ⟨fun p hp => hi (descend_leaf hleaf hp).2, by rw [hcode, if_neg hi]⟩
    obtain ⟨l, r, hl, hr, hvl, hvr⟩ := hc n hinner hn
    obtain ⟨mid, hleft, hright⟩ := hufAssignNode_inner hinner hl hr h
    have hself : CodesGiven (parent.length + room + 1) pool (withCode pool n (parent.append bit)) :=
      codesGiven_withCode hn (Nat.le_add_left 1 parent.length) (by rw [HuffmanCode.append_length]; omega)
    have hlen : (parent.append bit).length + room = parent.length + room + 1 := by
      rw [HuffmanCode.append_length]; omega
    have hleftValid := (hself.valid_eq l).trans hvl
    have hmid := hself.trans (hufAssignNode_codes (hself.validChildren hc) hleftValid hlen hleft).1
    have hL := ih (hself.validChildren hc) hleftValid hleft
    have hR := ih (hmid.validChildren hc) ((hmid.valid_eq r).trans hvr) hright
    rw [CodedFrom, hself.descend_eq, hcode] at hL
    rw [CodedFrom, hmid.descend_eq] at hR
    rw [← childOf_false hinner] at hl
    rw [← childOf_true hinner] at hr
    obtain ⟨p, hp, hlt, hR⟩ | ⟨hnoR, hR⟩ := hR
    · exact .inl ⟨true :: p, descend_cons_iff.2 ⟨r, hr, hp⟩, Nat.succ_lt_succ hlt, hR⟩
    obtain ⟨p, hp, hlt, hL⟩ | ⟨hnoL, hL⟩ := hL
    · exact .inl ⟨false :: p, descend_cons_iff.2 ⟨l, hl, hp⟩, Nat.succ_lt_succ hlt, hR.trans hL⟩
    by_cases hi : i = n
    · exact .inl ⟨[], by rw [hi]; rfl, Nat.succ_pos _, by rw [hR, hL, if_pos hi]; rfl⟩
    refine .inr ⟨fun p hp => ?_, by rw [hR, hL, if_neg hi]⟩
    cases p with
    | nil => exact hi (Option.some.inj hp).symm
    | cons c p =>
      obtain ⟨k, hk, hp⟩ := descend_cons_iff.1 hp
      cases c
      · cases hl.symm.trans hk
        exact hnoL p hp
      · cases hr.symm.trans hk
        exact hnoR p hp

/-! ### Ways from the root -/

/-- The word `p` leads from the root to node `i`. -/
def Leads (h : HufScratch) (p : List Bool) (i : Nat) : Prop := ∃ n, h.root = some n ∧ descend h.pool n p = some i

theorem leads_nil {h : HufScratch} {i : Nat} : Leads h [] i ↔ h.root = some i := by
  simp [Leads, descend]

theorem leads_concat {h : HufScratch} {p : List Bool} {c : Bool} {i : Nat} :
    Leads h (p ++ [c]) i ↔ ∃ k, Leads h p k ∧ childOf h.pool k c = some i := by
  simp only [Leads, descend_concat_iff]
  exact ⟨fun ⟨n, hn, k, hk, hi⟩ => ⟨k, ⟨n, hn, hk⟩, hi⟩, fun ⟨k, ⟨n, hn, hk⟩, hi⟩ => ⟨n, hn, k, hk, hi⟩⟩

section
variable {input : List Byte} {h : HufScratch}

theorem HuffmanTree.valid_of_leads (ht : HuffmanTree input h) {p : List Bool} {i : Nat} (hi : Leads h p i) :
    (poolAt h.pool i).valid = true := by
  induction p using List.reverseRecOn with
  | nil => exact ht.root_valid (leads_nil.1 hi)
  | append_singleton p c _ =>
    obtain ⟨k, -, hchild⟩ := leads_concat.1 hi
    exact ht.child_valid hchild

/-- Every valid node is reached from the root (R174): by its parent, which is newer. -/
theorem HuffmanTree.exists_leads (ht : HuffmanTree input h) {i : Nat} (hi : (poolAt h.pool i).valid = true) :
    ∃ p, Leads h p i := by
  induction hd : 256 + h.innerCount - i using Nat.strong_induction_on generalizing i with
  | _ d ih =>
    obtain hqueue | ⟨k, c, hchild⟩ := ht.exists_parent i hi
    · exact ⟨[], leads_nil.2 (ht.root_of_mem_queue hqueue)⟩
    · obtain ⟨hlt, -, hparent⟩ := ht.child_spec hchild
      have hbound := ht.parent_lt hchild
      obtain ⟨p, hp⟩ := ih (256 + h.innerCount - k) (by omega) hparent rfl
      exact ⟨p ++ [c], leads_concat.2 ⟨k, hp, hchild⟩⟩

/-- The root is no child. -/
theorem HuffmanTree.not_child_of_root (ht : HuffmanTree input h) {i k : Nat} {c : Bool} (hroot : h.root = some i) :
    childOf h.pool k c ≠ some i := ht.orphan i (ht.mem_queue_of_root hroot) k c

/-- One way only leads from the root to a node, since it has one parent only. -/
theorem HuffmanTree.leads_unique (ht : HuffmanTree input h) {p q : List Bool} {i : Nat} (hp : Leads h p i)
    (hq : Leads h q i) : p = q := by
  induction p using List.reverseRecOn generalizing q i with
  | nil =>
    induction q using List.reverseRecOn with
    | nil => rfl
    | append_singleton q c _ =>
      obtain ⟨k, -, hchild⟩ := leads_concat.1 hq
      exact absurd hchild (ht.not_child_of_root (leads_nil.1 hp))
  | append_singleton p c ih =>
    obtain ⟨k, hpk, hchild⟩ := leads_concat.1 hp
    induction q using List.reverseRecOn with
    | nil => exact absurd hchild (ht.not_child_of_root (leads_nil.1 hq))
    | append_singleton q c' _ =>
      obtain ⟨k', hqk', hchild'⟩ := leads_concat.1 hq
      obtain ⟨rfl, rfl⟩ := ht.unique i k c k' c' hchild hchild'
      rw [ih hpk hqk']

/-- From one leaf no way leads on to another. -/
theorem eq_of_leads_prefix {p q : List Bool} {i j : Nat} (hleaf : i < 256) (hp : Leads h p i)
    (hq : Leads h q j) (hpq : p <+: q) : j = i := by
  obtain ⟨rest, rfl⟩ := hpq
  obtain ⟨n, hn, hp⟩ := hp
  obtain ⟨n', hn', hq⟩ := hq
  cases hn.symm.trans hn'
  rw [descend_append, hp, Option.bind_some] at hq
  exact (descend_leaf hleaf hq).2

end

/-! ### The codes of the finished tables -/

/-- In the finished tables `h` of the tree `built`, the code of a node spells its way from the root after a first 0,
in at most 64 bits, and a node no way leads to has the empty code (R175, R177). -/
structure CodesOf (built h : HufScratch) : Prop where
  reached : ∀ p i, Leads built p i → p.length < 64 ∧ (poolAt h.pool i).code = codeOf p
  unreached : ∀ i, (∀ p, ¬ Leads built p i) → (poolAt h.pool i).code = HuffmanCode.empty

/-- Nothing has a code before phase ASSIGN. -/
theorem Nodes.noCodes {input : List Byte} {h : HufScratch} (hn : Nodes input h) : NoCodes h.pool := by
  intro i
  obtain hleaf | hinner := Nat.lt_or_ge i 256
  · rw [hn.leaf i hleaf]; rfl
  obtain ⟨j, rfl⟩ := Nat.exists_eq_add_of_le hinner
  obtain hj | hj := Nat.lt_or_ge j h.innerCount
  · obtain ⟨l, r, hjoined⟩ := hn.inner j hj
    rw [hjoined.node]; rfl
  · rw [hn.unallocated j hj]; rfl

theorem HuffmanTree.codesOf {input : List Byte} {built h : HufScratch} (ht : HuffmanTree input built)
    (ha : AssignedFrom built h) : CodesOf built h := by
  obtain ⟨hnone, hpool⟩ | ⟨n, hroot, hassign⟩ := ha
  · exact ⟨fun _ _ ⟨_, hn, _⟩ => absurd (hnone.symm.trans hn) nofun, fun i _ => by rw [hpool]; exact ht.noCodes i⟩
  have hcoded := hufAssignNode_codedFrom ht.validChildren (ht.root_valid hroot) hassign
  constructor
  case reached =>
    intro p i hp
    obtain ⟨q, hq, hlt, hcode⟩ | ⟨hno, -⟩ := hcoded i
    · rw [ht.leads_unique hp ⟨n, hroot, hq⟩]
      exact ⟨hlt, hcode⟩
    · obtain ⟨n', hn', hp⟩ := hp
      cases hroot.symm.trans hn'
      exact absurd hp (hno p)
  case unreached =>
    intro i hno
    obtain ⟨q, hq, -⟩ | ⟨-, hcode⟩ := hcoded i
    · exact absurd ⟨n, hroot, hq⟩ (hno q)
    · rw [hcode, ht.noCodes]

section
variable {input : List Byte} {built h : HufScratch}

/-- A way leads from the root to every byte that occurs, and to no other. -/
theorem HuffmanTree.leads_byte_iff (ht : HuffmanTree input h) (v : Byte) : (∃ p, Leads h p v.toNat) ↔ v ∈ input := by
  rw [← ht.leavesOf.valid_iff v]
  exact ⟨fun ⟨_, hp⟩ => ht.valid_of_leads hp, ht.exists_leads⟩

/-- The code of a child is that of its parent and the branch bit (R175). -/
theorem HuffmanTree.code_child (ht : HuffmanTree input built) (hc : CodesOf built h) {k x : Nat} {c : Bool}
    (hx : childOf built.pool k c = some x) : (poolAt h.pool x).code = (poolAt h.pool k).code.append c := by
  obtain ⟨-, -, hparent⟩ := ht.child_spec hx
  obtain ⟨p, hp⟩ := ht.exists_leads hparent
  obtain ⟨-, hcode⟩ := hc.reached p k hp
  obtain ⟨-, hcodeChild⟩ := hc.reached _ x (leads_concat.2 ⟨k, hp, hx⟩)
  rw [hcodeChild, hcode, codeOf_concat]

theorem HuffmanCode.append_false (c : HuffmanCode) : c.append false = ⟨c.bits, c.length + 1⟩ := by
  simp [HuffmanCode.append]

theorem HuffmanCode.append_true (c : HuffmanCode) : c.append true = ⟨c.bits ||| (1#64 <<< c.length), c.length + 1⟩ := rfl

/-- With one distinct byte no inner node is made (R172). -/
theorem HuffmanTree.innerCount_eq_zero (ht : HuffmanTree input h) {v : Byte} (hv : v ∈ input)
    (hone : ∀ u ∈ input, u = v) : h.innerCount = 0 := by
  have hsub : input.dedup ⊆ [v] := fun u hu => List.mem_singleton.2 (hone u (List.mem_dedup.1 hu))
  have hle : input.dedup.length ≤ 1 := (List.subperm_of_subset input.nodup_dedup hsub).length_le
  have hcount := ht.innerCount_eq (List.ne_nil_of_mem hv)
  have hlen := (map_leafValue_presentLeaves input).length_eq
  rw [List.length_map] at hlen
  omega

end

end Sys2Proof.Machine
end

section
/-! The obligation of the codes. -/

namespace Sys2Proof.Machine

/-- Settles O41: the code of a node spells its one way from the root, and no way leads on from a leaf. -/
theorem hufCodesArePrefixFree : Obligations.HufCodesArePrefixFree := by
  intro input h ht
  obtain ⟨built, htree, hroot, hcount, hassigned⟩ := hufTables_tree ht
  have hgiven := htree.codesGiven hassigned
  have hcodes := htree.codesOf hassigned
  have hway : ∀ v ∈ input, ∃ p, Leads built p v.toNat ∧ p.length < 64 ∧ (poolAt h.pool v.toNat).code = codeOf p := by
    intro v hv
    obtain ⟨p, hp⟩ := (htree.leads_byte_iff v).2 hv
    exact ⟨p, hp, hcodes.reached p _ hp⟩
  refine ⟨fun n hn => ?_, fun j hj l r hl hr => ?_, fun v hv => ?_, fun v hv u hu hne => ?_, fun v hv => ?_,
    fun v hv hone => ?_, fun v hv u hu hne => ?_⟩
  · exact (hcodes.reached [] n (leads_nil.2 (hroot ▸ hn))).2
  · rw [hgiven.left_eq, ← childOf_false (Nat.le_add_right 256 j)] at hl
    rw [hgiven.right_eq, ← childOf_true (Nat.le_add_right 256 j)] at hr
    exact ⟨by rw [htree.code_child hcodes hl, HuffmanCode.append_false],
      by rw [htree.code_child hcodes hr, HuffmanCode.append_true]⟩
  · obtain ⟨p, -, hlt, hcode⟩ := hway v hv
    rw [hcode, codeOf_length]
    exact ⟨by omega, by omega, (codeOf_spells p).2 0 (by decide)⟩
  · obtain ⟨p, hp, hltp, hcodep⟩ := hway v hv
    obtain ⟨q, hq, hltq, hcodeq⟩ := hway u hu
    rw [hcodep, hcodeq, codeOf_stream hltp, codeOf_stream hltq, List.prefix_cons_inj]
    exact fun hpq => hne (BitVec.eq_of_toNat_eq (eq_of_leads_prefix v.isLt hp hq hpq)).symm
  · exact hcodes.unreached _ fun p hp => hv ((htree.leads_byte_iff v).1 ⟨p, hp⟩)
  · obtain ⟨p, ⟨n, hn, hp⟩, -, hcode⟩ := hway v hv
    have hleaf := htree.lt_of_valid (htree.root_valid hn)
    rw [htree.innerCount_eq_zero hv hone] at hleaf
    rw [hcode, (descend_leaf hleaf hp).1]
    rfl
  · obtain ⟨p, hp, -, hcode⟩ := hway v hv
    obtain ⟨q, hq, -, -⟩ := hway u hu
    have hne : p ≠ [] := fun hnil => hne
      (BitVec.eq_of_toNat_eq (eq_of_leads_prefix v.isLt hp hq (hnil ▸ List.nil_prefix))).symm
    have hpos := List.length_pos_of_ne_nil hne
    rw [hcode, codeOf_length]
    omega

end Sys2Proof.Machine
end

section
/-! The scratch of the LZW encoder, its codes and its stream (43_lzw_encoder.md R200 to R211): the dictionary and the
current match after any input, and that each code emitted on the way fits its width. -/

namespace Sys2Proof.Machine

/-! ### What a lookup and an insertion do to the dictionary -/

@[simp] theorem lzwWidthStep_dict (z : LzwScratch) : (lzwWidthStep z).dict = z.dict := by
  unfold lzwWidthStep; split <;> rfl

/-- A lookup fails only for a current match whose extension by the byte has no entry (R202). -/
theorem lzwFind_eq_none {z : LzwScratch} {c : Byte} (h : lzwFind z c = none) :
    ∃ w, z.w = some w ∧ ⟨w, c⟩ ∉ z.dict := by
  unfold lzwFind at h
  split at h
  · cases h
  · next w hw =>
    rw [Option.map_eq_none_iff, List.findIdx?_eq_none_iff] at h
    exact ⟨w, hw, fun hmem => by simpa using h _ hmem⟩

/-- A lookup answers a byte or the code of an entry (R202). -/
theorem lzwFind_lt {z : LzwScratch} {c : Byte} {e : Nat} (h : lzwFind z c = some e) : e < z.dict.length + 256 := by
  unfold lzwFind at h
  split at h
  · cases h
    have := c.isLt
    omega
  · obtain ⟨i, hi, rfl⟩ := Option.map_eq_some_iff.1 h
    obtain ⟨hlt, -⟩ := List.findIdx?_eq_some_iff_getElem.1 hi
    rw [lzwFirstCode]
    omega

/-- After an emission the dictionary starts again or has one more entry (R205, R208). -/
theorem lzwInsert_cases (w : Nat) (c : Byte) (z : LzwScratch) :
    ((lzwInsert w c z).dict = [] ∧ (lzwInsert w c z).nextCode = 256) ∨
      ((lzwInsert w c z).dict = z.dict ++ [⟨w, c⟩] ∧ (lzwInsert w c z).nextCode = z.nextCode + 1) := by
  unfold lzwInsert
  split
  · exact .inl ⟨rfl, rfl⟩
  · exact .inr ⟨lzwWidthStep_dict _, lzwWidthStep_nextCode _⟩

/-! ### The invariants of the scratch -/

/-- The dictionary part of the invariants (R203, R210): the entries are those from 256 up to the next code, each extends
an older code, and none is defined twice. -/
structure LzwDictInv (z : LzwScratch) : Prop where
  length_add : z.dict.length + 256 = z.nextCode
  prefixCode_lt : ∀ (i : Nat) (e : LzwEntry), z.dict[i]? = some e → e.prefixCode < 256 + i
  nodup : z.dict.Nodup

/-- Which entry matches does not touch the dictionary. -/
theorem LzwDictInv.withMatch {z : LzwScratch} (h : LzwDictInv z) (w : Option Nat) : LzwDictInv { z with w := w } :=
  ⟨h.length_add, h.prefixCode_lt, h.nodup⟩

theorem LzwDictInv.lzwInsert {z : LzwScratch} (h : LzwDictInv z) {w : Nat} {c : Byte} (hw : w < z.nextCode)
    (hnew : ⟨w, c⟩ ∉ z.dict) : LzwDictInv (lzwInsert w c z) := by
  have hlen := h.length_add
  obtain ⟨hdict, hcode⟩ | ⟨hdict, hcode⟩ := lzwInsert_cases w c z
  · exact ⟨by rw [hdict, hcode]; rfl, by rw [hdict]; nofun, by rw [hdict]; exact .nil⟩
  constructor
  case length_add => rw [hdict, hcode, List.length_append, List.length_singleton]; omega
  case prefixCode_lt =>
    intro i e he
    rw [hdict, List.getElem?_append] at he
    split at he
    · exact h.prefixCode_lt i e he
    · obtain ⟨hi, rfl⟩ := List.getElem?_eq_some_iff.1 he
      simp only [List.getElem_singleton]
      omega
  case nodup =>
    rw [hdict, ← List.concat_eq_append]
    exact h.nodup.concat hnew

/-- The invariants of R210: the next code and the width are those of some number of emissions, the dictionary is sound,
and the current match, if there is one, is a code of it. -/
structure LzwInv (z : LzwScratch) : Prop where
  onSchedule : ∃ k, OnSchedule k z
  dictInv : LzwDictInv z
  current_lt : ∀ w, z.w = some w → w < z.nextCode

theorem lzwInv_lzwInit : LzwInv lzwInit := ⟨⟨0, onSchedule_lzwInit⟩, ⟨rfl, nofun, .nil⟩, nofun⟩

section
variable {z : LzwScratch}

theorem LzwInv.nextCode_ge (h : LzwInv z) : 256 ≤ z.nextCode := by
  obtain ⟨k, hcode, -⟩ := h.onSchedule
  rw [hcode, scheduledCode]
  omega

theorem LzwInv.nextCode_le (h : LzwInv z) : z.nextCode ≤ 4096 := by
  obtain ⟨k, hcode, -⟩ := h.onSchedule
  rw [hcode, scheduledCode]
  omega

theorem LzwInv.width_eq (h : LzwInv z) : z.width = min 12 (Nat.log2 z.nextCode + 1) := by
  obtain ⟨k, hcode, hwidth⟩ := h.onSchedule
  rw [hwidth, hcode, scheduledWidth]

theorem LzwInv.width_bounds (h : LzwInv z) : 9 ≤ z.width ∧ z.width ≤ 12 := by
  have hge := h.nextCode_ge
  have hlog : 8 ≤ Nat.log2 z.nextCode := (Nat.le_log2 (by omega)).2 hge
  have hwidth := h.width_eq
  omega

/-- Every code defined so far fits in the current width (R211). -/
theorem LzwInv.nextCode_le_pow (h : LzwInv z) : z.nextCode ≤ 2 ^ z.width := by
  rw [h.width_eq]
  obtain hw | hw := Nat.le_total 12 (Nat.log2 z.nextCode + 1)
  · rw [Nat.min_eq_left hw]
    exact h.nextCode_le
  · rw [Nat.min_eq_right hw]
    exact Nat.lt_log2_self.le

/-! ### One pass and the loop -/

/-- The code fits its width, which is one of 9 to 12 (R9, R211). -/
def LzwEmission.Fits (e : LzwEmission) : Prop := e.code < 2 ^ e.width ∧ 9 ≤ e.width ∧ e.width ≤ 12

theorem LzwInv.lzwEmit_fits (h : LzwInv z) : ∀ e ∈ lzwEmit z, e.Fits := by
  unfold lzwEmit
  split
  · next w hw =>
    intro e he
    obtain rfl := List.mem_singleton.1 he
    exact ⟨(h.current_lt w hw).trans_le h.nextCode_le_pow, h.width_bounds⟩
  · nofun

/-- A pass of the loop keeps the invariants, and what it emits fits. -/
theorem LzwInv.lzwByte (h : LzwInv z) (c : Byte) :
    (∀ e ∈ (lzwByte c z).1, e.Fits) ∧ LzwInv (lzwByte c z).2 := by
  obtain ⟨k, hk⟩ := h.onSchedule
  obtain ⟨-, hschedule⟩ := lzwByte_scheduled hk c
  cases hfind : lzwFind z c with
  | some e =>
    simp only [Machine.lzwByte, hfind] at hschedule ⊢
    refine ⟨nofun, ⟨_, hschedule⟩, h.dictInv.withMatch _, fun w hw => ?_⟩
    cases hw
    exact (lzwFind_lt hfind).trans_eq h.dictInv.length_add
  | none =>
    obtain ⟨w, hw, hnew⟩ := lzwFind_eq_none hfind
    simp only [Machine.lzwByte, hfind, hw, Option.getD_some] at hschedule ⊢
    have hdict := h.dictInv.lzwInsert (h.current_lt w hw) hnew
    refine ⟨h.lzwEmit_fits, ⟨_, hschedule⟩, hdict.withMatch _, fun v hv => ?_⟩
    cases hv
    exact c.isLt.trans_le ((Nat.le_add_left 256 _).trans_eq hdict.length_add)

theorem LzwInv.lzwBytes (h : LzwInv z) (input : List Byte) :
    (∀ e ∈ (lzwBytes input z).1, e.Fits) ∧ LzwInv (lzwBytes input z).2 := by
  induction input generalizing z with
  | nil => exact ⟨nofun, h⟩
  | cons c rest ih =>
    obtain ⟨hfirst, hbetween⟩ := h.lzwByte c
    obtain ⟨hlater, hend⟩ := ih hbetween
    exact ⟨fun e he => (List.mem_append.1 he).elim (hfirst e) (hlater e), hend⟩

end

/-- Every code of a stream fits its width. -/
theorem lzwEmissions_fits (input : List Byte) : ∀ e ∈ lzwEmissions input, e.Fits := by
  obtain ⟨hloop, hend⟩ := lzwInv_lzwInit.lzwBytes input
  exact fun e he => (List.mem_append.1 he).elim (hloop e) (hend.lzwEmit_fits e)

/-! ### The current match and the number of codes -/

/-- A code is pending exactly while there is a current match. -/
theorem lzwEmit_length (z : LzwScratch) : (lzwEmit z).length = if z.w = none then 0 else 1 := by
  unfold lzwEmit
  split <;> simp [*]

theorem lzwByte_w_ne_none (c : Byte) (z : LzwScratch) : (lzwByte c z).2.w ≠ none := by
  unfold lzwByte
  split <;> exact Option.some_ne_none _

theorem lzwBytes_w_eq_none_iff (input : List Byte) (z : LzwScratch) :
    (lzwBytes input z).2.w = none ↔ z.w = none ∧ input = [] := by
  induction input generalizing z with
  | nil => exact ⟨fun h => ⟨h, rfl⟩, fun h => h.1⟩
  | cons c rest ih =>
    exact ⟨fun h => absurd ((ih _).1 h).1 (lzwByte_w_ne_none c z), fun h => absurd h.2 (List.cons_ne_nil c rest)⟩

/-- A pass emits the pending code or nothing, and leaves one pending. -/
theorem lzwByte_length_le (c : Byte) (z : LzwScratch) :
    (lzwByte c z).1.length + (lzwEmit (lzwByte c z).2).length ≤ 1 + (lzwEmit z).length := by
  rw [lzwEmit_length (lzwByte c z).2, if_neg (lzwByte_w_ne_none c z)]
  unfold lzwByte
  split
  · exact Nat.le_add_right 1 _
  · exact (Nat.add_comm _ 1).le

theorem lzwBytes_length_le (input : List Byte) (z : LzwScratch) :
    (lzwBytes input z).1.length + (lzwEmit (lzwBytes input z).2).length ≤ input.length + (lzwEmit z).length := by
  induction input generalizing z with
  | nil => exact le_rfl
  | cons c rest ih =>
    have hfirst := lzwByte_length_le c z
    have hlater := ih (lzwByte c z).2
    simp only [lzwBytes, List.length_append, List.length_cons]
    omega

/-- At most one code per input byte (R211). -/
theorem lzwEmissions_length_le (input : List Byte) : (lzwEmissions input).length ≤ input.length := by
  rw [lzwEmissions, List.length_append]
  exact lzwBytes_length_le input lzwInit

/-- The final match is emitted (R209). -/
theorem lzwEmissions_length_pos {input : List Byte} (h : input ≠ []) : 1 ≤ (lzwEmissions input).length := by
  have hpending : (lzwBytes input lzwInit).2.w ≠ none := fun hw => h ((lzwBytes_w_eq_none_iff _ _).1 hw).2
  rw [lzwEmissions, List.length_append, lzwEmit_length, if_neg hpending]
  exact Nat.le_add_left 1 _

/-- At most 12 bits per input byte (R211). -/
theorem lzwStream_length_le (input : List Byte) : (lzwStream input).length ≤ 12 * input.length := by
  have hcode : ∀ n ∈ (lzwEmissions input).map (fun e => e.stream.length), n ≤ 12 := by
    intro n hn
    obtain ⟨e, he, rfl⟩ := List.mem_map.1 hn
    obtain ⟨-, -, hwidth⟩ := lzwEmissions_fits input e he
    rwa [LzwEmission.stream, lsbBits_length]
  calc (lzwStream input).length
      = ((lzwEmissions input).map (fun e => e.stream.length)).sum := List.length_flatMap
    _ ≤ (lzwEmissions input).length * 12 := by simpa using List.sum_le_card_nsmul _ 12 hcode
    _ ≤ 12 * input.length := by have := lzwEmissions_length_le input; omega

/-! ### The obligations -/

/-- Settles O46: `init()` meets `LzwInv`, the loop keeps it, and each pass leaves a current match. -/
theorem lzwScratchInvariants : Obligations.LzwScratchInvariants := by
  rintro input z rfl
  obtain ⟨-, hend⟩ := lzwInv_lzwInit.lzwBytes input
  have hnil : (lzwBytes input lzwInit).2.w = none ↔ input = [] :=
    (lzwBytes_w_eq_none_iff input lzwInit).trans (and_iff_right rfl)
  exact ⟨hend.nextCode_ge, hend.nextCode_le, hend.width_eq, hend.dictInv.length_add, hend.current_lt, hnil,
    hend.dictInv.prefixCode_lt, hend.dictInv.nodup⟩

/-- Settles O48: a current match is below the next code, which is at most `2 ^ width`. -/
theorem lzwCodesFitTheirWidths : Obligations.LzwCodesFitTheirWidths := fun input hne =>
  ⟨lzwEmissions_length_pos hne, lzwEmissions_length_le input, lzwEmissions_fits input⟩

/-- Settles O32: with room the command appends its whole stream, which `lzwStream_length_le` bounds. -/
theorem lzwEncWritesItsStream : Obligations.LzwEncWritesItsStream := by
  intro s hs hroom
  have hdone := appendAndEnd_completes hs.canAppend hroom
  refine ⟨_, hs.exec_lzwEnc, hdone, ?_⟩
  rw [hdone.bitsWritten, hs.empty, Nat.zero_add, ← input_length]
  exact lzwStream_length_le s.input

end Sys2Proof.Machine
end

section
/-! The Rice parameter is never 8 (44_rice_encoder.md R234, R241): at `k = 8` no byte has a shorter code than at `k = 7`,
so a smallest minimiser stops at 7. -/

namespace Sys2Proof.Machine

/-- The quotient of a byte at `k = 7` is 0 or 1, so its code has at most 1 + 1 + 7 bits. -/
theorem riceCost_seven_le (v : Byte) : riceCost 7 v ≤ 9 := by
  have hv : v.toNat < 256 := v.isLt
  rw [riceCost]
  omega

theorem riceTotal_seven_le (input : List Byte) : riceTotal input 7 ≤ riceTotal input riceKMax :=
  calc riceTotal input 7
      ≤ (input.map (riceCost 7)).length * 9 :=
        List.sum_le_card_nsmul _ 9 (List.forall_mem_map.2 fun v _ => riceCost_seven_le v)
    _ = riceTotal input riceKMax := by rw [riceTotal_riceKMax, List.length_map, Nat.mul_comm]

theorem riceSearch_k_le_seven (input : List Byte) : (riceSearch input).k ≤ 7 := by
  obtain ⟨hk, -, hbefore⟩ := riceSearch_smallestMinimiser input
  have hne : (riceSearch input).k ≠ riceKMax := by
    intro heq
    rw [heq] at hbefore
    exact (hbefore 7 (by decide)).not_ge (riceTotal_seven_le input)
  exact Nat.lt_succ_iff.1 (lt_of_le_of_ne hk hne)

/-- Settles O49: `riceSearch_smallestMinimiser`, whose totals are the statement's sums, and `riceSearch_k_le_seven`. -/
theorem riceParameterIsTheSmallestMinimiser : Obligations.RiceParameterIsTheSmallestMinimiser := by
  intro input
  obtain ⟨-, hleast, hbefore⟩ := riceSearch_smallestMinimiser input
  exact ⟨hleast, hbefore, riceSearch_k_le_seven input⟩

end Sys2Proof.Machine
end

section
/-! Reading a stream back (41_bitstream_reader.md R152 to R156, 45_reference_decoders.md R250): the bits a reader
still has to read, and what the primitives and the parts of the reference decoders make of them. -/

namespace Sys2Proof.Machine

/-! ### The bits left in a slice -/

/-- The reader's slice has `total` bits in all, and the ones not yet read are `bits`. -/
structure BitsLeft (m : Memory) (total : Nat) (bits : List Bool) (r : Reader) : Prop where
  size : r.sizeInBits = total
  position : r.bitsRead + bits.length = total
  bit : ∀ i < bits.length, r.bitOf m (r.bitsRead + i) = bits.getD i false

section
variable {m : Memory} {total : Nat} {bits rest : List Bool} {r : Reader}

/-- At the end of the slice every bit has been read. -/
theorem BitsLeft.bitsRead_eq (h : BitsLeft m total [] r) : r.bitsRead = total := h.position

theorem BitsLeft.append (h : BitsLeft m total (bits ++ rest) r) :
    BitsLeft m total rest { r with bitsRead := r.bitsRead + bits.length } := by
  have hposition := h.position
  rw [List.length_append] at hposition
  refine ⟨h.size, by simp only; omega, fun i hi => ?_⟩
  have hbit := h.bit (bits.length + i) (by rw [List.length_append]; omega)
  rw [List.getD_append_right _ _ _ _ (Nat.le_add_right _ _), Nat.add_sub_cancel_left] at hbit
  rwa [bitOf_setBitsRead, Nat.add_assoc]

/-- With a bit left, `read_bit` returns it (R152). -/
theorem BitsLeft.readBit {b : Bool} (h : BitsLeft m total (b :: rest) r) :
    ∃ r', r.readBit m = some (b, r') ∧ BitsLeft m total rest r' := by
  have hposition := h.position
  rw [List.length_cons] at hposition
  have hfirst : r.bitOf m r.bitsRead = b := h.bit 0 (Nat.succ_pos _)
  refine ⟨_, ?_, BitsLeft.append (bits := [b]) h⟩
  rw [readBit_some (by rw [h.size]; omega), hfirst]
  rfl

/-- With none left, it returns nothing (R152). -/
theorem BitsLeft.readBit_nil (h : BitsLeft m total [] r) : r.readBit m = none :=
  readBit_none (by rw [h.size, h.bitsRead_eq])

/-- With enough bits left, `read_bits` returns the next ones, the first in bit 0 (R154). -/
theorem BitsLeft.refReadBits (h : BitsLeft m total (bits ++ rest) r) (hle : bits.length ≤ 64) :
    ∃ v r', Machine.refReadBits m bits.length r = .ok v r' ∧ (∀ j < 64, v.getLsbD j = bits.getD j false) ∧
      BitsLeft m total rest r' := by
  have hposition := h.position
  rw [List.length_append] at hposition
  obtain ⟨v, hread, hbits⟩ := readBits_some (m := m) (r := r) (n := bits.length) (by rw [h.size]; omega) hle
  refine ⟨v, _, by rw [Machine.refReadBits, hread], fun j hj => ?_, h.append⟩
  rw [hbits j hj]
  obtain hlt | hge := Nat.lt_or_ge j bits.length
  · rw [h.bit j (by rw [List.length_append]; omega), List.getD_append _ _ _ _ hlt, decide_eq_true hlt, Bool.true_and]
  · rw [List.getD_eq_default _ _ hge, decide_eq_false (Nat.not_lt.2 hge), Bool.false_and]

/-- A number appended in `n` bits that hold it is read back (R133, R154). -/
theorem BitsLeft.refReadBits_number {x n : Nat} (h : BitsLeft m total (lsbBits x n ++ rest) r) (hn : n ≤ 64)
    (hx : x < 2 ^ n) : ∃ v r', Machine.refReadBits m n r = .ok v r' ∧ v.toNat = x ∧ BitsLeft m total rest r' := by
  obtain ⟨v, r', hread, hbits, hleft⟩ := h.refReadBits (by rwa [lsbBits_length])
  rw [lsbBits_length] at hread
  refine ⟨v, r', hread, Nat.eq_of_testBit_eq fun j => ?_, hleft⟩
  have hbit : ∀ j, n ≤ j → x.testBit j = false := fun j hj =>
    Nat.testBit_lt_two_pow (hx.trans_le (Nat.pow_le_pow_right (by decide) hj))
  obtain hj | hj := Nat.lt_or_ge j 64
  · rw [← BitVec.getLsbD, hbits j hj, lsbBits_getD]
    obtain hlt | hge := Nat.lt_or_ge j n
    · rw [decide_eq_true hlt, Bool.true_and]
    · rw [decide_eq_false (Nat.not_lt.2 hge), Bool.false_and, hbit j hge]
  · rw [hbit j (hn.trans hj), ← BitVec.getLsbD, BitVec.getLsbD_of_ge _ _ hj]

end

/-! ### The reader of a decoder -/

/-- The bytes are enough for the bits and hold them from stream position 0 on (R65, R67). -/
def HoldsBits (bytes : List Byte) (bits : List Bool) : Prop :=
  ceil8 bits.length ≤ bytes.length ∧ ∀ p < bits.length, bitAt bytes p = bits.getD p false

/-- A reader opened on the bytes has the whole stream left (R250). -/
theorem HoldsBits.bitsLeft {bytes : List Byte} {bits : List Bool} (h : HoldsBits bytes bits) :
    BitsLeft (Memory.ofBytes 0 bytes) bits.length bits ⟨0, bits.length, 0⟩ := by
  obtain ⟨-, hbits⟩ := h
  refine ⟨rfl, Nat.zero_add _, fun i hi => ?_⟩
  rw [Nat.zero_add, bitOf_eq_bitAt (bytes := bytes) (fun j _ => read_ofBytes 0 bytes j) hi]
  exact hbits i hi

/-- With a capacity and a stream that is not empty, no argument is refused (R251). -/
theorem HoldsBits.refDecode_eq {bytes : List Byte} {bits : List Bool} (h : HoldsBits bytes bits) (hne : bits ≠ [])
    {cap : Nat} (hcap : 1 ≤ cap) (body : Memory → Reader → RefResult) :
    refDecode bytes bits.length cap body = body (Memory.ofBytes 0 bytes) ⟨0, bits.length, 0⟩ := by
  obtain ⟨hlen, -⟩ := h
  have hpos := List.length_pos_of_ne_nil hne
  rw [ceil8_le_iff] at hlen
  have hbytes : bytes ≠ [] := List.ne_nil_of_length_pos (by omega)
  refine if_neg ?_
  rintro (hzero | hnil | hshort)
  · omega
  · exact hbytes hnil
  · rw [← Nat.not_le, ceil8_le_iff] at hshort
    exact hshort hlen

/-! ### The stream an encoder command leaves -/

/-- The core has completed an encoder command, and the meaningful bytes of its writer hold `stream` (R65, R305). -/
structure HoldsStream (t : State) (stream : List Bool) : Prop where
  status : t.status = completedStatus false
  count : t.w.bitsWritten = stream.length
  holds : HoldsBits (t.w.wbuf.take (ceil8 t.w.bitsWritten)) stream

/-- What follows the bits of an empty writer is its whole stream (R33 (c)). -/
theorem Extends.holdsBits {c : Config} {w w' : Writer} {stream : List Bool} (h : Extends w w' stream)
    (hempty : w.bitsWritten = 0) (hready : w'.Ready c) :
    w'.bitsWritten = stream.length ∧ HoldsBits (w'.wbuf.take (ceil8 w'.bitsWritten)) stream := by
  obtain ⟨hcount, hbits⟩ := h
  obtain ⟨⟨hlen, hle, -⟩, -⟩ := hready
  rw [hempty, Nat.zero_add] at hcount
  refine ⟨hcount, ?_, fun p hp => ?_⟩
  · rw [← hcount, List.length_take, hlen]
    exact le_min le_rfl ((ceil8_le_iff _ _).2 hle)
  · have hlt : p < 8 * ceil8 w'.bitsWritten := by rw [hcount, ceil8]; omega
    rw [bitAt_take hlt, hbits p, hempty, if_neg (Nat.not_lt_zero p), Nat.sub_zero]

theorem CanEncode.holdsStream {s : State} {stream : List Bool} (h : CanEncode s) (hr : RoomFor s stream.length) :
    HoldsStream (s.appendAndEnd stream) stream := by
  obtain ⟨w, hext, hready, hend⟩ := appendAndEnd_room h.canAppend.ready hr
  obtain ⟨hcount, hholds⟩ := hext.holdsBits h.empty hready
  rw [hend]
  exact ⟨Status.completed_of_unfaulted h.unfaulted false, hcount, hholds⟩

theorem CanEncode.input_pos {s : State} (h : CanEncode s) : 1 ≤ s.input.length := by
  obtain ⟨-, -, -, hpos, -⟩ := h
  rwa [input_length]

/-! ### The round trip from reset (R275) -/

theorem length_of_goodInput {s : State} {base size : Word64} {input : List Byte} (h : GoodInput s base size)
    (hinput : Memory.bytes s.mem base.toNat size.toNat = input) : input.length = size.toNat ∧ 1 ≤ input.length := by
  obtain ⟨-, hpos, -⟩ := h
  rw [← hinput, bytes_length]
  exact ⟨rfl, hpos⟩

/-- A machine just reset, a command of the host under way and its operands written, accepts an encoder command on a good
input. -/
theorem canEncode_afterReset {s : State} {base size : Word64} (h : GoodInput s base size) :
    CanEncode ({ s.resetCore with arg0 := base, arg1 := size } : State).underway := by
  obtain ⟨hlegal, hpos, hsize, hend⟩ := h
  obtain ⟨hbuffer, hlt, hone, hmax⟩ := fresh_ready hlegal
  exact ⟨⟨hlegal, ⟨hbuffer, hone, hmax, fun _ => hlt⟩, rfl⟩, ⟨rfl, rfl, rfl⟩, rfl, hpos, hsize, hend⟩

/-- A codec whose command appends `stream`, which its decoder turns into the input, round-trips from reset. -/
theorem roundTrip_of_decode {k : Codec} {s : State} {base size : Word64} {input : List Byte} {stream : List Bool}
    (hgood : GoodInput s base size) (hinput : Memory.bytes s.mem base.toNat size.toNat = input)
    (hexec : ∀ s', CanEncode s' → s'.input = input → exec k.command s' = .next (s'.appendAndEnd stream))
    (hroom : RoomFor s.resetCore stream.length)
    (hdecode : ∀ bytes, HoldsBits bytes stream → k.decode bytes stream.length size.toNat = .ok input) :
    RoundTrip k s base size := by
  have hcan := canEncode_afterReset hgood
  have hstream := hcan.holdsStream hroom
  have hlog := appendAndEnd_released ({ s.resetCore with arg0 := base, arg1 := size } : State).underway stream
  have hrun := (run_encodeLine (s := s.resetCore) rfl k base size).trans (hexec _ hcan hinput)
  generalize ({ s.resetCore with arg0 := base, arg1 := size } : State).underway.appendAndEnd stream = t at *
  have hidle : t.status.busy = false := by rw [hstream.status]; rfl
  have haccepted : t.accepted := by rw [State.accepted, hstream.status]; exact ⟨rfl, rfl⟩
  refine ⟨t, t.underway.releaseEnd, ⟨t.w.wbuf, t.w.bytesAllocated, t.w.bitsWritten⟩, hrun, haccepted, ?_,
    ⟨haccepted.1, rfl⟩, congrArg (· ++ _) hlog, ?_⟩
  · rw [run_asmBswRel hidle, exec_bswRel_of_unfaulted (s := t.underway) haccepted.1]
  · rw [hinput, Release.stream, hstream.count]
    exact hdecode _ (hstream.count ▸ hstream.holds)

end Sys2Proof.Machine
end

section
/-! The reference Rice decoder on a Rice stream (45_reference_decoders.md R270 to R274). -/

namespace Sys2Proof.Machine

/-! ### One value -/

/-- The most significant bit of a remainder comes first (R69). -/
theorem msbBits_succ (v k : Nat) : msbBits v (k + 1) = v.testBit k :: msbBits v k := by
  simp [msbBits, lsbBits, List.range_succ]

/-- The remainder gains bit `k` (R272). -/
theorem or_testBit_shiftLeft_or_mod (acc v k : Nat) :
    (acc ||| (v.testBit k).toNat <<< k) ||| v % 2 ^ k = acc ||| v % 2 ^ (k + 1) := by
  rw [Nat.or_assoc, Nat.shiftLeft_eq, Nat.mul_comm, ← Nat.two_pow_add_eq_or_of_lt (Nat.mod_lt v (Nat.two_pow_pos k)),
    Nat.toNat_testBit, Nat.add_comm, ← Nat.mod_mul, ← Nat.pow_succ]

theorem shiftLeft_div_or_mod (v k : Nat) : (v / 2 ^ k) <<< k ||| v % 2 ^ k = v := by
  rw [← Nat.shiftLeft_add_eq_or_of_lt (Nat.mod_lt v (Nat.two_pow_pos k)), Nat.shiftLeft_eq, Nat.div_add_mod']

section
variable {m : Memory} {total k : Nat} {rest : List Bool} {r : Reader}

/-- Fewer ones than are allowed, then a zero, are the quotient (R272). -/
theorem BitsLeft.refRiceUnary {left n : Nat} (hn : n < left) (q : Nat)
    (h : BitsLeft m total (List.replicate n true ++ false :: rest) r) :
    ∃ r', Machine.refRiceUnary m left q r = .ok (q + n) r' ∧ BitsLeft m total rest r' := by
  induction left generalizing n q r with
  | zero => exact absurd hn (Nat.not_lt_zero n)
  | succ left ih =>
    cases n with
    | zero =>
      obtain ⟨r', hread, hleft⟩ := h.readBit
      exact ⟨r', by rw [Machine.refRiceUnary, hread]; rfl, hleft⟩
    | succ n =>
      rw [List.replicate_succ, List.cons_append] at h
      obtain ⟨r', hread, hleft⟩ := h.readBit
      obtain ⟨r'', hunary, hend⟩ := ih (Nat.lt_of_succ_lt_succ hn) (q + 1) hleft
      refine ⟨r'', ?_, hend⟩
      rw [Machine.refRiceUnary, hread, Nat.add_comm n 1, ← Nat.add_assoc]
      exact hunary

/-- The remainder is put together from its most significant bit down (R272). -/
theorem BitsLeft.refRiceRemainder {v : Nat} (acc : Nat) (h : BitsLeft m total (msbBits v k ++ rest) r) :
    ∃ r', Machine.refRiceRemainder m k acc r = .ok (acc ||| v % 2 ^ k) r' ∧ BitsLeft m total rest r' := by
  induction k generalizing acc r with
  | zero => exact ⟨r, by rw [Nat.pow_zero, Nat.mod_one, Nat.or_zero]; rfl, h⟩
  | succ k ih =>
    rw [msbBits_succ, List.cons_append] at h
    obtain ⟨r', hread, hleft⟩ := h.readBit
    obtain ⟨r'', hremainder, hend⟩ := ih (acc ||| (v.testBit k).toNat <<< k) hleft
    refine ⟨r'', ?_, hend⟩
    rw [Machine.refRiceRemainder, hread, ← or_testBit_shiftLeft_or_mod]
    exact hremainder

/-- The code of a byte decodes to the byte (R236, R272). -/
theorem BitsLeft.refRiceByte {v : Byte} (h : BitsLeft m total (riceCode k v ++ rest) r) :
    ∃ r', Machine.refRiceByte m k r = .ok v r' ∧ BitsLeft m total rest r' := by
  have hv : v.toNat < 256 := v.isLt
  rw [riceCode, List.append_assoc, List.append_assoc, List.singleton_append] at h
  obtain ⟨r1, hunary, h1⟩ := h.refRiceUnary ((Nat.div_le_self _ _).trans_lt hv) 0
  obtain ⟨r2, hremainder, h2⟩ := h1.refRiceRemainder 0
  refine ⟨r2, ?_, h2⟩
  rw [Machine.refRiceByte, hunary, RefPart.andThen, hremainder, RefPart.andThen, Nat.zero_add, Nat.zero_or, Nat.mod_mod,
    shiftLeft_div_or_mod, if_neg (by omega), BitVec.ofNat_toNat, BitVec.setWidth_eq]

/-! ### The stream -/

/-- As many values as `xs` has are decoded to `xs` (R272, R273). -/
theorem BitsLeft.refRiceLoop {xs : List Byte} (out : List Byte)
    (h : BitsLeft m total (xs.flatMap (riceCode k) ++ rest) r) :
    ∃ r', Machine.refRiceLoop m k xs.length out r = ⟨.ok (out ++ xs), r'.bitsRead⟩ ∧ BitsLeft m total rest r' := by
  induction xs generalizing out r with
  | nil => exact ⟨r, by rw [List.append_nil]; rfl, h⟩
  | cons v xs ih =>
    rw [List.flatMap_cons, List.append_assoc] at h
    obtain ⟨r1, hbyte, h1⟩ := h.refRiceByte
    obtain ⟨r2, hloop, h2⟩ := ih (out ++ [v]) h1
    refine ⟨r2, ?_, h2⟩
    rw [List.length_cons, Machine.refRiceLoop, hbyte, List.append_cons]
    exact hloop

end

/-- The decoder gives back the first bytes of the input, as many as its capacity, and leaves the bits of the others
(R273, R274). -/
theorem riceDecode_append {c : RiceScratch} (hk : c.k ≤ riceKMax) {bytes input xs ys : List Byte}
    (h : HoldsBits bytes (riceStream c input)) (hsplit : xs ++ ys = input) (hpos : 1 ≤ xs.length) :
    ∃ n, riceDecode bytes (riceStream c input).length xs.length = ⟨.ok xs, n⟩ ∧
      n + (ys.flatMap (riceCode c.k)).length = (riceStream c input).length := by
  have hne : riceStream c input ≠ [] := by simp [riceStream, lsbBits, riceKFieldBits]
  have hleft := h.bitsLeft
  rw [riceDecode, h.refDecode_eq hne hpos]
  generalize (riceStream c input).length = total at hleft ⊢
  rw [riceStream, ← hsplit, List.flatMap_append] at hleft
  obtain ⟨k, r1, hread, hvalue, h1⟩ :=
    hleft.refReadBits_number (by decide) (hk.trans_lt (by decide : riceKMax < 2 ^ riceKFieldBits))
  rw [← hvalue] at h1 ⊢
  obtain ⟨r2, hloop, h2⟩ := h1.refRiceLoop []
  refine ⟨r2.bitsRead, ?_, h2.position⟩
  rw [hread]
  exact (if_neg (Nat.not_lt.2 (hvalue ▸ hk))).trans hloop

section
variable {bytes input : List Byte}

/-- A Rice stream decodes to its input with every bit consumed (R274). -/
theorem riceDecode_all (h : HoldsBits bytes (riceStream (riceSearch input) input)) (hpos : 1 ≤ input.length) :
    riceDecode bytes (riceStream (riceSearch input) input).length input.length =
      ⟨.ok input, (riceStream (riceSearch input) input).length⟩ := by
  obtain ⟨hk, -⟩ := riceSearch_smallestMinimiser input
  obtain ⟨n, hdecode, hn⟩ := riceDecode_append hk h (List.append_nil input) hpos
  rw [hdecode, ← hn]
  rfl

/-- With a smaller capacity it decodes to the first bytes of its input (R274). -/
theorem riceDecode_take {cap : Nat} (h : HoldsBits bytes (riceStream (riceSearch input) input)) (hpos : 1 ≤ cap)
    (hcap : cap < input.length) :
    (riceDecode bytes (riceStream (riceSearch input) input).length cap).outcome = .ok (input.take cap) := by
  obtain ⟨hk, -⟩ := riceSearch_smallestMinimiser input
  have hlen : (input.take cap).length = cap := List.length_take_of_le hcap.le
  obtain ⟨n, hdecode, -⟩ := riceDecode_append hk h (List.take_append_drop cap input) (hlen.symm ▸ hpos)
  rw [hlen] at hdecode
  rw [hdecode]

end

end Sys2Proof.Machine
end

section
/-! The obligation of the Rice round trip. -/

namespace Sys2Proof.Machine

/-- Settles O50: the command leaves the Rice stream, whose codes `refRiceByte` reads back one by one. -/
theorem riceRoundTrip : Obligations.RiceRoundTrip := by
  refine ⟨fun s hs hroom => ?_, fun s base size input hgood hinput hroom => ?_⟩
  · rw [← riceStream_length] at hroom
    obtain ⟨hstatus, hcount, hholds⟩ := hs.holdsStream hroom
    refine ⟨_, hs.exec_riceEnc, by rw [hstatus]; rfl, ?_, fun cap hone hcap => ?_⟩
    · rw [hcount, ← input_length]
      exact riceDecode_all (hcount ▸ hholds) hs.input_pos
    · rw [hcount]
      exact riceDecode_take (hcount ▸ hholds) hone (by rwa [input_length])
  · rw [← riceStream_length] at hroom
    obtain ⟨hlen, hpos⟩ := length_of_goodInput hgood hinput
    refine roundTrip_of_decode hgood hinput (fun s' hs' h' => h' ▸ hs'.exec_riceEnc) hroom fun bytes hholds => ?_
    rw [← hlen]
    exact congrArg RefResult.outcome (riceDecode_all hholds hpos)

end Sys2Proof.Machine
end

section
/-! The strings of an LZW dictionary (10_state.md R41, 43_lzw_encoder.md R203): each entry extends an older
code by a byte. -/

namespace Sys2Proof.Machine

/-- Every entry extends an older code (R203). -/
def OlderPrefixes (dict : List LzwEntry) : Prop :=
  ∀ (i : Nat) (e : LzwEntry), dict[i]? = some e → e.prefixCode < 256 + i

section
variable {dict : List LzwEntry} {code i : Nat} {e : LzwEntry}

theorem lzwStringFrom_byte (hcode : code < 256) (fuel : Nat) :
    lzwStringFrom dict (fuel + 1) code = [BitVec.ofNat 8 code] := if_pos hcode

theorem lzwStringFrom_entry (he : dict[i]? = some e) (fuel : Nat) :
    lzwStringFrom dict (fuel + 1) (256 + i) = lzwStringFrom dict fuel e.prefixCode ++ [e.suffixByte] := by
  have hentry : ¬ 256 + i < lzwFirstCode := Nat.not_lt.2 (Nat.le_add_right 256 i)
  have hi : 256 + i - lzwFirstCode = i := Nat.add_sub_cancel_left 256 i
  rw [lzwStringFrom, if_neg hentry, hi, he]

/-- A walk that starts low enough for its fuel does not depend on the fuel, nor on entries added later. -/
theorem lzwStringFrom_append (h : OlderPrefixes dict) (later : List LzwEntry) {fuel fuel' : Nat}
    (hdefined : code < 256 + dict.length) (hfuel : code < 256 + fuel) (hfuel' : code < 256 + fuel') :
    lzwStringFrom (dict ++ later) (fuel' + 1) code = lzwStringFrom dict (fuel + 1) code := by
  induction fuel generalizing fuel' code with
  | zero => rw [lzwStringFrom_byte hfuel, lzwStringFrom_byte hfuel]
  | succ fuel ih =>
    obtain hbyte | hentry := Nat.lt_or_ge code 256
    · rw [lzwStringFrom_byte hbyte, lzwStringFrom_byte hbyte]
    obtain ⟨i, rfl⟩ := Nat.exists_eq_add_of_le hentry
    have hi : i < dict.length := by omega
    have he : dict[i]? = some dict[i] := List.getElem?_eq_getElem hi
    have he' : (dict ++ later)[i]? = some dict[i] := by rw [List.getElem?_append_left hi, he]
    have holder := h i _ he
    obtain ⟨fuel', rfl⟩ := Nat.exists_eq_add_of_lt (show 0 < fuel' by omega)
    rw [lzwStringFrom_entry he, lzwStringFrom_entry he', Nat.zero_add,
      ih (fuel' := fuel') (by omega) (by omega) (by omega)]

theorem lzwString_byte (dict : List LzwEntry) (hcode : code < 256) : lzwString dict code = [BitVec.ofNat 8 code] :=
  lzwStringFrom_byte hcode _

/-- The string of an entry is that of the code it extends, and its byte (R41). -/
theorem lzwString_entry (h : OlderPrefixes dict) (he : dict[i]? = some e) :
    lzwString dict (256 + i) = lzwString dict e.prefixCode ++ [e.suffixByte] := by
  obtain ⟨hi, -⟩ := List.getElem?_eq_some_iff.1 he
  have holder := h i e he
  have hshort := lzwStringFrom_append h [] (code := e.prefixCode) (fuel := dict.length) (fuel' := dict.length - 1)
    (by omega) (by omega) (by omega)
  rw [List.append_nil, Nat.sub_add_cancel (by omega)] at hshort
  rw [lzwString, lzwStringFrom_entry he, hshort, lzwString]

/-- Later entries do not change the string of a code. -/
theorem lzwString_append (h : OlderPrefixes dict) (later : List LzwEntry) (hcode : code < 256 + dict.length) :
    lzwString (dict ++ later) code = lzwString dict code :=
  lzwStringFrom_append h later hcode hcode (by rw [List.length_append]; omega)

/-- No code has the empty string. -/
theorem lzwString_ne_nil (h : OlderPrefixes dict) (hcode : code < 256 + dict.length) : lzwString dict code ≠ [] := by
  obtain hbyte | hentry := Nat.lt_or_ge code 256
  · rw [lzwString_byte dict hbyte]
    exact List.cons_ne_nil _ _
  · obtain ⟨i, rfl⟩ := Nat.exists_eq_add_of_le hentry
    have hi : i < dict.length := by omega
    rw [lzwString_entry h (List.getElem?_eq_getElem hi)]
    exact List.append_ne_nil_of_right_ne_nil _ (List.cons_ne_nil _ _)

end

/-- The string of the current match: the bytes read since the last emission (R200, R203). -/
def LzwScratch.matched (z : LzwScratch) : List Byte :=
  match z.w with
  | none => []
  | some w => lzwString z.dict w

theorem matched_none {z : LzwScratch} (hw : z.w = none) : z.matched = [] := by
  rw [LzwScratch.matched, hw]

theorem matched_some {z : LzwScratch} {w : Nat} (hw : z.w = some w) : z.matched = lzwString z.dict w := by
  rw [LzwScratch.matched, hw]

/-- The match that begins again after an emission is the next byte alone (R200). -/
theorem matched_byte (z : LzwScratch) (c : Byte) : ({ z with w := some c.toNat } : LzwScratch).matched = [c] := by
  rw [matched_some rfl, lzwString_byte _ c.isLt, BitVec.ofNat_toNat, BitVec.setWidth_eq]

/-- A lookup that succeeds makes the match longer by the byte (R202). -/
theorem LzwDictInv.matched_lzwFind {z : LzwScratch} (h : LzwDictInv z) {c : Byte} {e : Nat} (he : lzwFind z c = some e) :
    ({ z with w := some e } : LzwScratch).matched = z.matched ++ [c] := by
  rw [lzwFind] at he
  cases hw : z.w with
  | none =>
    rw [hw] at he
    rw [matched_none hw]
    obtain rfl : c.toNat = e := Option.some.inj he
    exact matched_byte z c
  | some w =>
    rw [hw] at he
    obtain ⟨i, hi, rfl⟩ := Option.map_eq_some_iff.1 he
    obtain ⟨hlt, hentry, -⟩ := List.findIdx?_eq_some_iff_getElem.1 hi
    rw [decide_eq_true_eq] at hentry
    rw [matched_some hw, matched_some rfl]
    exact lzwString_entry h.prefixCode_lt (hentry ▸ List.getElem?_eq_getElem hlt)

end Sys2Proof.Machine
end

section
/-! The reference LZW decoder behind the encoder (45_reference_decoders.md R260 to R266, 90_conflicts.md C4): it knows the
dictionary of the encoder but for the entry made last. -/

namespace Sys2Proof.Machine

/-! ### The two scratches in step -/

/-- The decoder `d` has read every code the encoder `z` has emitted. Either both are at the start of a dictionary, or the
decoder lacks the encoder's last entry: it extends the code the decoder read last, and its byte is the first one of the
match that has begun (R264). -/
inductive InStep (z d : LzwScratch) : Prop
  | start (hd : d = lzwInit) (hdict : z.dict = d.dict) (hcode : z.nextCode = d.nextCode) (hwidth : z.width = d.width)
  | behind (p : Nat) (c : Byte) (hprev : d.w = some p) (hdict : z.dict = d.dict ++ [⟨p, c⟩])
      (hcode : z.nextCode = d.nextCode + 1) (hwidth : z.width = d.width) (hfirst : z.matched.head? = some c)

section
variable {z d : LzwScratch} {w : Nat}

theorem InStep.width_eq (h : InStep z d) : z.width = d.width := by
  cases h <;> assumption

/-- A byte that makes the match longer leaves the two in step. -/
theorem InStep.withMatch (h : InStep z d) (hz : LzwDictInv z) {c : Byte} {e : Nat} (he : lzwFind z c = some e) :
    InStep { z with w := some e } d := by
  cases h with
  | start hd hdict hcode hwidth => exact .start hd hdict hcode hwidth
  | behind p b hprev hdict hcode hwidth hfirst =>
    refine .behind p b hprev hdict hcode hwidth ?_
    rw [hz.matched_lzwFind he, List.head?_append, hfirst, Option.some_or]

/-- The decoder turns the code of the current match into the bytes of the match (R262, R263). -/
theorem InStep.refLzwString (h : InStep z d) (hz : LzwInv z) (hw : z.w = some w) :
    Machine.refLzwString d w = some z.matched := by
  have hlt := hz.current_lt w hw
  cases h with
  | start hd _ hcode _ =>
    rw [hcode, hd] at hlt
    rw [matched_some hw, lzwString_byte _ hlt, hd]
    exact if_pos hlt
  | behind p c hprev hdict hcode hwidth hfirst =>
    have hlen := hz.dictInv.length_add
    have holder : OlderPrefixes z.dict := hz.dictInv.prefixCode_lt
    have holder' : OlderPrefixes d.dict := fun i e he =>
      holder i e (by rw [hdict, List.getElem?_append_left (List.getElem?_eq_some_iff.1 he).1, he])
    have hlast : z.dict[d.dict.length]? = some ⟨p, c⟩ := by rw [hdict, List.getElem?_concat_length]
    have hp : p < 256 + d.dict.length := holder _ _ hlast
    rw [hdict, List.length_append, List.length_singleton] at hlen
    rw [matched_some hw] at hfirst ⊢
    rw [Machine.refLzwString, hprev]
    simp only
    obtain hold | rfl : w < d.nextCode ∨ w = d.nextCode := by omega
    · rw [if_pos hold, hdict, lzwString_append holder' _ (by omega)]
    · have hnew : d.nextCode = 256 + d.dict.length := by omega
      rw [if_neg (Nat.lt_irrefl _), if_pos rfl]
      rw [hnew, lzwString_entry holder hlast, hdict, lzwString_append holder' _ hp] at hfirst ⊢
      obtain ⟨b, bs, hstring⟩ := List.exists_cons_of_ne_nil (lzwString_ne_nil holder' hp)
      rw [hstring] at hfirst ⊢
      rw [Option.some.inj hfirst]
      rfl

/-- A dictionary that is not full gains an entry, and a width when the next code no longer fits (R205, R207). -/
theorem lzwInsert_notFull (hfull : z.nextCode ≠ lzwMaxEntries) (w : Nat) (c : Byte) :
    (lzwInsert w c z).dict = z.dict ++ [⟨w, c⟩] ∧ (lzwInsert w c z).nextCode = z.nextCode + 1 ∧
      (lzwInsert w c z).width =
        if z.nextCode + 1 = 2 ^ z.width ∧ z.width < lzwMaxBits then z.width + 1 else z.width := by
  rw [lzwInsert, if_neg hfull, lzwAdd]
  refine ⟨lzwWidthStep_dict _, lzwWidthStep_nextCode _, ?_⟩
  rw [lzwWidthStep]
  split <;> rfl

/-- After the encoder has emitted the current match and the decoder has read it, the two are in step again: both start
the dictionary anew (R208, R265), or the decoder makes the entry it lacked and the encoder the next one (R205, R264). -/
theorem InStep.afterCode (h : InStep z d) (c : Byte) :
    InStep { lzwInsert w c z with w := some c.toNat } (refLzwAfter d w (z.matched.headD 0)) := by
  have hnext : ({ lzwInsert w c z with w := some c.toNat } : LzwScratch).matched.head? = some c := by
    rw [matched_byte, List.head?_cons]
  cases h with
  | start hd hdict hcode hwidth =>
    obtain ⟨hdict', hcode', hwidth'⟩ := lzwInsert_notFull (z := z) (by rw [hcode, hd]; decide) w c
    rw [hcode, hwidth, hd] at hwidth'
    rw [hdict, hd] at hdict'
    rw [hcode, hd] at hcode'
    rw [hd]
    exact .behind w c rfl hdict' hcode' hwidth' hnext
  | behind p b hprev hdict hcode hwidth hfirst =>
    have hhead : z.matched.headD 0 = b := by rw [List.headD_eq_head?_getD, hfirst, Option.getD_some]
    rw [refLzwAfter, hprev, hhead, ← hcode]
    by_cases hfull : z.nextCode = lzwMaxEntries
    · rw [lzwInsert, if_pos hfull]
      simp only [if_pos hfull]
      exact .start rfl rfl rfl rfl
    · obtain ⟨hdict', hcode', hwidth'⟩ := lzwInsert_notFull hfull w c
      have hthreshold : z.nextCode + 1 = 2 ^ d.width ↔ z.nextCode = 2 ^ d.width - 1 := by omega
      simp only [hwidth, hthreshold] at hwidth'
      rw [hdict] at hdict'
      simp only [if_neg hfull]
      exact .behind w c rfl hdict' hcode' hwidth' hnext

/-! ### What the encoder still emits -/

/-- The codes the encoder emits from the scratch `z` on: those of the loop over the input still to come, and the one of
the final match (R200, R209). -/
def lzwEmissionsFrom (z : LzwScratch) (input : List Byte) : List LzwEmission :=
  (lzwBytes input z).1 ++ lzwEmit (lzwBytes input z).2

theorem lzwEmissionsFrom_nil (z : LzwScratch) : lzwEmissionsFrom z [] = lzwEmit z := rfl

theorem lzwEmissionsFrom_cons (z : LzwScratch) (c : Byte) (input : List Byte) :
    lzwEmissionsFrom z (c :: input) = (lzwByte c z).1 ++ lzwEmissionsFrom (lzwByte c z).2 input :=
  List.append_assoc _ _ _

theorem lzwByte_known {c : Byte} {e : Nat} (he : lzwFind z c = some e) : lzwByte c z = ([], { z with w := some e }) := by
  rw [lzwByte, he]

theorem lzwByte_unknown {c : Byte} (hnone : lzwFind z c = none) (hw : z.w = some w) :
    lzwByte c z = (lzwEmit z, { lzwInsert w c z with w := some c.toNat }) := by
  rw [lzwByte, hnone, hw, Option.getD_some]

/-! ### The loop -/

variable {m : Memory} {total cap : Nat} {rest : List Bool} {r : Reader}

/-- One pass of the decoder's loop reads one emitted code (R261). -/
theorem InStep.refLzwLoop_code (h : InStep z d) (hz : LzwInv z) (hw : z.w = some w) {out : List Byte}
    (hcap : (out ++ z.matched).length ≤ cap)
    (hleft : BitsLeft m total ((lzwEmit z).flatMap LzwEmission.stream ++ rest) r) (n : Nat) :
    ∃ r', BitsLeft m total rest r' ∧
      refLzwLoop m cap (n + 1) d out r =
        refLzwLoop m cap n (refLzwAfter d w (z.matched.headD 0)) (out ++ z.matched) r' := by
  have hemit : lzwEmit z = [⟨w, z.width⟩] := by rw [lzwEmit, hw]
  obtain ⟨hfits, hlow, hhigh⟩ := hz.lzwEmit_fits ⟨w, z.width⟩ (hemit ▸ List.mem_singleton_self _)
  rw [hemit, List.flatMap_singleton, LzwEmission.stream] at hleft
  simp only at hfits hlow hhigh hleft
  have hposition := hleft.position
  rw [List.length_append, lsbBits_length] at hposition
  obtain ⟨code, r', hread, hcode, hend⟩ := hleft.refReadBits_number (by omega) hfits
  have hne : z.matched ≠ [] := by
    rw [matched_some hw]
    exact lzwString_ne_nil hz.dictInv.prefixCode_lt
      ((hz.current_lt w hw).trans_eq (hz.dictInv.length_add.symm.trans (Nat.add_comm _ _)))
  have hpos := List.length_pos_of_ne_nil hne
  rw [List.length_append] at hcap
  refine ⟨r', hend, ?_⟩
  rw [refLzwLoop, if_pos ⟨by rw [hleft.size]; omega, by omega⟩, ← h.width_eq,
    if_neg (by rw [hleft.size]; omega), hread]
  simp only [hcode, h.refLzwString hz hw]
  rw [List.take_of_length_le (by omega)]

/-- With no bits left the loop ends (R266). -/
theorem refLzwLoop_nil (hleft : BitsLeft m total [] r) (n : Nat) (out : List Byte) :
    refLzwLoop m cap n d out r = ⟨.ok out, total⟩ := by
  rw [← hleft.bitsRead_eq]
  cases n with
  | zero => rfl
  | succ n => exact if_neg fun h => by rw [hleft.size, hleft.bitsRead_eq] at h; exact Nat.lt_irrefl _ h.1

/-- From two scratches in step on, the codes the encoder still emits decode to the match that has begun and the input
still to come (R266). -/
theorem InStep.refLzwLoop_input {input : List Byte} {out : List Byte} {n : Nat} (h : InStep z d) (hz : LzwInv z)
    (hcap : (out ++ z.matched ++ input).length ≤ cap)
    (hleft : BitsLeft m total ((lzwEmissionsFrom z input).flatMap LzwEmission.stream) r)
    (hn : (lzwEmissionsFrom z input).length ≤ n) :
    refLzwLoop m cap n d out r = ⟨.ok (out ++ z.matched ++ input), total⟩ := by
  induction input generalizing z d out n r with
  | nil =>
    rw [lzwEmissionsFrom_nil] at hleft hn
    rw [List.append_nil] at hcap ⊢
    cases hw : z.w with
    | none =>
      rw [lzwEmit, hw] at hleft
      rw [refLzwLoop_nil hleft, matched_none hw, List.append_nil]
    | some w =>
      rw [lzwEmit, hw] at hn
      obtain ⟨n, rfl⟩ := Nat.exists_eq_succ_of_ne_zero (Nat.ne_zero_of_lt hn)
      rw [← List.append_nil (List.flatMap _ _)] at hleft
      obtain ⟨r', hend, hpass⟩ := h.refLzwLoop_code hz hw hcap hleft n
      exact hpass.trans (refLzwLoop_nil hend _ _)
  | cons c rest ih =>
    obtain ⟨-, hinv⟩ := hz.lzwByte c
    rw [lzwEmissionsFrom_cons] at hleft hn
    rw [List.append_cons, List.append_assoc out] at hcap ⊢
    cases hfind : lzwFind z c with
    | some e =>
      simp only [lzwByte_known hfind, List.nil_append] at hleft hn hinv
      rw [← hz.dictInv.matched_lzwFind hfind] at hcap ⊢
      exact ih (h.withMatch hz.dictInv hfind) hinv hcap hleft hn
    | none =>
      obtain ⟨w, hw, -⟩ := lzwFind_eq_none hfind
      simp only [lzwByte_unknown hfind hw] at hleft hn hinv
      rw [List.flatMap_append] at hleft
      rw [List.length_append, lzwEmit_length_of_lzwFind_none hfind, Nat.add_comm] at hn
      obtain ⟨n, rfl⟩ := Nat.exists_eq_succ_of_ne_zero (Nat.ne_zero_of_lt hn)
      rw [← List.append_assoc out, ← matched_byte (lzwInsert w c z) c] at hcap ⊢
      have hshort : (out ++ z.matched).length ≤ cap :=
        (List.sublist_append_left _ _).length_le.trans (List.append_assoc _ _ rest ▸ hcap)
      obtain ⟨r', hend, hpass⟩ := h.refLzwLoop_code hz hw hshort hleft n
      exact hpass.trans (ih (h.afterCode c) hinv hcap hend (Nat.le_of_succ_le_succ hn))

end

/-- Every code takes at least one bit (R211). -/
theorem lzwEmissions_length_le_lzwStream (input : List Byte) :
    (lzwEmissions input).length ≤ (lzwStream input).length := by
  have hcode : ∀ n ∈ (lzwEmissions input).map (fun e => e.stream.length), 1 ≤ n := by
    intro n hn
    obtain ⟨e, he, rfl⟩ := List.mem_map.1 hn
    obtain ⟨-, hwidth, -⟩ := lzwEmissions_fits input e he
    rw [LzwEmission.stream, lsbBits_length]
    exact (by decide : 1 ≤ 9).trans hwidth
  calc (lzwEmissions input).length
      ≤ ((lzwEmissions input).map (fun e => e.stream.length)).sum := by
        simpa using List.card_nsmul_le_sum _ 1 hcode
    _ = (lzwStream input).length := List.length_flatMap.symm

theorem inStep_lzwInit : InStep lzwInit lzwInit := .start rfl rfl rfl rfl

/-- An LZW stream decodes to its input with every bit consumed, whatever the capacity beyond the input (R266). -/
theorem lzwDecode_lzwStream {bytes input : List Byte} (h : HoldsBits bytes (lzwStream input)) (hpos : 1 ≤ input.length)
    {cap : Nat} (hcap : input.length ≤ cap) :
    lzwDecode bytes (lzwStream input).length cap = ⟨.ok input, (lzwStream input).length⟩ := by
  have hbits := lzwEmissions_length_le_lzwStream input
  have hcodes := lzwEmissions_length_pos (List.ne_nil_of_length_pos hpos)
  rw [lzwDecode, h.refDecode_eq (List.ne_nil_of_length_pos (hcodes.trans hbits)) (hpos.trans hcap)]
  exact inStep_lzwInit.refLzwLoop_input lzwInv_lzwInit hcap h.bitsLeft (hbits.trans (Nat.le_succ _))

end Sys2Proof.Machine
end

section
/-! The obligation of the LZW round trip. -/

namespace Sys2Proof.Machine

/-- Settles O51: the command leaves the LZW stream, and the decoder keeps in step with the encoder that made it. -/
theorem lzwRoundTrip : Obligations.LzwRoundTrip := by
  refine ⟨fun s hs hroom => ?_, fun s base size input hgood hinput hroom => ?_⟩
  · obtain ⟨hstatus, hcount, hholds⟩ := hs.holdsStream hroom
    refine ⟨_, hs.exec_lzwEnc, by rw [hstatus]; rfl, fun cap hcap => ?_⟩
    rw [hcount]
    exact lzwDecode_lzwStream (hcount ▸ hholds) hs.input_pos (by rwa [input_length])
  · obtain ⟨hlen, hpos⟩ := length_of_goodInput hgood hinput
    refine roundTrip_of_decode hgood hinput (fun s' hs' h' => h' ▸ hs'.exec_lzwEnc) hroom fun bytes hholds => ?_
    exact congrArg RefResult.outcome (lzwDecode_lzwStream hholds hpos hlen.le)

end Sys2Proof.Machine
end

section
/-! The reference Huffman decoder on the header of a Huffman stream (45_reference_decoders.md R253, R254, R259). -/

namespace Sys2Proof.Machine

/-! ### The codes of the tables -/

/-- A code has at most 64 bits and no bit set past its length (R36). -/
def HuffmanCode.Canonical (c : HuffmanCode) : Prop := c.length ≤ maxCodeLen ∧ c.Spells c.stream

theorem HuffmanCode.Spells.canonical {c : HuffmanCode} {bits : List Bool} (h : c.Spells bits) (hle : bits.length ≤ 64) :
    c.Canonical := by
  rw [Canonical, h.stream_eq hle]
  exact ⟨h.1.trans_le hle, h⟩

/-- A code is what it spells. -/
theorem HuffmanCode.Spells.unique {c c' : HuffmanCode} {bits : List Bool} (h : c.Spells bits) (h' : c'.Spells bits) :
    c = c' := by
  obtain ⟨word, length⟩ := c
  obtain ⟨word', length'⟩ := c'
  obtain ⟨hlen, hbits⟩ := h
  obtain ⟨hlen', hbits'⟩ := h'
  obtain rfl : word = word' := BitVec.eq_of_getLsbD_eq fun j hj => (hbits j hj).trans (hbits' j hj).symm
  obtain rfl : length = length' := hlen.trans hlen'.symm
  rfl

/-- Every code of finished tables is canonical: it spells the way to its node, or nothing (R175, R177). -/
theorem hufTables_canonical {input : List Byte} {h : HufScratch} (ht : hufTables input = .ok h) (i : Nat) :
    (poolAt h.pool i).code.Canonical := by
  obtain ⟨built, htree, -, -, hassigned⟩ := hufTables_tree ht
  have hcodes := htree.codesOf hassigned
  by_cases hway : ∃ p, Leads built p i
  · obtain ⟨p, hp⟩ := hway
    obtain ⟨hlt, hcode⟩ := hcodes.reached p i hp
    exact hcode ▸ (codeOf_spells p).canonical hlt
  · rw [hcodes.unreached i (not_exists.1 hway)]
    exact HuffmanCode.spells_empty.canonical (Nat.zero_le _)

/-- The code of every byte, present or absent (R259). -/
def codeTable (h : HufScratch) : List HuffmanCode := (List.range 256).map fun i => (poolAt h.pool i).code

theorem codeTable_length (h : HufScratch) : (codeTable h).length = 256 := by
  rw [codeTable, List.length_map, List.length_range]

/-! ### The header -/

/-- The header entry of a code (R111). -/
def codeEntry (width : Nat) (c : HuffmanCode) : List Bool := lsbBits c.length width ++ c.stream

theorem hufHeader_eq (h : HufScratch) :
    hufHeader h = lsbBits 256 16 ++ (lsbBits h.fieldWidth 16 ++ (codeTable h).flatMap (codeEntry h.fieldWidth)) := by
  rw [codeTable, List.flatMap_map, ← List.append_assoc]
  rfl

/-- The Huffman stream from its first field to its payload (R108). -/
theorem hufStream_eq (h : HufScratch) (input : List Byte) :
    hufStream h input = lsbBits 256 16 ++ (lsbBits h.fieldWidth 16 ++ ((codeTable h).flatMap (codeEntry h.fieldWidth) ++
      (hufPad (hufHeader h).length ++ hufPayload h input))) := by
  rw [hufStream, List.append_assoc, congrArg (· ++ _) (hufHeader_eq h)]
  simp only [List.append_assoc]

section
variable {m : Memory} {total width : Nat} {rest : List Bool} {r : Reader}

/-- The bits a canonical code emits are read back as the code (R107, R253). -/
theorem BitsLeft.refReadBits_code {c : HuffmanCode} (hc : c.Canonical) (h : BitsLeft m total (c.stream ++ rest) r) :
    ∃ r', Machine.refReadBits m c.length r = .ok c.bits r' ∧ BitsLeft m total rest r' := by
  obtain ⟨hle, hspells⟩ := hc
  obtain ⟨v, r', hread, hbits, hleft⟩ := h.refReadBits (by rwa [HuffmanCode.stream_length])
  rw [HuffmanCode.stream_length] at hread
  have hcode : ⟨v, c.length⟩ = c := HuffmanCode.Spells.unique ⟨c.stream_length.symm, hbits⟩ hspells
  exact ⟨r', hread.trans (congrArg (fun x => RefPart.ok x.bits r') hcode), hleft⟩

/-- The entries of canonical codes whose lengths fit their field are read back as the codes (R253). -/
theorem BitsLeft.refHufEntries {codes : List HuffmanCode} (hcodes : ∀ c ∈ codes, c.Canonical ∧ c.length < 2 ^ width)
    (hwidth : width ≤ 64) (h : BitsLeft m total (codes.flatMap (codeEntry width) ++ rest) r) :
    ∃ r', Machine.refHufEntries m width codes.length r = .ok codes r' ∧ BitsLeft m total rest r' := by
  induction codes generalizing r with
  | nil => exact ⟨r, rfl, h⟩
  | cons c codes ih =>
    obtain ⟨⟨hc, hfits⟩, hcodes⟩ := List.forall_mem_cons.1 hcodes
    rw [List.flatMap_cons, codeEntry, List.append_assoc, List.append_assoc] at h
    obtain ⟨l, r1, hlength, hl, h1⟩ := h.refReadBits_number hwidth hfits
    obtain ⟨r2, hbits, h2⟩ := h1.refReadBits_code hc
    obtain ⟨r3, hrest, h3⟩ := ih hcodes h2
    refine ⟨r3, ?_, h3⟩
    rw [List.length_cons, Machine.refHufEntries, hlength, RefPart.andThen, hl, if_neg (Nat.not_lt.2 hc.1), hbits,
      RefPart.andThen, hrest, RefPart.andThen]

/-- Header and padding of a Huffman stream give the code table, and leave the payload (R253, R254). -/
theorem BitsLeft.refHufHeader {input : List Byte} {h : HufScratch} (hne : input ≠ []) (ht : hufTables input = .ok h)
    (hstart : r.bitsRead = 0) (hleft : BitsLeft m total (hufStream h input) r) :
    ∃ r', Machine.refHufHeader m r = .ok (codeTable h) r' ∧ BitsLeft m total (hufPayload h input) r' := by
  obtain ⟨-, -, -, hlow, hhigh, hfits⟩ := hufFieldWidthHoldsEveryLength input h hne ht
  have hposition := hleft.position
  rw [hufStream, List.length_append, List.length_append, hstart] at hposition
  rw [hufStream_eq] at hleft
  have hcodes : ∀ c ∈ codeTable h, c.Canonical ∧ c.length < 2 ^ h.fieldWidth := by
    intro c hc
    obtain ⟨i, hi, rfl⟩ := List.mem_map.1 hc
    exact ⟨hufTables_canonical ht i, hfits i (List.mem_range.1 hi)⟩
  obtain ⟨n, r1, hcount, hn, h1⟩ := hleft.refReadBits_number (by decide) (by decide)
  obtain ⟨l, r2, hfield, hl, h2⟩ := h1.refReadBits_number (by decide) (by omega)
  obtain ⟨r3, hentries, h3⟩ := h2.refHufEntries hcodes (by omega)
  obtain ⟨_, r4, hpad, -, h4⟩ := h3.refReadBits (by rw [hufPad_length]; omega)
  refine ⟨r4, ?_, h4⟩
  have hend := h3.position
  rw [List.length_append] at hend
  have hread : r3.bitsRead = (hufHeader h).length := by omega
  rw [codeTable_length] at hentries
  rw [hufPad_length, ← hread] at hpad
  rw [Machine.refHufHeader, hufHdrFieldBits, hufNField, hufLeaves, hcount, RefPart.andThen, hn, if_neg (not_not.2 rfl),
    hfield, RefPart.andThen, hl, if_neg (by omega), hentries, RefPart.andThen, hpad, RefPart.andThen]

end

end Sys2Proof.Machine
end

section
/-! The obligation of the Huffman header. -/

namespace Sys2Proof.Machine

/-- Settles O53: the entries hold the codes, which are canonical. -/
theorem huffmanHeaderRoundTrip : Obligations.HuffmanHeaderRoundTrip := by
  intro s h hs ht hroom
  obtain ⟨-, hcount, hholds⟩ := hs.holdsStream hroom
  obtain ⟨r, hheader, -⟩ :=
    hholds.bitsLeft.refHufHeader (List.ne_nil_of_length_pos hs.input_pos) ht rfl
  refine ⟨_, hs.exec_hufEnc ht, ?_⟩
  rw [ceil8, hcount] at hheader
  rw [huffDecodeHeader, hcount, hheader, codeTable]

end Sys2Proof.Machine
end

section
/-! The reference Huffman decoder on the payload of a Huffman stream (45_reference_decoders.md R255 to R258). -/

namespace Sys2Proof.Machine

/-- The encoder's code of a byte (R113). -/
def byteCode (h : HufScratch) (v : Byte) : HuffmanCode := (poolAt h.pool v.toNat).code

theorem hufPayload_cons (h : HufScratch) (v : Byte) (xs : List Byte) :
    hufPayload h (v :: xs) = (byteCode h v).stream ++ hufPayload h xs := List.flatMap_cons

theorem codeTable_getElem (h : HufScratch) {j : Nat} (hj : j < (codeTable h).length) :
    (codeTable h)[j] = byteCode h (leafValue j) := by
  rw [codeTable_length] at hj
  rw [byteCode, leafValue, BitVec.toNat_ofNat, Nat.mod_eq_of_lt hj]
  simp [codeTable]

section
variable {input : List Byte} {h : HufScratch} {v : Byte} {done : List Bool}

/-- The code of a byte that occurs is what its own bits accumulate to (R255). -/
theorem byteCode_eq_extend (ht : hufTables input = .ok h) (v : Byte) :
    byteCode h v = HuffmanCode.empty.extend (byteCode h v).stream :=
  HuffmanCode.Spells.unique (hufTables_canonical ht _).2 (HuffmanCode.spells_empty.extend _)

/-- While the bits of the code of `v` are read, they accumulate to no code of the table but the one of `v`, when they are
complete (R177, R255, R256). -/
theorem byteCode_eq_iff (ht : hufTables input = .ok h) (hv : v ∈ input) (hdone : done <+: (byteCode h v).stream)
    (u : Byte) : 0 < (byteCode h u).length ∧ byteCode h u = HuffmanCode.empty.extend done ↔
      done = (byteCode h v).stream ∧ u = v := by
  obtain ⟨-, -, hlength, hprefixFree, habsent, -⟩ := hufCodesArePrefixFree input h ht
  constructor
  · rintro ⟨hpos, hcode⟩
    have hu : u ∈ input := by
      by_contra hu
      rw [byteCode, habsent u hu] at hpos
      exact Nat.lt_irrefl 0 hpos
    obtain ⟨-, hle, -⟩ := hlength v hv
    have hstream : (byteCode h u).stream = done := by
      rw [hcode]
      refine (HuffmanCode.spells_empty.extend done).stream_eq (hdone.length_le.trans ?_)
      rwa [HuffmanCode.stream_length]
    have huv : u = v := by
      by_contra hne
      exact hprefixFree u hu v hv hne (hstream ▸ hdone)
    exact ⟨by rw [← hstream, huv], huv⟩
  · rintro ⟨rfl, rfl⟩
    obtain ⟨hpos, -⟩ := hlength u hv
    exact ⟨hpos, byteCode_eq_extend ht u⟩

/-- The decoder emits `v` when it has read all bits of its code, and nothing before (R255, R256). -/
theorem refHufMatch_codeTable (ht : hufTables input = .ok h) (hv : v ∈ input) (hdone : done <+: (byteCode h v).stream) :
    refHufMatch (codeTable h) (HuffmanCode.empty.extend done) =
      if done = (byteCode h v).stream then some v else none := by
  have hiff := byteCode_eq_iff ht hv hdone
  have hleaf : leafValue v.toNat = v := by rw [leafValue, BitVec.ofNat_toNat, BitVec.setWidth_eq]
  rw [refHufMatch]
  split
  · next hall =>
    refine Option.map_eq_some_iff.2 ⟨v.toNat, ?_, hleaf⟩
    refine List.findIdx?_eq_some_iff_getElem.2 ⟨(codeTable_length h).symm ▸ v.isLt, ?_, fun j hj => ?_⟩
    · rw [codeTable_getElem, hleaf, ← Bool.decide_and, decide_eq_true_eq, hiff]
      exact ⟨hall, rfl⟩
    · rw [codeTable_getElem, ← Bool.decide_and, decide_eq_true_eq, hiff]
      rintro ⟨-, hjv⟩
      have hlt : j < 256 := hj.trans v.isLt
      rw [← hjv, leafValue, BitVec.toNat_ofNat, Nat.mod_eq_of_lt hlt] at hj
      exact Nat.lt_irrefl _ hj
  · next hpart =>
    rw [Option.map_eq_none_iff, List.findIdx?_eq_none_iff]
    intro c hc
    obtain ⟨j, hj, rfl⟩ := List.mem_iff_getElem.1 hc
    rw [codeTable_getElem, ← Bool.decide_and, decide_eq_false_iff_not, hiff]
    exact fun hand => hpart hand.1

end

/-! ### The loop -/

section
variable {input : List Byte} {h : HufScratch} {v : Byte} {m : Memory} {total cap : Nat} {rest : List Bool} {r : Reader}

/-- Reading the rest of the code of `v` emits `v` (R255). -/
theorem BitsLeft.refHufPayload_code (ht : hufTables input = .ok h) (hv : v ∈ input) {done more : List Bool}
    (hsplit : done ++ more = (byteCode h v).stream) (hmore : more ≠ []) {out : List Byte} (hcap : out.length < cap)
    (hleft : BitsLeft m total (more ++ rest) r) (n : Nat) :
    ∃ r', BitsLeft m total rest r' ∧
      refHufPayload m (codeTable h) cap (more.length + n) (HuffmanCode.empty.extend done) out r =
        refHufPayload m (codeTable h) cap n HuffmanCode.empty (out ++ [v]) r' := by
  induction more generalizing done r with
  | nil => exact absurd rfl hmore
  | cons b more ih =>
    rw [List.append_cons] at hsplit
    obtain ⟨r', hread, hnext⟩ := hleft.readBit
    have hmatch := refHufMatch_codeTable ht hv (hsplit ▸ List.prefix_append (done ++ [b]) more)
    rw [List.length_cons, Nat.succ_add, Machine.refHufPayload, if_neg (Nat.not_le.2 hcap), hread]
    simp only [← HuffmanCode.extend_concat, hmatch]
    cases more with
    | nil =>
      rw [List.append_nil] at hsplit
      exact ⟨r', hnext, by rw [if_pos hsplit, List.length_nil, Nat.zero_add]⟩
    | cons b' more =>
      obtain ⟨hle, -⟩ := hufTables_canonical ht v.toNat
      have hlen := congrArg List.length hsplit
      rw [HuffmanCode.stream_length, List.length_append, List.length_cons] at hlen
      have hpart : done ++ [b] ≠ (byteCode h v).stream := fun heq => by
        rw [heq, HuffmanCode.stream_length] at hlen; omega
      have hshort : (HuffmanCode.empty.extend (done ++ [b])).length ≠ maxCodeLen := by
        rw [(HuffmanCode.spells_empty.extend (done ++ [b])).1, List.nil_append]
        rw [byteCode] at hlen
        omega
      obtain ⟨r'', hend, hrest⟩ := ih hsplit (List.cons_ne_nil b' more) hnext
      refine ⟨r'', hend, ?_⟩
      rw [if_neg hpart]
      exact (if_neg hshort).trans hrest

/-- With no bits left, all of the input is out (R258). -/
theorem BitsLeft.refHufEnd_ok (hleft : BitsLeft m total [] r) (out : List Byte) :
    (refHufEnd cap out r).outcome = .ok out :=
  if_neg fun h => by rw [hleft.size, hleft.bitsRead_eq] at h; exact Nat.lt_irrefl _ h.2

/-- With the capacity filled and bits left, the output is truncated (R258). -/
theorem BitsLeft.refHufEnd_truncated {bits : List Bool} (hleft : BitsLeft m total bits r) (hne : bits ≠ [])
    {out : List Byte} (hcap : out.length = cap) : (refHufEnd cap out r).outcome = .truncated out := by
  have hpos := List.length_pos_of_ne_nil hne
  have hposition := hleft.position
  exact if_pos ⟨hcap, by rw [hleft.size]; omega⟩

theorem byteCode_stream_ne_nil (ht : hufTables input = .ok h) (hv : v ∈ input) : (byteCode h v).stream ≠ [] := by
  obtain ⟨-, -, hlength, -⟩ := hufCodesArePrefixFree input h ht
  obtain ⟨hpos, -⟩ := hlength v hv
  exact List.ne_nil_of_length_pos (by rwa [HuffmanCode.stream_length])

/-- The payload of `xs` decodes to `xs`, or to as much of it as the capacity takes (R255, R258). -/
theorem BitsLeft.refHufPayload (ht : hufTables input = .ok h) {xs : List Byte} (hxs : ∀ v ∈ xs, v ∈ input)
    {out : List Byte} (hout : out.length ≤ cap) (hleft : BitsLeft m total (hufPayload h xs) r) {n : Nat}
    (hn : (hufPayload h xs).length < n) :
    (Machine.refHufPayload m (codeTable h) cap n HuffmanCode.empty out r).outcome =
      if cap < (out ++ xs).length then .truncated ((out ++ xs).take cap) else .ok (out ++ xs) := by
  induction xs generalizing out n r with
  | nil =>
    rw [List.append_nil, if_neg (Nat.not_lt.2 hout)]
    obtain ⟨n, rfl⟩ := Nat.exists_eq_succ_of_ne_zero (Nat.ne_zero_of_lt hn)
    rw [Machine.refHufPayload, hleft.readBit_nil, ite_self]
    exact hleft.refHufEnd_ok out
  | cons v xs ih =>
    obtain ⟨hv, hxs⟩ := List.forall_mem_cons.1 hxs
    have hne := byteCode_stream_ne_nil ht hv
    rw [hufPayload_cons] at hleft hn
    rw [List.length_append] at hn
    obtain hlt | heq := Nat.lt_or_eq_of_le hout
    · obtain ⟨n, rfl⟩ := Nat.exists_eq_add_of_le ((Nat.le_add_right _ _).trans hn.le)
      obtain ⟨r', hend, hcode⟩ := hleft.refHufPayload_code ht hv (List.nil_append _) hne hlt n
      rw [HuffmanCode.extend, List.foldl_nil] at hcode
      rw [hcode, List.append_cons out v xs]
      exact ih hxs (out := out ++ [v]) (by rw [List.length_append]; exact hlt) hend (Nat.lt_of_add_lt_add_left hn)
    · obtain ⟨n, rfl⟩ := Nat.exists_eq_succ_of_ne_zero (Nat.ne_zero_of_lt hn)
      rw [Machine.refHufPayload, if_pos heq.ge, hleft.refHufEnd_truncated (List.append_ne_nil_of_left_ne_nil hne _) heq,
        if_pos (by rw [List.length_append, List.length_cons]; omega), List.take_left' heq]

end

/-- A Huffman stream decodes to its input, or to as much of it as the capacity takes (R258). -/
theorem huffDecode_hufStream {bytes input : List Byte} {h : HufScratch} (ht : hufTables input = .ok h)
    (hholds : HoldsBits bytes (hufStream h input)) (hpos : 1 ≤ input.length) {cap : Nat} (hcap : 1 ≤ cap) :
    (huffDecode bytes (hufStream h input).length cap).outcome =
      if cap < input.length then .truncated (input.take cap) else .ok input := by
  have hne : hufStream h input ≠ [] := by
    rw [hufStream_eq]
    exact List.append_ne_nil_of_left_ne_nil (by decide) _
  obtain ⟨r, hheader, hleft⟩ := hholds.bitsLeft.refHufHeader (List.ne_nil_of_length_pos hpos) ht rfl
  rw [huffDecode, hholds.refDecode_eq hne hcap, hheader]
  refine hleft.refHufPayload ht (fun _ hv => hv) (Nat.zero_le cap) ?_
  have hposition := hleft.position
  omega

end Sys2Proof.Machine
end

section
/-! The obligation of the Huffman round trip. -/

namespace Sys2Proof.Machine

/-- Settles O52: the header gives the code table, and on the bits of a code the table matches that code only. -/
theorem huffmanRoundTrip : Obligations.HuffmanRoundTrip := by
  refine ⟨fun s h hs ht hroom => ?_, fun s base size input h hgood hinput ht hroom => ?_⟩
  · obtain ⟨hstatus, hcount, hholds⟩ := hs.holdsStream hroom
    refine ⟨_, hs.exec_hufEnc ht, by rw [hstatus]; rfl, fun cap hcap => ?_⟩
    rw [hcount, ← input_length]
    exact huffDecode_hufStream ht (hcount ▸ hholds) hs.input_pos hcap
  · obtain ⟨hlen, hpos⟩ := length_of_goodInput hgood hinput
    refine roundTrip_of_decode hgood hinput ?_ hroom fun bytes hholds => ?_
    · rintro s' hs' rfl
      exact hs'.exec_hufEnc ht
    · rw [← hlen]
      exact (huffDecode_hufStream ht hholds hpos hpos).trans (if_neg (Nat.lt_irrefl _))

end Sys2Proof.Machine
end

section
/-! Refusals and faults (60_exceptions.md): what a faulted core answers and keeps, which operands a command refuses, and
which end of a command can latch a fault. -/

namespace Sys2Proof.Machine

/-! ### The faulted core (R312, R318) -/

theorem exec_of_fault {s : State} (hf : s.status.fault = true) (i : Instr) :
    exec i s = .next (s.refuse .argFaulted) := by
  cases i <;> exact unlessFaulted_fault hf _

/-- A faulted core refuses every command word, legal or not. -/
theorem runWord_of_fault {s : State} (hf : s.status.fault = true) (w : Word32) :
    s.runWord w = .next (s.refuse .argFaulted) := by
  cases hd : decode w with
  | ok i => rw [runWord_of_decode_ok hd, exec_of_fault hf]
  | error e => rw [runWord_of_decode_error hd, unlessFaulted_fault hf]

/-- The fault, its cause and `EOS` survive a refusal (R306). -/
theorem Status.refused_of_fault {st : Status} (hf : st.fault = true) (k : Cause) :
    st.refused k = ⟨false, true, true, st.eos, st.cause⟩ := by
  rw [Status.refused, hf, if_pos rfl]

theorem writeCmd_status_of_fault {s t : State} {rest : List HostAction} {w : Word32} (hf : s.status.fault = true)
    (ht : s.writeCmd rest w = .next t) : t.status = s.status ∨ t.status = s.status.refused .argFaulted := by
  cases hbusy : s.status.busy with
  | true => rw [writeCmd_busy hbusy] at ht; cases ht; exact .inl rfl
  | false =>
    rw [writeCmd_idle hbusy, runWord_of_fault (s := s.started rest) hf] at ht
    cases ht
    exact .inr rfl

theorem writeArg_next {s t t' : State} (ht : s.writeArg t = .next t') : t' = t := by
  cases hbusy : s.status.busy with
  | true => rw [writeArg_busy hbusy] at ht; cases ht
  | false => rw [writeArg_idle hbusy] at ht; cases ht; rfl

/-- A host write to a faulted core leaves `STATUS` as it is, unless it issues a command, which is refused. -/
theorem writeWindow_status_of_fault {s t : State} {rest : List HostAction} {off : Byte} {width : Width} {v : Word64}
    (hf : s.status.fault = true) (ht : s.writeWindow rest off width v = .next t) :
    t.status = s.status ∨ t.status = s.status.refused .argFaulted := by
  unfold State.writeWindow at ht
  split at ht
  · exact writeCmd_status_of_fault hf ht
  · rw [writeArg_next ht]; exact .inl rfl
  · rw [writeArg_next ht]; exact .inl rfl
  · cases ht; exact .inl rfl

theorem hostStore_status {s t : State} {rest : List HostAction} {a : Nat} {v : Byte}
    (ht : s.hostStore rest a v = .next t) : t.status = s.status := by
  obtain ha | ha := Nat.lt_or_ge a (memBytes s.cfg)
  · rw [hostStore_inside ha] at ht; cases ht; rfl
  · rw [hostStore_outside ha] at ht; cases ht

theorem takeAction_status_of_fault {s t : State} {a : HostAction} {rest : List HostAction}
    (hf : s.status.fault = true) (ha : a ≠ .reset) (ht : s.takeAction a rest = .next t) :
    t.status = s.status ∨ t.status = s.status.refused .argFaulted := by
  cases a with
  | write off width v => exact writeWindow_status_of_fault hf ht
  | read off width => cases ht; exact .inl rfl
  | storeMem a v => exact .inl (hostStore_status ht)
  | reset => exact absurd rfl ha

/-- All that a step other than a reset can do to the `STATUS` of a faulted core. -/
theorem step_status_of_fault {s t : State} (hf : s.status.fault = true) (ht : step s = .next t)
    (hreset : ∀ rest, s.pending ≠ .reset :: rest) :
    t.status = s.status ∨ t.status = s.status.refused .argFaulted := by
  cases hp : s.pending with
  | nil =>
    rw [step_of_pending_nil hp] at ht
    cases ht
    exact .inl rfl
  | cons a rest =>
    rw [step_of_pending_cons hp] at ht
    refine takeAction_status_of_fault hf ?_ ht
    rintro rfl
    exact hreset rest hp

/-! ### The operands a command refuses (R303, R304) -/

theorem refused_refuse (s : State) (k : Cause) : Refused s k (s.refuse k) := rfl

theorem exec_bswCode_refuses_count {s : State} (hf : s.status.fault = false) (hlen : 64 < s.arg1.toNat) :
    exec .bswCode s = .next (s.refuse .argCount) :=
  (unlessFaulted_ok hf _).trans (congrArg _ (if_pos hlen))

/-- Every encoder command makes its checks before anything else. -/
theorem exec_encoder_of_unfaulted {s : State} {i : Instr} (hi : IsEncoder i) (hf : s.status.fault = false) :
    ∃ body, exec i s = .next (s.encodeInput body) := by
  obtain rfl | rfl | rfl := hi <;> exact ⟨_, unlessFaulted_ok hf _⟩

/-! ### The ends that latch a fault (R301) -/

theorem appendAndEnd_fault_cause {s : State} {bits : List Bool} (hf : s.status.fault = false)
    (ht : (s.appendAndEnd bits).status.fault = true) : (s.appendAndEnd bits).status.cause = .capAlloc := by
  obtain ⟨w, h⟩ | ⟨w, h⟩ := appendAndEnd_cases s bits
  · simp [h, hf] at ht
  · simp [h]

@[simp] theorem readBitEnd_fault (s : State) : s.readBitEnd.status.fault = s.status.fault := by
  obtain h | h := Nat.lt_or_ge s.r.bitsRead s.r.sizeInBits
  · rw [readBitEnd_bit h]; rfl
  · rw [readBitEnd_eos h]; rfl

theorem readBitsEnd_fault_cause {s : State} {n : Nat} (hf : s.status.fault = false)
    (ht : (s.readBitsEnd n).status.fault = true) : (s.readBitsEnd n).status.cause = .strUnexpectedEnd := by
  obtain ⟨p, -, ⟨v, h⟩ | h⟩ := readBitsEnd_cases s n
  · simp [h, hf] at ht
  · simp [h]

end Sys2Proof.Machine
end

section
/-! The obligations of the refusals and faults. -/

namespace Sys2Proof.Machine

/-- Settles O13: the `STATUS` of a faulted core stays as it is or is that of a refusal, and both keep the fault. -/
theorem onlyResetClearsAFault : Obligations.OnlyResetClearsAFault := by
  intro s t hf ht hreset
  obtain hst | hst := step_status_of_fault hf ht hreset
  · rw [State.irqErr, hst]
    exact ⟨hf, rfl, hf⟩
  · rw [State.irqErr, hst, Status.refused_of_fault hf]
    exact ⟨rfl, rfl, rfl⟩

/-- Settles O59, by the ends of a command: an append raises `CAP_ALLOC` only, the tables of `HUF.ENC` the two causes of
`hufTables_error`, `BSR.BITS` `STR_UNEXPECTED_END`; a refusal and a completion latch nothing. -/
theorem faultsComeFromTheirCommands : Obligations.FaultsComeFromTheirCommands := by
  intro i s t h hf ht
  cases exec_ends h with
  | bit b => exact .inl ⟨appendAndEnd_fault_cause hf ht, .inl ⟨b, rfl⟩⟩
  | bits n => exact .inl ⟨appendAndEnd_fault_cause hf ht, .inr (.inl ⟨n, rfl⟩)⟩
  | code => exact .inl ⟨appendAndEnd_fault_cause hf ht, .inr (.inr (.inl rfl))⟩
  | huf => exact .inl ⟨appendAndEnd_fault_cause hf ht, .inr (.inr (.inr (.inl rfl)))⟩
  | lzw => exact .inl ⟨appendAndEnd_fault_cause hf ht, .inr (.inr (.inr (.inr (.inl rfl))))⟩
  | rice => exact .inl ⟨appendAndEnd_fault_cause hf ht, .inr (.inr (.inr (.inr (.inr rfl))))⟩
  | hufFault k _ _ _ hk => exact .inr (.inl ⟨(hufTables_error hk).symm, rfl⟩)
  | readBits n => exact .inr (.inr ⟨readBitsEnd_fault_cause hf ht, n, rfl⟩)
  | readBit => exact absurd (hf.symm.trans ((readBitEnd_fault s).symm.trans ht)) nofun
  | _ => exact absurd (hf.symm.trans ht) nofun

/-- Settles O6: the word is judged on the started core, whose fault is that of `s`. -/
theorem faultedCoreRefusesEveryWord : Obligations.FaultedCoreRefusesEveryWord := by
  intro s v rest hp hidle hf
  rw [step_writeCmd_idle hp hidle, runWord_of_fault (s := s.started rest) hf, State.refuse,
    Status.refused_of_fault (st := (s.started rest).status) hf]
  rfl

/-- Settles O18: the two format-N commands check `N`, `BSW.CODE` checks `ARG1`. -/
theorem countsAbove64AreRefused : Obligations.CountsAbove64AreRefused := fun s hf =>
  ⟨fun _ hn => ⟨_, exec_refuses_count hf hn (.inl rfl), refused_refuse s _⟩,
    fun _ hn => ⟨_, exec_refuses_count hf hn (.inr rfl), refused_refuse s _⟩,
    fun hlen => ⟨_, exec_bswCode_refuses_count hf hlen, refused_refuse s _⟩⟩

/-- Settles O30: the range check comes first, then the check of the writer. -/
theorem encodersRefuseBadInput : Obligations.EncodersRefuseBadInput := by
  intro i s hi hf
  obtain ⟨body, hexec⟩ := exec_encoder_of_unfaulted hi hf
  refine ⟨fun hbad => ⟨_, hexec.trans (congrArg _ (encodeInput_size ?_)), refused_refuse s _⟩,
    fun hpos hsize hend hw => ⟨_, hexec.trans (congrArg _ (encodeInput_notEmpty ?_ hw)), refused_refuse s _⟩⟩
  · exact Bool.eq_false_iff.2 fun hok => hbad ((inputRangeOk_iff _ _ _).1 hok)
  · exact (inputRangeOk_iff _ _ _).2 ⟨hpos, hsize, hend⟩

end Sys2Proof.Machine
end

section
/-! What a command does not read (70_reset_and_hazards.md R349): another value of the reader, or of the writer and the log,
goes unchanged through every command that is of the other kind. -/

namespace Sys2Proof.Machine

/-- The machine with another reader. -/
def State.withReader (r : Reader) (s : State) : State := { s with r := r }

/-- The machine with another writer and another release log. -/
def State.withWriter (w : Writer) (log : List Release) (s : State) : State := { s with w := w, released := log }

/-- An outcome with its next state changed by `f`. -/
def mapNext (f : State → State) : Host.Outcome State Fault Refusal → Host.Outcome State Fault Refusal
  | .next s => .next (f s)
  | .fault k => .fault k
  | .refused k => .refused k

/-- The test for a fault lets a change `f` through that neither it nor a refusal sees. -/
theorem unlessFaulted_mapNext {f : State → State} {s : State} {o o' : Host.Outcome State Fault Refusal}
    (hfault : (f s).status.fault = s.status.fault) (hrefuse : (f s).refuse .argFaulted = f (s.refuse .argFaulted))
    (ho : o' = mapNext f o) : (f s).unlessFaulted o' = mapNext f (s.unlessFaulted o) := by
  cases hf : s.status.fault with
  | true => rw [unlessFaulted_fault hf, unlessFaulted_fault (hfault.trans hf), hrefuse, mapNext]
  | false => rw [unlessFaulted_ok hf, unlessFaulted_ok (hfault.trans hf), ho]

/-! ### The reader, through the writer and encoder commands -/

theorem appendAndEnd_withReader (s : State) (r : Reader) (bits : List Bool) :
    (s.withReader r).appendAndEnd bits = (s.appendAndEnd bits).withReader r := by
  cases h : s.w.appendBits s.cfg bits with
  | done w => rw [appendAndEnd_done h, appendAndEnd_done (s := s.withReader r) h]; rfl
  | full w => rw [appendAndEnd_full h, appendAndEnd_full (s := s.withReader r) h]; rfl

theorem encodeInput_withReader {s : State} {r : Reader} {body body' : List Byte → State}
    (hbody : ∀ input, body' input = (body input).withReader r) :
    (s.withReader r).encodeInput body' = (s.encodeInput body).withReader r := by
  cases hrange : inputRangeOk s.cfg s.arg0.toNat s.arg1.toNat with
  | false => rw [encodeInput_size hrange, encodeInput_size (s := s.withReader r) hrange]; rfl
  | true =>
    by_cases hempty : s.w.bitsWritten = 0
    · rw [encodeInput_ok hrange hempty, encodeInput_ok (s := s.withReader r) hrange hempty]
      exact hbody _
    · rw [encodeInput_notEmpty hrange hempty, encodeInput_notEmpty (s := s.withReader r) hrange hempty]
      rfl

theorem hufRun_withReader (s : State) (r : Reader) (input : List Byte) :
    ((s.withReader r).hufRun input).dropHuf = (s.hufRun input).dropHuf.withReader r := by
  cases h : hufTables input with
  | ok tables => rw [hufRun_ok h, hufRun_ok h, appendAndEnd_withReader]; rfl
  | error k => rw [hufRun_error h, hufRun_error h]; rfl

theorem lzwRun_withReader (s : State) (r : Reader) (input : List Byte) :
    ((s.withReader r).lzwRun input).dropLzw = (s.lzwRun input).dropLzw.withReader r := by
  rw [lzwRun_eq, lzwRun_eq, appendAndEnd_withReader]; rfl

theorem riceRun_withReader (s : State) (r : Reader) (input : List Byte) :
    ((s.withReader r).riceRun input).dropRice = (s.riceRun input).dropRice.withReader r := by
  rw [riceRun_eq, riceRun_eq, appendAndEnd_withReader]; rfl

theorem unlessFaulted_withReader {s t t' : State} {r : Reader} (h : t' = t.withReader r) :
    (s.withReader r).unlessFaulted (.next t') = mapNext (State.withReader r) (s.unlessFaulted (.next t)) :=
  unlessFaulted_mapNext rfl rfl (congrArg _ h)

/-- A writer or encoder command does the same whatever the reader. -/
theorem exec_withReader {i : Instr} (hi : ¬ IsReader i) (s : State) (r : Reader) :
    exec i (s.withReader r) = mapNext (State.withReader r) (exec i s) := by
  cases i with
  | bswBit b => exact unlessFaulted_withReader (appendAndEnd_withReader s r _)
  | bswBits n =>
    refine unlessFaulted_withReader ?_
    rw [apply_ite (State.withReader r), ← appendAndEnd_withReader]
    rfl
  | bswCode =>
    refine unlessFaulted_withReader ?_
    rw [apply_ite (State.withReader r), ← appendAndEnd_withReader]
    rfl
  | bswRel => exact unlessFaulted_withReader rfl
  | bswCnt => exact unlessFaulted_withReader rfl
  | hufEnc => exact unlessFaulted_withReader (encodeInput_withReader (hufRun_withReader s r))
  | lzwEnc => exact unlessFaulted_withReader (encodeInput_withReader (lzwRun_withReader s r))
  | riceEnc => exact unlessFaulted_withReader (encodeInput_withReader (riceRun_withReader s r))
  | bsrOpen => exact absurd (.inl rfl) hi
  | bsrBit => exact absurd (.inr (.inl rfl)) hi
  | bsrBits n => exact absurd (.inr (.inr ⟨n, rfl⟩)) hi

theorem unlessFaulted_next (s t : State) : ∃ t', s.unlessFaulted (.next t) = .next t' := by
  cases hf : s.status.fault with
  | true => exact ⟨_, unlessFaulted_fault hf _⟩
  | false => exact ⟨_, unlessFaulted_ok hf _⟩

/-- Only a reader command can stop the model: no other command reads `MEM` outside a checked range. -/
theorem exec_next_of_not_reader {i : Instr} (hi : ¬ IsReader i) (s : State) : ∃ t, exec i s = .next t := by
  cases i with
  | bsrOpen => exact absurd (.inl rfl) hi
  | bsrBit => exact absurd (.inr (.inl rfl)) hi
  | bsrBits n => exact absurd (.inr (.inr ⟨n, rfl⟩)) hi
  | _ => exact unlessFaulted_next s _

/-! ### The writer and the log, through the reader commands -/

theorem withSlice_withWriter {s t t' : State} {w : Writer} {log : List Release} (n : Nat)
    (h : t' = t.withWriter w log) :
    (s.withWriter w log).withSlice n t' = mapNext (State.withWriter w log) (s.withSlice n t) := by
  subst h
  unfold State.withSlice State.withWriter
  cases s.r.lastByte n with
  | none => rfl
  | some a => by_cases ha : a < memBytes s.cfg <;> simp [ha, mapNext]

theorem readBitEnd_withWriter (s : State) (w : Writer) (log : List Release) :
    (s.withWriter w log).readBitEnd = s.readBitEnd.withWriter w log := by
  obtain h | h := Nat.lt_or_ge s.r.bitsRead s.r.sizeInBits
  · rw [readBitEnd_bit h, readBitEnd_bit (s := s.withWriter w log) h]; rfl
  · rw [readBitEnd_eos h, readBitEnd_eos (s := s.withWriter w log) h]; rfl

theorem readBitsEnd_withWriter (s : State) (n : Nat) (w : Writer) (log : List Release) :
    (s.withWriter w log).readBitsEnd n = (s.readBitsEnd n).withWriter w log := by
  unfold State.readBitsEnd State.withWriter
  rcases s.r.readBits s.mem n with ⟨v | v, r⟩ <;> rfl

theorem unlessFaulted_withWriter {s : State} {w : Writer} {log : List Release} {o o' : Host.Outcome State Fault Refusal}
    (h : o' = mapNext (State.withWriter w log) o) :
    (s.withWriter w log).unlessFaulted o' = mapNext (State.withWriter w log) (s.unlessFaulted o) :=
  unlessFaulted_mapNext rfl rfl h

/-- A reader command does the same whatever the writer and the log. -/
theorem exec_withWriter {i : Instr} (hi : IsReader i) (s : State) (w : Writer) (log : List Release) :
    exec i (s.withWriter w log) = mapNext (State.withWriter w log) (exec i s) := by
  obtain rfl | rfl | ⟨n, rfl⟩ := hi
  · refine unlessFaulted_withWriter ?_
    rw [mapNext, apply_ite (State.withWriter w log)]
    rfl
  · exact unlessFaulted_withWriter (withSlice_withWriter 1 (readBitEnd_withWriter s w log))
  · refine unlessFaulted_withWriter ?_
    rw [apply_ite (mapNext _), ← withSlice_withWriter n (readBitsEnd_withWriter s n w log)]
    rfl

end Sys2Proof.Machine
end

section
/-! The obligations of reset and of the hazards. -/

namespace Sys2Proof.Machine

/-- Settles O57: a command lets through unchanged any value of what it does not read. That it keeps the machine's own value is
the case where that value is put in the place of itself. -/
theorem readerAndWriterAreIndependent : Obligations.ReaderAndWriterAreIndependent := by
  refine ⟨fun i s r hi => ?_, fun i s t w log hi ht => ?_⟩
  · obtain ⟨t, ht⟩ := exec_next_of_not_reader hi s
    have through (r : Reader) : exec i (s.withReader r) = .next (t.withReader r) := by
      rw [exec_withReader hi, ht, mapNext]
    have hown : t = t.withReader s.r := by simpa using ht.symm.trans (through s.r)
    exact ⟨t, ht, (congrArg State.r hown :), through r⟩
  · have through (w : Writer) (log : List Release) :
        exec i (s.withWriter w log) = .next (t.withWriter w log) := by
      rw [exec_withWriter hi, ht, mapNext]
    have hown : t = t.withWriter s.w s.released := by simpa using ht.symm.trans (through s.w s.released)
    exact ⟨(congrArg State.w hown :), (congrArg State.released hown :), through w log⟩

/-- Settles O12: the step is `State.resetCore`, and the records set aside are still part of the output. -/
theorem resetPutsEveryPieceAtItsValue : Obligations.ResetPutsEveryPieceAtItsValue := by
  intro s rest hp
  have hword : Status.reset.word = 0#32 := by decide
  have houtput : ({ s with pending := rest } : State).resetCore.output = s.output := List.append_nil _
  exact ⟨_, step_of_pending_cons hp, hword, rfl, rfl, rfl, rfl, rfl, rfl, rfl, rfl, rfl, rfl, rfl, rfl, rfl, rfl, rfl,
    rfl, rfl, houtput, rfl, rfl, rfl⟩

end Sys2Proof.Machine
end
